-- ==== Sys2Proof/Word.lean ====
section
/-! DEFINITION. The plain value types of the block: command words, bytes, `f64` bit patterns, complex values, and
the result of an arithmetic operation before the bits of a NaN are drawn. -/

namespace Sys2Proof

/-- A 32-bit word: what the host writes to `CMD` and reads from `STATUS` (R25, R26). -/
abbrev Word := BitVec 32

/-- One element of a byte buffer, an unsigned octet at the interface (R30). -/
abbrev Byte := BitVec 8

/-- One IEEE-754 binary64 value as its 64 bits, laid out as R77 says (sign 63, exponent 62:52, fraction 51:0). -/
abbrev F64 := BitVec 64

/-- A complex value `(re, im)`: a pair, with value semantics and no identity (R21, R78). -/
structure Cplx (α : Type) where
  re : α
  im : α
deriving DecidableEq, Repr

/-- A real value inside a command. R106 leaves the sign and payload of a NaN that an operation RETURNS open (a draw
for every NaN result), and no operation reads them, so such a NaN carries no bits until it is stored.
A value that no operation produced (an operand passed through, a cosine) keeps its bits, NaN or not. -/
inductive FVal where
  /-- A value whose 64 bits are known. -/
  | bits (b : F64)
  /-- A NaN result whose bits are still to be drawn (`NAN_DRAW`). -/
  | nanResult
deriving DecidableEq, Repr

end Sys2Proof
end

