-- ==== Sys2Proof/Syntax.lean ====
section
/-! DEFINITION. The command set: one constructor per row of spec/opcode_table.json. -/

namespace Sys2Proof

/-- The eight host commands (R72). A command carries no register number, no immediate, no length and no mode: every
operand is implicit (R71), so no constructor has an argument. -/
inductive Instr where
  /-- `CADD`, complex add (R100). -/
  | cadd
  /-- `CSUB`, complex subtract (R101). -/
  | csub
  /-- `CMUL`, complex multiply (R102). -/
  | cmul
  /-- `CRND`, complex round (R103). -/
  | crnd
  /-- `FFT`, forward transform of a real sequence (R120). -/
  | fft
  /-- `IFFT`, inverse transform of a complex buffer (R140). -/
  | ifft
  /-- `CONV`, linear convolution of two real sequences (R160). -/
  | conv
  /-- `BMUL`, product of two non-negative big integers (R180). -/
  | bmul
deriving DecidableEq, Repr

end Sys2Proof
end

