-- ==== Sys2Proof/WellFormed.lean ====
section
/-! DEFINITION. What makes a command, and a command word, well formed. -/

namespace Sys2Proof

/-- R71: a command has no operand field, so there is nothing in one that could be out of range. Written constructor
by constructor, so that a command with a field cannot slip past. -/
def Instr.wellFormed : Instr → Bool
  | .cadd => true
  | .csub => true
  | .cmul => true
  | .crnd => true
  | .fft => true
  | .ifft => true
  | .conv => true
  | .bmul => true

/-- R70: the reserved field `rsvd`, bits 31:8, must be zero. -/
def Word.reservedClear (w : Word) : Bool := w.extractLsb' 8 24 == 0#24

/-- R72: the values of the `opcode` field, bits 7:0, that select a command. -/
def Word.knownOpcodes : List Byte := [0x01#8, 0x02#8, 0x03#8, 0x04#8, 0x10#8, 0x11#8, 0x20#8, 0x30#8]

/-- R72: the `opcode` field holds one of the eight values. -/
def Word.opcodeKnown (w : Word) : Bool := Word.knownOpcodes.contains (w.extractLsb' 0 8)

/-- R73: every word that fails one of the two checks is illegal. -/
def Word.wellFormed (w : Word) : Bool := w.reservedClear && w.opcodeKnown

end Sys2Proof
end

