-- ==== Sys2Proof/Decode.lean ====
section
/-! DEFINITION. Decoding a command word, and encoding a command, both read from the one opcode map of R72. -/

namespace Sys2Proof

/-- The `opcode` field, bits 7:0 (R70). -/
def Word.opcode (w : Word) : Byte := w.extractLsb' 0 8

/-- The reserved field, bits 31:8 (R70). -/
def Word.rsvd (w : Word) : BitVec 24 := w.extractLsb' 8 24

/-- R70: a decoder tests `word & mask == match`; every bit is fixed by the command, so the mask is all ones. -/
def decodeMask : Word := 0xFFFFFFFF#32

/-- The opcode map of R72: the word of each command beside the command it selects. -/
def opcodeMap : List (Word × Instr) :=
  [ (0x00000001#32, .cadd),
    (0x00000002#32, .csub),
    (0x00000003#32, .cmul),
    (0x00000004#32, .crnd),
    (0x00000010#32, .fft),
    (0x00000011#32, .ifft),
    (0x00000020#32, .conv),
    (0x00000030#32, .bmul) ]

/-- The command a word selects: the first row of the map that matches it. `none` is R73's illegal word. Decoding
depends on the word alone (R74). -/
def decode (w : Word) : Option Instr :=
  (opcodeMap.find? fun row => w &&& decodeMask == row.1).map Prod.snd

/-- The `opcode` value of each command (R72). -/
def Instr.opcode : Instr → Byte
  | .cadd => 0x01#8
  | .csub => 0x02#8
  | .cmul => 0x03#8
  | .crnd => 0x04#8
  | .fft => 0x10#8
  | .ifft => 0x11#8
  | .conv => 0x20#8
  | .bmul => 0x30#8

/-- The command's word: format `C`, `rsvd` zero above `opcode` (R70). -/
def encode (i : Instr) : Word := 0#24 ++ i.opcode

/-- How a command is written: its mnemonic alone, in capitals (R75), spelled as in R72. -/
def Instr.mnemonic : Instr → String
  | .cadd => "CADD"
  | .csub => "CSUB"
  | .cmul => "CMUL"
  | .crnd => "CRND"
  | .fft => "FFT"
  | .ifft => "IFFT"
  | .conv => "CONV"
  | .bmul => "BMUL"

/-- The command the decoder reads from a word numbered as spec/opcode_table.json numbers it. A command is one 32-bit
word with bit 0 the least significant (R10, R70), and bits above `nbits` are 0; a value that does not fit has no
command. -/
def decodeTableWord (nbits w : Nat) : Option Instr :=
  if w < 2 ^ nbits ∧ w < 2 ^ 32 then decode (BitVec.ofNat 32 w) else none

end Sys2Proof
end

