-- ==== Sys2Proof/Machine/HostAction.lean ====
section
/-! DEFINITION. The names of the block's registers and buffers as the host reaches them (R50), and the moves of the
host (R40, R76). Which moves exist follows the read and write columns of R21 and R27 to R30: a container the host may
not write, and `CMD`, which it may not read, have no move that does so. -/

namespace Sys2Proof.Machine

/-- The `f64` planes (R28, R29). -/
inductive PlaneName where
  | xaRe | xaIm | xbRe | yRe | yIm
deriving DecidableEq, Repr

/-- The byte buffers (R30): `BA`, `BB`, `BY`. -/
inductive BufferName where
  | ba | bb | byBuf
deriving DecidableEq, Repr

/-- The planes the host writes (R28). -/
inductive OperandPlane where
  | xaRe | xaIm | xbRe
deriving DecidableEq, Repr

/-- The byte buffers the host writes (R30). -/
inductive OperandBuffer where
  | ba | bb
deriving DecidableEq, Repr

/-- The length registers the host writes (R27); `NY` and `NBY` are read-only to it. -/
inductive OperandLength where
  | naRe | naIm | nbRe | nba | nbb
deriving DecidableEq, Repr

/-- The scalar fields the host writes (R21); `CR` is read-only to it. -/
inductive OperandField where
  | caRe | caIm | cbRe | cbIm
deriving DecidableEq, Repr

/-- Every register the host reads (R21, R26, R27). -/
inductive ReadableRegister where
  | status
  | naRe | naIm | nbRe | ny | nba | nbb | nby
  | caRe | caIm | cbRe | cbIm | crRe | crIm
deriving DecidableEq, Repr

/-- One move of the host. A list of them, run in order, is a host script (R76). -/
inductive HostAction where
  /-- `SET REG = v` for a length register. -/
  | setLength (r : OperandLength) (v : Nat)
  /-- `SET REG = v` for a field of `CA` or `CB`. -/
  | setField (f : OperandField) (v : F64)
  /-- A write of element `j` of an operand plane (R40, R55). -/
  | writePlane (p : OperandPlane) (j : Nat) (v : F64)
  /-- A write of element `j` of an operand byte buffer (R40, R55). -/
  | writeByte (b : OperandBuffer) (j : Nat) (v : Byte)
  /-- `SET BUF = [v0, v1, ...]` for a plane; it does not touch the length register. -/
  | setPlane (p : OperandPlane) (vs : List F64)
  /-- `SET BUF = [v0, v1, ...]` for a byte buffer; it does not touch the length register. -/
  | setBuffer (b : OperandBuffer) (vs : List Byte)
  /-- `COPY DST = SRC` for planes: every element below `SRC`'s length register is read and written to `DST`. -/
  | copyPlane (dst : OperandPlane) (src : PlaneName)
  /-- `COPY DST = SRC` for byte buffers. -/
  | copyBuffer (dst : OperandBuffer) (src : BufferName)
  /-- `<MNEMONIC>` or `RAW 0xWWWWWWWW`: the host writes a word to `CMD`. -/
  | writeCmd (w : Word)
  /-- A read of a register (R40). -/
  | readRegister (r : ReadableRegister)
  /-- A read of element `j` of a plane (R40, R55). -/
  | readPlane (p : PlaneName) (j : Nat)
  /-- A read of element `j` of a byte buffer (R40, R55). -/
  | readByte (b : BufferName) (j : Nat)
  /-- Reset, an event from outside the block and a move of the host (R250, R251). -/
  | reset
deriving DecidableEq, Repr

/-- What a host read returns: 32 bits of `STATUS`, a length, one whole `f64`, or one byte (R55). -/
inductive HostDatum where
  | word (w : Word)
  | length (n : Nat)
  | real (v : F64)
  | byte (b : Byte)
deriving DecidableEq, Repr

end Sys2Proof.Machine
end

