-- ==== Sys2Proof/Machine/State.lean ====
section
/-! DEFINITION. The state of the block as plain data, the reasons a step can stop, and the state after reset. -/

namespace Sys2Proof.Machine

/-- The cells of a plane or byte buffer: (element index, value) pairs, indices strictly rising. An index that is not
listed holds no value (R38, R39), so no entry can equal what an unlisted index reads as. -/
abbrev Cells (w : Nat) := List (Nat × BitVec w)

/-- A plane: a sequence of `f64` elements by index (R28, R29). -/
abbrev Plane := Cells 64

/-- A byte buffer: a sequence of bytes by index (R30). -/
abbrev Buffer := Cells 8

/-- The state of the block. The last five fields are the model's own, not the spec's. The working state of a
transform or a product (R23, R33, R34, R36) is created by a command and dead when it ends, and a step is one whole
command (D1), so it is local to the command's meaning and no field here (log entry 15). -/
structure State where
  /-- `STATUS` (R26): the code in bits 2:0, zero above. -/
  status : Word
  /-- `NA_RE` (R27). -/
  naRe : Nat
  /-- `NA_IM` (R27). -/
  naIm : Nat
  /-- `NB_RE` (R27). -/
  nbRe : Nat
  /-- `NY` (R27). -/
  ny : Nat
  /-- `NBA` (R27). -/
  nba : Nat
  /-- `NBB` (R27). -/
  nbb : Nat
  /-- `NBY` (R27). -/
  nby : Nat
  /-- `CA` (R21). -/
  ca : Cplx F64
  /-- `CB` (R21). -/
  cb : Cplx F64
  /-- `CR` (R21). -/
  cr : Cplx F64
  /-- `XA_RE` (R28). -/
  xaRe : Plane
  /-- `XA_IM` (R28). -/
  xaIm : Plane
  /-- `XB_RE` (R28). -/
  xbRe : Plane
  /-- `Y_RE` (R29); an unlisted element is unspecified (log entry 9). -/
  yRe : Plane
  /-- `Y_IM` (R29); an unlisted element is unspecified (log entry 9). -/
  yIm : Plane
  /-- `BA` (R30). -/
  ba : Buffer
  /-- `BB` (R30). -/
  bb : Buffer
  /-- `BY` (R30); an unlisted element is unspecified (log entry 9). -/
  byBuf : Buffer
  /-- A word the host has written to `CMD` and the block has not yet executed (R25); `none` when nothing is pending. -/
  cmd : Option Word
  /-- The model's own: the moves the host has still to make, first one first (R76, R262; log entry 8). -/
  script : List HostAction
  /-- The model's own: what the host's last read returned (log entry 10). -/
  readData : Option HostDatum
  /-- The model's own: how many NaN results have drawn their bits (log entry 3). -/
  draws : Nat
  /-- The model's own: the epoch of the result planes, advanced by each write of `NY` and by reset, which are what makes
  elements unspecified anew (R29, R166; log entries 9 and 11). -/
  yEpoch : Nat
  /-- The model's own: the epoch of `BY`, advanced by each write of `NBY` and by reset (R30; log entries 9 and 11). -/
  byEpoch : Nat
deriving DecidableEq, Repr

/-- Why a step stops with a fault: there is no such reason, so nothing raises one. A command that fails writes its code
to `STATUS` and the block goes on (R228, R230), no behaviour of the block is stuck (R261), and what the spec puts outside
the model is refused. -/
inductive Fault where
deriving DecidableEq, Repr

/-- Why a step is given no meaning. -/
inductive Refusal where
  /-- Raised by exec for a command that has no meaning in the model. Safe. -/
  | notModelled (mnemonic : String)
  /-- Raised by a command or a host read that reads an element of an operand plane which nothing has written since
  reset: it holds no value, and R38 gives the case no meaning. Safe. -/
  | unwrittenElement (p : PlaneName)
  /-- The same for a byte of an operand byte buffer (R38). Safe. -/
  | unwrittenByte (b : BufferName)
  /-- Raised by a host write of a length above `N_MAX`, which R27 puts outside the model. Safe. -/
  | lengthAboveCapacity (r : OperandLength) (v : Nat)
  /-- Raised by a host access to an element index `>= N_MAX` of a plane, which R54 puts outside the model. Safe. -/
  | noSuchElement (p : PlaneName) (j : Nat)
  /-- Raised by a host access to an element index `>= N_MAX` of a byte buffer, which R54 puts outside the model. Safe. -/
  | noSuchByte (b : BufferName) (j : Nat)
deriving DecidableEq, Repr

/-- `+0.0` in both fields. -/
def zeroComplex : Cplx F64 := ⟨0#64, 0#64⟩

/-- The state right after reset (R39, R250): `STATUS` and every length 0, no element of any plane or buffer with a
value, nothing pending. `CA`, `CB` and `CR` hold `(+0.0, +0.0)`, a value the spec does not state: DESIGN CHOICE, log
entry 1. -/
def State.reset : State where
  status := 0#32
  naRe := 0
  naIm := 0
  nbRe := 0
  ny := 0
  nba := 0
  nbb := 0
  nby := 0
  ca := zeroComplex
  cb := zeroComplex
  cr := zeroComplex
  xaRe := []
  xaIm := []
  xbRe := []
  yRe := []
  yIm := []
  ba := []
  bb := []
  byBuf := []
  cmd := none
  script := []
  readData := none
  draws := 0
  yEpoch := 0
  byEpoch := 0

end Sys2Proof.Machine
end

