-- ==== Sys2Proof/Machine/Flags.lean ====
section
/-! DEFINITION. The block has no condition codes, no arithmetic flags and no sticky bits (R24); the only status a
command leaves is the code in `STATUS` (R26, R80). -/

namespace Sys2Proof.Machine

/-- The kinds a command can end with (R26, R220). There is no `Overflow` (R225). -/
inductive StatusCode where
  | ok | invalidLength | precisionExceeded | invalidInput | illegalCommand
deriving DecidableEq, Repr

/-- The number of a kind, in bits 2:0 of `STATUS` (R80). -/
def StatusCode.number : StatusCode → BitVec 3
  | .ok => 0#3
  | .invalidLength => 1#3
  | .precisionExceeded => 2#3
  | .invalidInput => 3#3
  | .illegalCommand => 4#3

/-- The word `STATUS` holds for a kind: the code in bits 2:0, bits 31:3 zero (R26). -/
def StatusCode.word (c : StatusCode) : Word := 0#29 ++ c.number

/-- The `code` field of `STATUS`, bits 2:0 (R26). -/
def statusCodeField (w : Word) : BitVec 3 := w.extractLsb' 0 3

end Sys2Proof.Machine
end

