-- ==== Sys2Proof/Config.lean ====
section
/-! DEFINITION. What is fixed for the life of a block (R7, R37), and the free values the spec leaves open. The
constants below have no body: nothing in Lean can evaluate one or prove a value of it. Machine/Params.lean builds the
block's parameters from them. -/

namespace Sys2Proof

/-- The functions `COS` and `SIN` from `f64` to `f64`, total and functions of their operand alone (R108). -/
structure Trig where
  cos : F64 → F64
  sin : F64 → F64

/-- The parameters of R7 that a command or a host access reads, with exactly the freedom the spec leaves them, so that
every value of this type is a block the spec admits. Machine/Params.lean gives `N_MAX`, `COS`, `SIN` and `NAN_DRAW` from
it. An operation takes it as an argument, so that it can be stated, and tested, for every block. -/
structure Params where
  /-- `N_MAX` is a power of two (R7, D18); this is its exponent. -/
  nMaxLog2 : Nat
  /-- `MAX_TOTAL_BYTES`: the largest `NBA + NBB` that `BMUL` accepts. -/
  maxTotalBytes : Nat
  /-- `COEF_SIGNED`: whether a byte becomes a coefficient in `[-128, 127]` or in `[0, 255]`. -/
  coefSigned : Bool
  /-- `COS` away from its fixed points (R108, U2). -/
  cosElsewhere : F64 → F64
  /-- `SIN` away from its fixed points (R108, U2). -/
  sinElsewhere : F64 → F64
  /-- The sign of the k-th NaN result that is stored (R106, U1). -/
  nanSign : Nat → BitVec 1
  /-- The fraction bits of the k-th NaN result that is stored (R106, U1). -/
  nanFraction : Nat → BitVec 52
  /-- What an unspecified element of `Y_RE` reads as, by the epoch of the result planes and the index (U8). -/
  yReUnspecified : Nat → Nat → F64
  /-- What an unspecified element of `Y_IM` reads as, by the epoch of the result planes and the index (U6, U8). -/
  yImUnspecified : Nat → Nat → F64
  /-- What an unspecified byte of `BY` reads as, by the epoch of the buffer and the index (U8). -/
  byUnspecified : Nat → Nat → Byte

/-- The exponent of `N_MAX` (D18; log entry 5). -/
opaque Config.nMaxLog2 : Nat

/-- `MAX_TOTAL_BYTES` (D14; log entry 6). -/
opaque Config.maxTotalBytes : Nat

/-- `COS` away from its fixed points (R108, U2; log entry 4). -/
opaque Config.cosElsewhere : F64 → F64

/-- `SIN` away from its fixed points (R108, U2; log entry 4). -/
opaque Config.sinElsewhere : F64 → F64

/-- The sign of the k-th NaN result (R106, U1; log entry 3). -/
opaque Config.nanSign : Nat → BitVec 1

/-- The fraction bits of the k-th NaN result, wherever they are not zero (R106, U1; log entry 3). -/
opaque Config.nanFraction : Nat → BitVec 52

/-- The value of an unspecified element of `Y_RE` (R29; log entry 9). -/
opaque Config.yReUnspecified : Nat → Nat → F64

/-- The value of an unspecified element of `Y_IM` (R29, R166; log entry 9). -/
opaque Config.yImUnspecified : Nat → Nat → F64

/-- The value of an unspecified byte of `BY` (R30; log entry 9). -/
opaque Config.byUnspecified : Nat → Nat → Byte

end Sys2Proof
end

