-- ==== Sys2Proof/Machine/Float.lean ====
section
/-! DEFINITION. Binary64 arithmetic (R105 to R107): every finite value is a whole number of units of `2^-1074`, an
operation is computed exactly on those integers and rounded once, to nearest, ties to even. -/

namespace Sys2Proof.Machine

/-- What an `f64` denotes: a NaN, a signed infinity, or a signed magnitude in units of `2^-1074`, the smallest
positive subnormal (R77). -/
inductive Unpacked where
  | nan
  | inf (neg : Bool)
  | finite (neg : Bool) (units : Nat)
deriving DecidableEq, Repr

/-- The sign bit, bit 63 (R77). -/
def signBit (b : F64) : Bool := b.getLsbD 63

/-- The biased exponent, bits 62:52 (R77). -/
def exponentField (b : F64) : Nat := (b.extractLsb' 52 11).toNat

/-- The fraction, bits 51:0 (R77). -/
def fractionField (b : F64) : Nat := (b.extractLsb' 0 52).toNat

/-- The magnitude in units of `2^-1074` of an encoding that is not infinite or NaN: exponent 0 is zero or subnormal,
otherwise the leading 1 is implied (R77). -/
def finiteUnits (e f : Nat) : Nat := if e = 0 then f else (2 ^ 52 + f) * 2 ^ (e - 1)

/-- What the 64 bits denote (R77). -/
def unpackBits (b : F64) : Unpacked :=
  if exponentField b = 2047 then
    if fractionField b = 0 then .inf (signBit b) else .nan
  else .finite (signBit b) (finiteUnits (exponentField b) (fractionField b))

/-- What a value inside a command denotes. -/
def unpack : FVal → Unpacked
  | .bits b => unpackBits b
  | .nanResult => .nan

/-- Whether the bits are a NaN's (R77). -/
def isNaNBits (b : F64) : Bool := unpackBits b == .nan

/-- A sign bit over a magnitude below `2^63`. -/
def withSign (neg : Bool) (magnitude : Nat) : F64 := BitVec.ofBool neg ++ BitVec.ofNat 63 magnitude

/-- The magnitude bits of infinity: exponent 2047, fraction 0 (R77). -/
def infMagnitude : Nat := 2047 * 2 ^ 52

/-- An infinity (R77). -/
def infBits (neg : Bool) : F64 := withSign neg infMagnitude

/-- The nearest integer to `num / den`, ties to the even one. -/
def divNearestEven (num den : Nat) : Nat :=
  let q := num / den
  let r := num % den
  if 2 * r < den then q else if den < 2 * r then q + 1 else q + q % 2

/-- The binary exponent of the last place of an `f64` of magnitude `units`, counted from the unit `2^-1074`. -/
def lastPlace (units : Nat) : Nat := units.log2 - 52

/-- The magnitude bits of the `f64` nearest to `num / den` units, ties to even; too large a result is infinity (R105).
With `t` the exponent of the last place and `m` the rounded significand, `t * 2^52 + m` is the encoding for
subnormals, for normals, and for an `m` that rounding carried up to the next power of two. -/
def roundMagnitude (num den : Nat) : Nat :=
  let t := lastPlace (num / den)
  min (t * 2 ^ 52 + divNearestEven num (den * 2 ^ t)) infMagnitude

/-- The `f64` nearest to the signed quotient `num / den` units (R105). A zero keeps the sign given. -/
def roundToF64 (neg : Bool) (num den : Nat) : FVal := .bits (withSign neg (roundMagnitude num den))

/-- A signed integer from a sign and a magnitude. -/
def signedUnits (neg : Bool) (units : Nat) : Int := if neg then -(units : Int) else units

/-- Units per 1.0. -/
def unitsPerOne : Nat := 2 ^ 1074

/-- `fneg` flips the sign bit (R145). -/
def fneg : FVal → FVal
  | .bits b => .bits (b ^^^ (1#64 <<< 63))
  | .nanResult => .nanResult

/-- The sum of two finite magnitudes. An exact zero is `+0.0`, except that two zeros of one sign keep it (R105). -/
def addFinite (na : Bool) (a : Nat) (nb : Bool) (b : Nat) : FVal :=
  let sum := signedUnits na a + signedUnits nb b
  roundToF64 (if sum = 0 then na && nb else decide (sum < 0)) sum.natAbs 1

/-- `fadd`: the exact sum, rounded once (R105); infinities and NaN by R106. -/
def fadd (x y : FVal) : FVal :=
  match unpack x, unpack y with
  | .nan, _ => .nanResult
  | _, .nan => .nanResult
  | .inf a, .inf b => if a = b then .bits (infBits a) else .nanResult
  | .inf a, .finite _ _ => .bits (infBits a)
  | .finite _ _, .inf b => .bits (infBits b)
  | .finite na a, .finite nb b => addFinite na a nb b

/-- `fsub`: the exact difference, rounded once (R105). `x - x` of finite values is `+0.0`. -/
def fsub (x y : FVal) : FVal := fadd x (fneg y)

/-- `fmul`: the exact product, rounded once; the sign of a zero product is the exclusive-or of the operand signs
(R105); `0 * inf` is a NaN (R106). -/
def fmul (x y : FVal) : FVal :=
  match unpack x, unpack y with
  | .nan, _ => .nanResult
  | _, .nan => .nanResult
  | .inf a, .inf b => .bits (infBits (a ^^ b))
  | .inf a, .finite nb b => if b = 0 then .nanResult else .bits (infBits (a ^^ nb))
  | .finite na a, .inf b => if a = 0 then .nanResult else .bits (infBits (na ^^ b))
  | .finite na a, .finite nb b => roundToF64 (na ^^ nb) (a * b) unitsPerOne

/-- `fdiv`: the exact quotient, rounded once (R105). The block divides only by powers of two that are 1 or more; the
other quotients follow the standard's defaults (log entry 12). -/
def fdiv (x y : FVal) : FVal :=
  match unpack x, unpack y with
  | .nan, _ => .nanResult
  | _, .nan => .nanResult
  | .inf _, .inf _ => .nanResult
  | .inf a, .finite nb _ => .bits (infBits (a ^^ nb))
  | .finite na _, .inf b => .bits (withSign (na ^^ b) 0)
  | .finite na a, .finite nb b =>
    if b = 0 then (if a = 0 then .nanResult else .bits (infBits (na ^^ nb)))
    else roundToF64 (na ^^ nb) (a * unitsPerOne) b

/-- `i2f`: an integer as an `f64` (R11); zero is `+0.0`. The block uses it only where the result is exact; elsewhere
it is the nearest `f64` (log entry 13). -/
def i2f (m : Int) : FVal := roundToF64 (decide (m < 0)) (m.natAbs * unitsPerOne) 1

/-- `floor(x + 1/2)` of a finite value, exact (R107). -/
def floorHalfUp (neg : Bool) (units : Nat) : Int := (2 * signedUnits neg units + unitsPerOne) / (2 * unitsPerOne)

/-- `RoundInt`: the rounded value as a mathematical integer, defined for finite values only (R107). -/
def roundInt (x : FVal) : Option Int :=
  match unpack x with
  | .nan => none
  | .inf _ => none
  | .finite neg units => some (floorHalfUp neg units)

/-- `Round` (R107): `floor(x + 1/2)` as an `f64`, a zero result `+0.0`; infinities are returned, a NaN gives a NaN. -/
def fround (x : FVal) : FVal :=
  match unpack x with
  | .nan => .nanResult
  | .inf neg => .bits (infBits neg)
  | .finite neg units => i2f (floorHalfUp neg units)

/-- `PI64`, the `f64` nearest π (R108). -/
def pi64 : FVal := .bits 0x400921FB54442D18#64

/-- `+0.0` (R11). -/
def plusZero : FVal := .bits 0#64

/-- A configured function of one `f64`, `COS` or `SIN`, inside a command. A NaN whose bits are not drawn gives a NaN;
no angle is one (log entry 14). -/
def applyTrig (f : F64 → F64) : FVal → FVal
  | .bits b => .bits (f b)
  | .nanResult => .nanResult

end Sys2Proof.Machine
end

