-- ==== Sys2Proof/Machine/Params.lean ====
section
/-! DEFINITION. The block's parameters (R7): the values the spec decides, and the open ones built so that they have the
properties the spec states of them and no other. -/

namespace Sys2Proof.Machine

/-- `COS`: 1.0 at both zeros, anything elsewhere (R108). -/
def cosFrom (elsewhere : F64 → F64) (x : F64) : F64 :=
  if x = 0#64 ∨ x = 0x8000000000000000#64 then 0x3FF0000000000000#64 else elsewhere x

/-- `SIN`: each zero at itself, anything elsewhere (R108). -/
def sinFrom (elsewhere : F64 → F64) (x : F64) : F64 :=
  if x = 0#64 ∨ x = 0x8000000000000000#64 then x else elsewhere x

/-- A NaN with the given sign and fraction; the all-zero fraction, which is no NaN's, stands for fraction 1. Every NaN
has this form (R77). -/
def nanBits (sign : BitVec 1) (fraction : BitVec 52) : F64 :=
  sign ++ 2047#11 ++ (if fraction = 0#52 then 1#52 else fraction)

end Sys2Proof.Machine

namespace Sys2Proof

open Machine

/-- `N_MAX`: the largest transform length and the capacity in elements of every plane and byte buffer (R7). -/
def Params.nMax (p : Params) : Nat := 2 ^ p.nMaxLog2

/-- `COS` and `SIN` (R108). -/
def Params.trig (p : Params) : Trig := ⟨cosFrom p.cosElsewhere, sinFrom p.sinElsewhere⟩

/-- `NAN_DRAW`: the bits of the k-th NaN result that is stored (R106). -/
def Params.nanDraw (p : Params) (k : Nat) : F64 := nanBits (p.nanSign k) (p.nanFraction k)

end Sys2Proof

namespace Sys2Proof.Machine

/-- The parameters of this block: `COEF_SIGNED` is true, the spec's decision (R7, R184, D11), and every other one is
open. -/
def block : Params where
  nMaxLog2 := Config.nMaxLog2
  maxTotalBytes := Config.maxTotalBytes
  coefSigned := true
  cosElsewhere := Config.cosElsewhere
  sinElsewhere := Config.sinElsewhere
  nanSign := Config.nanSign
  nanFraction := Config.nanFraction
  yReUnspecified := Config.yReUnspecified
  yImUnspecified := Config.yImUnspecified
  byUnspecified := Config.byUnspecified

end Sys2Proof.Machine
end

