-- ==== Sys2Proof/Machine/Ops.lean ====
section
/-! DEFINITION. The named operations every meaning uses: reading and writing the cells of a plane or buffer, reaching
a container by its name, drawing the bits of NaN results, and the end of a command, successful or failed. -/

namespace Sys2Proof.Machine

/-! ### Cells -/

/-- The value at an index, if it holds one. -/
def Cells.read {w : Nat} : Cells w → Nat → Option (BitVec w)
  | [], _ => none
  | (a, v) :: rest, j => if a = j then some v else Cells.read rest j

/-- `BUF[j] <- v` (R12): the entry of index `j` is replaced, or put in at its place in the order. -/
def Cells.write {w : Nat} : Cells w → Nat → BitVec w → Cells w
  | [], j, v => [(j, v)]
  | (a, u) :: rest, j, v =>
    if j < a then (j, v) :: (a, u) :: rest
    else if j = a then (j, v) :: rest
    else (a, u) :: Cells.write rest j v

/-- `BUF[start ..] <- vs` (R12): consecutive elements, in order. -/
def Cells.writeFrom {w : Nat} (c : Cells w) (start : Nat) : List (BitVec w) → Cells w
  | [] => c
  | v :: vs => Cells.writeFrom (Cells.write c start v) (start + 1) vs

/-- The `count` elements from `start` on, if every one of them holds a value. -/
def Cells.readFrom {w : Nat} (c : Cells w) (start : Nat) : Nat → Option (List (BitVec w))
  | 0 => some []
  | count + 1 =>
    match Cells.read c start, Cells.readFrom c (start + 1) count with
    | some v, some vs => some (v :: vs)
    | _, _ => none

/-- Every listed index lies above `low`, and each lies above the one before it. -/
def Cells.risingFrom {w : Nat} (low : Nat) : Cells w → Bool
  | [] => true
  | (a, _) :: rest => decide (low ≤ a) && Cells.risingFrom (a + 1) rest

/-- The canonical form: indices strictly rising. An unlisted index reads as no value, so no entry can equal it. -/
def Cells.wf {w : Nat} (c : Cells w) : Bool := Cells.risingFrom 0 c

/-- The canonical form of every plane and buffer of the block. -/
def Memory.wf (s : State) : Bool :=
  Cells.wf s.xaRe && Cells.wf s.xaIm && Cells.wf s.xbRe && Cells.wf s.yRe && Cells.wf s.yIm &&
    Cells.wf s.ba && Cells.wf s.bb && Cells.wf s.byBuf

/-! ### Containers by name (R50) -/

/-- A plane by name. -/
def State.plane (s : State) : PlaneName → Plane
  | .xaRe => s.xaRe
  | .xaIm => s.xaIm
  | .xbRe => s.xbRe
  | .yRe => s.yRe
  | .yIm => s.yIm

/-- The length register of a plane (R27); `NY` serves both result planes. -/
def State.planeLength (s : State) : PlaneName → Nat
  | .xaRe => s.naRe
  | .xaIm => s.naIm
  | .xbRe => s.nbRe
  | .yRe => s.ny
  | .yIm => s.ny

/-- A byte buffer by name. -/
def State.buffer (s : State) : BufferName → Buffer
  | .ba => s.ba
  | .bb => s.bb
  | .byBuf => s.byBuf

/-- The length register of a byte buffer (R27). -/
def State.bufferLength (s : State) : BufferName → Nat
  | .ba => s.nba
  | .bb => s.nbb
  | .byBuf => s.nby

/-- What the elements of a plane read as where the spec leaves a RESULT plane's element unspecified, by index: a free
value that stays as it is until the result planes are written or reset again (R29, R55, R166, U6, U8). An operand plane
has none. -/
def unspecifiedElement (p : Params) (s : State) : PlaneName → Option (Nat → F64)
  | .xaRe => none
  | .xaIm => none
  | .xbRe => none
  | .yRe => some (p.yReUnspecified s.yEpoch)
  | .yIm => some (p.yImUnspecified s.yEpoch)

/-- The same for the byte buffers: only `BY` has unspecified bytes (R30, U8). -/
def unspecifiedByte (p : Params) (s : State) : BufferName → Option (Nat → Byte)
  | .ba => none
  | .bb => none
  | .byBuf => some (p.byUnspecified s.byEpoch)

/-- The plane an operand plane is. -/
def OperandPlane.name : OperandPlane → PlaneName
  | .xaRe => .xaRe
  | .xaIm => .xaIm
  | .xbRe => .xbRe

/-- The buffer an operand buffer is. -/
def OperandBuffer.name : OperandBuffer → BufferName
  | .ba => .ba
  | .bb => .bb

/-- Replace the cells of an operand plane. -/
def State.setOperandPlane (s : State) (p : OperandPlane) (c : Plane) : State :=
  match p with
  | .xaRe => { s with xaRe := c }
  | .xaIm => { s with xaIm := c }
  | .xbRe => { s with xbRe := c }

/-- Replace the cells of an operand buffer. -/
def State.setOperandBuffer (s : State) (b : OperandBuffer) (c : Buffer) : State :=
  match b with
  | .ba => { s with ba := c }
  | .bb => { s with bb := c }

/-- Write a length register the host may write (R27). -/
def State.setLength (s : State) (r : OperandLength) (n : Nat) : State :=
  match r with
  | .naRe => { s with naRe := n }
  | .naIm => { s with naIm := n }
  | .nbRe => { s with nbRe := n }
  | .nba => { s with nba := n }
  | .nbb => { s with nbb := n }

/-- Write a scalar field the host may write (R21). -/
def State.setField (s : State) (f : OperandField) (v : F64) : State :=
  match f with
  | .caRe => { s with ca := { s.ca with re := v } }
  | .caIm => { s with ca := { s.ca with im := v } }
  | .cbRe => { s with cb := { s.cb with re := v } }
  | .cbIm => { s with cb := { s.cb with im := v } }

/-- Read a register the host may read (R21, R26, R27). -/
def State.register (s : State) : ReadableRegister → HostDatum
  | .status => .word s.status
  | .naRe => .length s.naRe
  | .naIm => .length s.naIm
  | .nbRe => .length s.nbRe
  | .ny => .length s.ny
  | .nba => .length s.nba
  | .nbb => .length s.nbb
  | .nby => .length s.nby
  | .caRe => .real s.ca.re
  | .caIm => .real s.ca.im
  | .cbRe => .real s.cb.re
  | .cbIm => .real s.cb.im
  | .crRe => .real s.cr.re
  | .crIm => .real s.cr.im

/-! ### Drawing NaN bits (R106) -/

/-- Store one value: known bits as they are, a NaN result as the next draw. Answers the bits and the draw counter
after it. -/
def drawNaN (p : Params) (k : Nat) : FVal → F64 × Nat
  | .bits b => (b, k)
  | .nanResult => (p.nanDraw k, k + 1)

/-- Store a sequence of values, element by element. -/
def drawNaNs (p : Params) : Nat → List FVal → List F64 × Nat
  | k, [] => ([], k)
  | k, v :: vs =>
    let first := drawNaN p k v
    let rest := drawNaNs p first.2 vs
    (first.1 :: rest.1, rest.2)

/-! ### The end of a command -/

/-- `STATUS <- code`, the last action of every command (R261). -/
def setStatus (c : StatusCode) (s : State) : State := { s with status := c.word }

/-- `raise Kind` (R228): `STATUS` takes the code, the command ends, and nothing else changes. No state is saved and
there is no handler; the block waits for the next write of `CMD`. -/
def raise (c : StatusCode) (s : State) : Host.Outcome State Fault Refusal := .next (setStatus c s)

/-- The successful end of a command (R261). This is the return from a call of the document: nothing is restored (R230). -/
def succeed (s : State) : Host.Outcome State Fault Refusal := .next (setStatus .ok s)

/-- `CR <- z` (R21): both fields, together. -/
def writeScalarResult (p : Params) (z : Cplx FVal) (s : State) : State :=
  let re := drawNaN p s.draws z.re
  let im := drawNaN p re.2 z.im
  { s with cr := ⟨re.1, im.1⟩, draws := im.2 }

/-- `Y_RE[t] <- W[t].re ; Y_IM[t] <- W[t].im ; NY <- n` (R120, R140). -/
def writeTransformResult (p : Params) (w : List (Cplx FVal)) (s : State) : State :=
  let re := drawNaNs p s.draws (w.map Cplx.re)
  let im := drawNaNs p re.2 (w.map Cplx.im)
  { s with
    yRe := Cells.writeFrom s.yRe 0 re.1
    yIm := Cells.writeFrom s.yIm 0 im.1
    ny := w.length
    draws := im.2
    yEpoch := s.yEpoch + 1 }

/-- `Y_RE[0..n-1] <- w ; NY <- n`, and every element of `Y_IM` is unspecified (R160, R166). -/
def writeRealResult (p : Params) (w : List FVal) (s : State) : State :=
  let re := drawNaNs p s.draws w
  { s with
    yRe := Cells.writeFrom s.yRe 0 re.1
    yIm := []
    ny := w.length
    draws := re.2
    yEpoch := s.yEpoch + 1 }

/-- `BY[0..L-1] <- out ; NBY <- L` (R190). -/
def writeByteResult (out : List Byte) (s : State) : State :=
  { s with byBuf := Cells.writeFrom s.byBuf 0 out, nby := out.length, byEpoch := s.byEpoch + 1 }

end Sys2Proof.Machine
end

