-- ==== Sys2Proof/Machine/Operands.lean ====
section
/-! DEFINITION. The operand forms: every operand is implicit (R71), a sequence named by a container and its length
register (R28, R30), and the length functions of R10. -/

namespace Sys2Proof.Machine

/-- `IsPow2(m)`: `m = 2^k` for some `k >= 0`; false of 0 (R10). -/
def isPow2 (m : Nat) : Bool := m != 0 && 2 ^ m.log2 == m

/-- `NextPow2(m)`, for `m >= 1`: the least power of two `>= m`, on integers (R10, R161). -/
def nextPow2 (m : Nat) : Nat := if m ≤ 1 then 1 else 2 ^ ((m - 1).log2 + 1)

/-- Read the first `n` elements of an operand plane and go on with them; an element that holds no value is refused
(R38). -/
def withPlane (s : State) (p : OperandPlane) (n : Nat) (go : List F64 → Host.Outcome State Fault Refusal) :
    Host.Outcome State Fault Refusal :=
  match Cells.readFrom (s.plane p.name) 0 n with
  | some vs => go vs
  | none => .refused (.unwrittenElement p.name)

/-- Read the first `n` bytes of an operand buffer and go on with them; a byte that holds no value is refused (R38). -/
def withBytes (s : State) (b : OperandBuffer) (n : Nat) (go : List Byte → Host.Outcome State Fault Refusal) :
    Host.Outcome State Fault Refusal :=
  match Cells.readFrom (s.buffer b.name) 0 n with
  | some vs => go vs
  | none => .refused (.unwrittenByte b.name)

/-- Read byte 0 of an operand buffer and go on with it (the sign test of R182). -/
def withFirstByte (s : State) (b : OperandBuffer) (go : Byte → Host.Outcome State Fault Refusal) :
    Host.Outcome State Fault Refusal :=
  match Cells.read (s.buffer b.name) 0 with
  | some v => go v
  | none => .refused (.unwrittenByte b.name)

/-- A scalar register's value as an operand of the arithmetic (R21). -/
def liftComplex (z : Cplx F64) : Cplx FVal := ⟨.bits z.re, .bits z.im⟩

end Sys2Proof.Machine
end

