-- ==== Sys2Proof/Machine/ComplexMultiplier.lean ====
section
/-! DEFINITION. complex_multiplier: the pure functions of R104 and the commands `CADD`, `CSUB`, `CMUL`, `CRND`. -/

namespace Sys2Proof.Machine

/-- `Add(a, b)` (R104). -/
def cplxAdd (a b : Cplx FVal) : Cplx FVal := ⟨fadd a.re b.re, fadd a.im b.im⟩

/-- `Sub(a, b)` (R104). -/
def cplxSub (a b : Cplx FVal) : Cplx FVal := ⟨fsub a.re b.re, fsub a.im b.im⟩

/-- `Mult(a, b)`, the direct four-multiply form: six separately rounded operations (R104, R102). -/
def cplxMul (a b : Cplx FVal) : Cplx FVal :=
  ⟨fsub (fmul a.re b.re) (fmul a.im b.im), fadd (fmul a.re b.im) (fmul a.im b.re)⟩

/-- `RoundC(a)` (R104). -/
def cplxRound (a : Cplx FVal) : Cplx FVal := ⟨fround a.re, fround a.im⟩

/-- `Bfly(a, b, w)`: the product is taken first, the twiddle its left operand, and used twice (R104). -/
def butterfly (a b w : Cplx FVal) : Cplx FVal × Cplx FVal :=
  let p := cplxMul w b
  (cplxAdd a p, cplxSub a p)

/-- A scalar command's end: `CR` takes the result and `STATUS` takes `OK`, whatever the operands (R110). -/
def finishScalar (p : Params) (z : Cplx FVal) (s : State) : Host.Outcome State Fault Refusal :=
  succeed (writeScalarResult p z s)

/-- `CADD` (R100). -/
def execCadd (s : State) : Host.Outcome State Fault Refusal :=
  finishScalar block (cplxAdd (liftComplex s.ca) (liftComplex s.cb)) s

/-- `CSUB` (R101): `CA` minus `CB`. -/
def execCsub (s : State) : Host.Outcome State Fault Refusal :=
  finishScalar block (cplxSub (liftComplex s.ca) (liftComplex s.cb)) s

/-- `CMUL` (R102). -/
def execCmul (s : State) : Host.Outcome State Fault Refusal :=
  finishScalar block (cplxMul (liftComplex s.ca) (liftComplex s.cb)) s

/-- `CRND` (R103); `CB` is ignored. -/
def execCrnd (s : State) : Host.Outcome State Fault Refusal :=
  finishScalar block (cplxRound (liftComplex s.ca)) s

end Sys2Proof.Machine
end

