-- ==== Sys2Proof/Machine/Transform.lean ====
section
/-! DEFINITION. What the two transform engines share: the double buffer (R33, R127), one pass over the butterflies of a
stage, and the run of the stages. The element type and the butterfly are arguments, so that the same schedule can be
stated over exact arithmetic (R129, R147). -/

namespace Sys2Proof.Machine

/-- The two buffers of a running transform and the role index `cur`; `true` stands for 1 (R33). -/
structure DoubleBuffer (α : Type) where
  p0 : List α
  p1 : List α
  cur : Bool
deriving DecidableEq, Repr

/-- `P[0] <- Z ; cur <- 0`. -/
def DoubleBuffer.start {α : Type} (z : List α) : DoubleBuffer α := ⟨z, [], false⟩

/-- `prev`, the buffer a stage reads: `P[cur]` (R33). -/
def DoubleBuffer.prev {α : Type} (b : DoubleBuffer α) : List α := if b.cur then b.p1 else b.p0

/-- One stage: `next`, the buffer `P[1 - cur]`, is written from the whole of `prev`, and the roles swap (R127, R254). -/
def DoubleBuffer.pass {α : Type} (b : DoubleBuffer α) (stage : List α → List α) : DoubleBuffer α :=
  if b.cur then ⟨stage b.p1, b.p1, false⟩ else ⟨b.p0, stage b.p0, true⟩

/-- What one butterfly of a stage reads: its twiddle's index and its two elements of `prev` (R125, R144). -/
structure ButterflyIndex where
  index : Nat
  from0 : Nat
  from1 : Nat
deriving DecidableEq, Repr

/-- One pass over the `h` butterflies of a stage (R125, R126): butterfly `k` writes `next[k]` and `next[k + h]`. No
access falls outside a buffer (R56), so the default `z` is never read. -/
def stagePass {α : Type} (bfly : α → α → α → α × α) (z : α) (idx : Nat → ButterflyIndex) (h : Nat)
    (tw prev : List α) : List α :=
  let pairs := (List.range h).map fun k =>
    let i := idx k
    bfly (prev.getD i.from0 z) (prev.getD i.from1 z) (tw.getD i.index z)
  pairs.map Prod.fst ++ pairs.map Prod.snd

/-- The stages `m - 1` down to 0, in that order (R123); none if `m` is 0. -/
def runStages {α : Type} (stage : Nat → List α → List α) : Nat → DoubleBuffer α → DoubleBuffer α
  | 0, b => b
  | s + 1, b => runStages stage s (b.pass (stage s))

/-- The complex zero, the default of a buffer access that never happens. -/
def zeroElement : Cplx FVal := ⟨plusZero, plusZero⟩

/-- The table entries `(COS(ang), SIN(ang))` for `ang = fmul(theta, i2f(j))`, `j = 0 ... cnt - 1` (R124, R143). -/
def twiddleTable (trig : Trig) (theta : FVal) (cnt : Nat) : List (Cplx FVal) :=
  (List.range cnt).map fun j =>
    let ang := fmul theta (i2f j)
    ⟨applyTrig trig.cos ang, applyTrig trig.sin ang⟩

/-- Store a transform's result, both planes (R120, R140). -/
def finishTransform (p : Params) (w : List (Cplx FVal)) (s : State) : Host.Outcome State Fault Refusal :=
  succeed (writeTransformResult p w s)

end Sys2Proof.Machine
end

