-- ==== Sys2Proof/Machine/Radix2Fft.lean ====
section
/-! DEFINITION. radix2_fft_engine: `FwdTransform` and the command `FFT`. -/

namespace Sys2Proof.Machine

/-- The indices of butterfly `k` of forward stage `s` (R125). -/
def fwdIndex (s k : Nat) : ButterflyIndex :=
  let index := k >>> s
  let from0 := (index <<< s) + k
  ⟨index, from0, from0 + 2 ^ s⟩

/-- The forward stages over any element type: stage `s` of a length-`2^m` transform uses the table `table s` (R123,
R125, R127). -/
def fwdEngine {α : Type} (bfly : α → α → α → α × α) (z : α) (table : Nat → List α) (m : Nat) (input : List α) :
    List α :=
  let h := 2 ^ m / 2
  (runStages (fun s => stagePass bfly z (fwdIndex s) h (table s)) m (DoubleBuffer.start input)).prev

/-- The twiddles of forward stage `s`: `cnt = h / 2^s` entries at `theta = fdiv(PI64, i2f(cnt))` (R124). -/
def fwdTable (trig : Trig) (m s : Nat) : List (Cplx FVal) :=
  let cnt : Nat := 2 ^ m / 2 / 2 ^ s
  twiddleTable trig (fdiv pi64 (i2f cnt)) cnt

/-- `FwdTransform(n, Z)` for `n = 2^m` (R128). -/
def fwdTransform (trig : Trig) (m : Nat) (input : List (Cplx FVal)) : List (Cplx FVal) :=
  fwdEngine butterfly zeroElement (fwdTable trig m) m input

/-- A real element as a complex one with imaginary part `+0.0` (R122). -/
def widen (x : F64) : Cplx FVal := ⟨.bits x, plusZero⟩

/-- `FFT` for any parameters (R120): the length check first (R121), then the transform of the widened operand. -/
def fftWith (p : Params) (s : State) : Host.Outcome State Fault Refusal :=
  if !isPow2 s.naRe || decide (p.nMax < s.naRe) then raise .invalidLength s
  else withPlane s .xaRe s.naRe fun x => finishTransform p (fwdTransform p.trig s.naRe.log2 (x.map widen)) s

/-- `FFT` (R120). -/
def execFft (s : State) : Host.Outcome State Fault Refusal := fftWith block s

end Sys2Proof.Machine
end

