-- ==== Sys2Proof/Machine/Radix2Ifft.lean ====
section
/-! DEFINITION. radix2_ifft_engine: `InvTransform` and the command `IFFT`. -/

namespace Sys2Proof.Machine

/-- The indices of butterfly `k` of the inverse stage with group size `g` (R144; the document's `i`). -/
def invIndex (g k : Nat) : ButterflyIndex :=
  let index := k / g
  let from0 := index * g + k
  ⟨index, from0, from0 + g⟩

/-- The inverse stages over any element type, before the scaling: group sizes `h, h/2, ..., 1` (R142, R144); the group
size of step `s` is `2^s`. -/
def invEngine {α : Type} (bfly : α → α → α → α × α) (z : α) (table : Nat → List α) (m : Nat) (input : List α) :
    List α :=
  let h := 2 ^ m / 2
  (runStages (fun s => stagePass bfly z (invIndex (2 ^ s)) h (table (2 ^ s))) m (DoubleBuffer.start input)).prev

/-- The twiddles of the stage with group size `g`: `cnt = h / g` entries at `theta = fneg(fdiv(PI64, i2f(cnt)))`
(R143). -/
def invTable (trig : Trig) (m g : Nat) : List (Cplx FVal) :=
  let cnt : Nat := 2 ^ m / 2 / g
  twiddleTable trig (fneg (fdiv pi64 (i2f cnt))) cnt

/-- Division of both fields by `i2f(n)`, once, after the last stage (R146). -/
def scaleDown (n : Nat) (z : Cplx FVal) : Cplx FVal := ⟨fdiv z.re (i2f n), fdiv z.im (i2f n)⟩

/-- `InvTransform(n, Z)` for `n = 2^m` (R145). -/
def invTransform (trig : Trig) (m : Nat) (input : List (Cplx FVal)) : List (Cplx FVal) :=
  (invEngine butterfly zeroElement (invTable trig m) m input).map (scaleDown (2 ^ m))

/-- `IFFT` for any parameters (R140): the plane lengths first, then the length (R141), then the transform. -/
def ifftWith (p : Params) (s : State) : Host.Outcome State Fault Refusal :=
  if s.naRe ≠ s.naIm then raise .invalidLength s
  else if !isPow2 s.naRe || decide (p.nMax < s.naRe) then raise .invalidLength s
  else
    withPlane s .xaRe s.naRe fun re =>
      withPlane s .xaIm s.naRe fun im =>
        finishTransform p
          (invTransform p.trig s.naRe.log2 (List.zipWith (fun a b => ⟨.bits a, .bits b⟩) re im)) s

/-- `IFFT` (R140). -/
def execIfft (s : State) : Host.Outcome State Fault Refusal := ifftWith block s

end Sys2Proof.Machine
end

