-- ==== Sys2Proof/Machine/RealConvolution.lean ====
section
/-! DEFINITION. real_convolution_spectral: `Convolve` and the command `CONV`. -/

namespace Sys2Proof.Machine

/-- Zero-pad a real sequence to length `n` with `+0.0` and widen it to a complex buffer (R162). -/
def padWiden (n : Nat) (u : List FVal) : List (Cplx FVal) :=
  (List.range n).map fun t => ⟨u.getD t plusZero, plusZero⟩

/-- `Convolve(u, v)` (R160): two full complex forward transforms, the pointwise product with the spectrum of `u` on the
left, one full complex inverse transform, and the real plane (R163 to R166, R168). -/
def convolve (trig : Trig) (u v : List FVal) : List FVal :=
  let n := nextPow2 (u.length + v.length)
  let su := fwdTransform trig n.log2 (padWiden n u)
  let sv := fwdTransform trig n.log2 (padWiden n v)
  (invTransform trig n.log2 (List.zipWith cplxMul su sv)).map Cplx.re

/-- `CONV` for any parameters (R160): total length 0 (R169), then the capacity (R170), then the convolution. -/
def convWith (p : Params) (s : State) : Host.Outcome State Fault Refusal :=
  if s.naRe + s.nbRe = 0 then raise .invalidLength s
  else if p.nMax < nextPow2 (s.naRe + s.nbRe) then raise .invalidLength s
  else
    withPlane s .xaRe s.naRe fun u =>
      withPlane s .xbRe s.nbRe fun v =>
        succeed (writeRealResult p (convolve p.trig (u.map .bits) (v.map .bits)) s)

/-- `CONV` (R160). -/
def execConv (s : State) : Host.Outcome State Fault Refusal := convWith block s

end Sys2Proof.Machine
end

