-- ==== Sys2Proof/Machine/BigintMultiply.lean ====
section
/-! DEFINITION. bigint_multiply_carry_propagator: coefficients, rounding, carry propagation and the command `BMUL`. -/

namespace Sys2Proof.Machine

/-- `Coef(b)`: a byte as a base-256 coefficient (R184). -/
def coef (signed : Bool) (b : Byte) : Int :=
  if signed && decide (0x80 ≤ b.toNat) then (b.toNat : Int) - 256 else b.toNat

/-- The little-endian coefficient vector of a big-endian byte sequence: coefficient `t` comes from byte `N - 1 - t`
(R52, R184). -/
def coefficients (signed : Bool) (bytes : List Byte) : List FVal := bytes.reverse.map fun b => i2f (coef signed b)

/-- Step 3: every coefficient rounded once, before any carry (R186); `none` if one is NaN or infinite (R187). -/
def roundAll : List FVal → Option (List Int)
  | [] => some []
  | x :: xs =>
    match roundInt x, roundAll xs with
    | some r, some rs => some (r :: rs)
    | _, _ => none

/-- Step 4: the base-256 digits, least significant first. The carry, a floor quotient that may be negative, goes into
the next coefficient, and a digit is the remainder in `[0, 255]` (R188); the top coefficient's quotient is discarded
(R189). -/
def carryDigits : Int → List Int → List Byte
  | _, [] => []
  | carry, r :: rs =>
    let v := r + carry
    BitVec.ofInt 8 (v % 256) :: carryDigits (v / 256) rs

/-- The output bytes, most significant first: byte `j` is the digit of coefficient `L - 1 - j` (R189). -/
def propagateCarries (r : List Int) : List Byte := (carryDigits 0 r).reverse

/-- Steps 1 to 4 on two non-empty operands: coefficients, convolution, rounding, carries (R180). `none` is the
non-finite coefficient of R187. -/
def bigProduct (trig : Trig) (signed : Bool) (a b : List Byte) : Option (List Byte) :=
  (roundAll (convolve trig (coefficients signed a) (coefficients signed b))).map propagateCarries

/-- R182: a first byte `>= 0x80` makes an operand negative. -/
def negativeByte (b : Byte) : Bool := decide (0x80 ≤ b.toNat)

/-- `BMUL` for any parameters (R180), its checks in the order of R227. -/
def bmulWith (p : Params) (s : State) : Host.Outcome State Fault Refusal :=
  if s.nba = 0 ∨ s.nbb = 0 then succeed (writeByteResult [0x00#8] s)
  else
    withFirstByte s .ba fun a0 =>
      withFirstByte s .bb fun b0 =>
        if negativeByte a0 || negativeByte b0 then raise .invalidInput s
        else if p.maxTotalBytes < s.nba + s.nbb then raise .precisionExceeded s
        else if p.nMax < nextPow2 (s.nba + s.nbb) then raise .invalidLength s
        else
          withBytes s .ba s.nba fun a =>
            withBytes s .bb s.nbb fun b =>
              match bigProduct p.trig p.coefSigned a b with
              | none => raise .precisionExceeded s
              | some out => succeed (writeByteResult out s)

/-- `BMUL` (R180). -/
def execBmul (s : State) : Host.Outcome State Fault Refusal := bmulWith block s

end Sys2Proof.Machine
end

