-- ==== Sys2Proof/Machine/HostPort.lean ====
section
/-! DEFINITION. The host's moves between commands (R40, R76): reads and writes of the registers and buffers by name and
element index (R50), the write of `CMD`, and reset. -/

namespace Sys2Proof.Machine

/-- What one host read of an element finds. -/
inductive ElementRead (w : Nat) where
  /-- The element reads as this value. -/
  | value (v : BitVec w)
  /-- An element of an operand container that nothing has written since reset (R38, U7). -/
  | unwritten
  /-- The index is not below `N_MAX` (R54). -/
  | outside
deriving DecidableEq, Repr

/-- What a host read of element `j` finds: past the capacity nothing (R54); in an operand container what was written
(R38); in a result container the result below its length register, and the unspecified value elsewhere (R29, R30,
R166). `free` is `unspecifiedElement` or `unspecifiedByte` of the container. -/
def elementRead {w : Nat} (nMax : Nat) (c : Cells w) (free : Option (Nat → BitVec w)) (length j : Nat) :
    ElementRead w :=
  if nMax ≤ j then .outside
  else
    match free, Cells.read c j with
    | none, some v => .value v
    | none, none => .unwritten
    | some f, some v => if length ≤ j then .value (f j) else .value v
    | some f, none => .value (f j)

/-- The host reads element `j` of a plane and goes on with it. The state is not changed: no read has a side effect and
every read is idempotent (R55). -/
def hostReadPlane (p : Params) (s : State) (n : PlaneName) (j : Nat)
    (go : F64 → Host.Outcome State Fault Refusal) : Host.Outcome State Fault Refusal :=
  match elementRead p.nMax (s.plane n) (unspecifiedElement p s n) (s.planeLength n) j with
  | .value v => go v
  | .unwritten => .refused (.unwrittenElement n)
  | .outside => .refused (.noSuchElement n j)

/-- The host reads byte `j` of a byte buffer and goes on with it (R55). -/
def hostReadByte (p : Params) (s : State) (n : BufferName) (j : Nat)
    (go : Byte → Host.Outcome State Fault Refusal) : Host.Outcome State Fault Refusal :=
  match elementRead p.nMax (s.buffer n) (unspecifiedByte p s n) (s.bufferLength n) j with
  | .value v => go v
  | .unwritten => .refused (.unwrittenByte n)
  | .outside => .refused (.noSuchByte n j)

/-- The host writes element `j` of an operand plane (R54, R55). -/
def hostWritePlane (p : Params) (s : State) (n : OperandPlane) (j : Nat) (v : F64)
    (go : State → Host.Outcome State Fault Refusal) : Host.Outcome State Fault Refusal :=
  if p.nMax ≤ j then .refused (.noSuchElement n.name j)
  else go (s.setOperandPlane n (Cells.write (s.plane n.name) j v))

/-- The host writes byte `j` of an operand buffer (R54, R55). -/
def hostWriteByte (p : Params) (s : State) (n : OperandBuffer) (j : Nat) (v : Byte)
    (go : State → Host.Outcome State Fault Refusal) : Host.Outcome State Fault Refusal :=
  if p.nMax ≤ j then .refused (.noSuchByte n.name j)
  else go (s.setOperandBuffer n (Cells.write (s.buffer n.name) j v))

/-- `SET BUF = [v0, v1, ...]` on a plane: elements `j, j + 1, ...` are written, one after another (R76). -/
def hostSetPlane (p : Params) (n : OperandPlane) : Nat → List F64 → State → Host.Outcome State Fault Refusal
  | _, [], s => .next s
  | j, v :: vs, s => hostWritePlane p s n j v (hostSetPlane p n (j + 1) vs)

/-- `SET BUF = [v0, v1, ...]` on a byte buffer (R76). -/
def hostSetBuffer (p : Params) (n : OperandBuffer) : Nat → List Byte → State → Host.Outcome State Fault Refusal
  | _, [], s => .next s
  | j, v :: vs, s => hostWriteByte p s n j v (hostSetBuffer p n (j + 1) vs)

/-- `COPY DST = SRC` on planes: elements `j, j + 1, ...`, `count` of them, each read and then written (R76). -/
def hostCopyPlane (p : Params) (dst : OperandPlane) (src : PlaneName) :
    Nat → Nat → State → Host.Outcome State Fault Refusal
  | _, 0, s => .next s
  | j, count + 1, s =>
    hostReadPlane p s src j fun v => hostWritePlane p s dst j v (hostCopyPlane p dst src (j + 1) count)

/-- `COPY DST = SRC` on byte buffers (R76). -/
def hostCopyBuffer (p : Params) (dst : OperandBuffer) (src : BufferName) :
    Nat → Nat → State → Host.Outcome State Fault Refusal
  | _, 0, s => .next s
  | j, count + 1, s =>
    hostReadByte p s src j fun v => hostWriteByte p s dst j v (hostCopyBuffer p dst src (j + 1) count)

/-- What a host read returns is kept where the host can see it (log entry 10). -/
def answerHost (d : HostDatum) (s : State) : Host.Outcome State Fault Refusal := .next { s with readData := some d }

/-- Reset (R250): every piece of the block's state takes its reset value. The model's own fields are not the block's:
the host's script, its last read and the count of draws stay, and the epochs advance, since no result element has a
value any more (log entries 11 and 16). -/
def resetBlock (s : State) : State :=
  { State.reset with
    script := s.script
    readData := s.readData
    draws := s.draws
    yEpoch := s.yEpoch + 1
    byEpoch := s.byEpoch + 1 }

/-- One move of the host (R40, R76). No access has a side effect on the block; a write of `CMD` leaves a word pending,
which is the next thing the block does (R25, R64). -/
def hostMove (p : Params) (a : HostAction) (s : State) : Host.Outcome State Fault Refusal :=
  match a with
  | .setLength r v => if p.nMax < v then .refused (.lengthAboveCapacity r v) else .next (s.setLength r v)
  | .setField f v => .next (s.setField f v)
  | .writePlane n j v => hostWritePlane p s n j v .next
  | .writeByte n j v => hostWriteByte p s n j v .next
  | .setPlane n vs => hostSetPlane p n 0 vs s
  | .setBuffer n vs => hostSetBuffer p n 0 vs s
  | .copyPlane dst src => hostCopyPlane p dst src 0 (s.planeLength src) s
  | .copyBuffer dst src => hostCopyBuffer p dst src 0 (s.bufferLength src) s
  | .writeCmd w => .next { s with cmd := some w }
  | .readRegister r => answerHost (s.register r) s
  | .readPlane n j => hostReadPlane p s n j fun v => answerHost (.real v) s
  | .readByte n j => hostReadByte p s n j fun v => answerHost (.byte v) s
  | .reset => .next (resetBlock s)

/-- The script line `<MNEMONIC>`: the host writes the command's word (R76). -/
def issue (i : Instr) : HostAction := .writeCmd (encode i)

/-- What the block does when no command is pending: the host makes its next move, or, with none left, nothing happens;
the block waits for a write of `CMD` (R200, R250). -/
def awaitCommand (s : State) : Host.Outcome State Fault Refusal :=
  match s.script with
  | [] => .next s
  | a :: rest => hostMove block a { s with script := rest }

/-- `CMD` holds nothing between commands (R25). -/
def takeCommand (s : State) : State := { s with cmd := none }

/-- A word that is no command raises `IllegalCommand`: nothing is read, and only `STATUS` changes (R73, R221). -/
def illegalCommand (s : State) : Host.Outcome State Fault Refusal := raise .illegalCommand s

/-- The state with a word waiting in `CMD`. -/
def withPendingWord (s : State) (w : Nat) : State := { s with cmd := some (BitVec.ofNat 32 w) }

end Sys2Proof.Machine
end

