-- ==== Sys2Proof/Machine/Step.lean ====
section
/-! DEFINITION. One step: a pending command runs from its start to its end (R20, D1), and while none is pending the
host moves (R40, R64). -/

namespace Sys2Proof.Machine

/-- One step of the machine. -/
def step (s : State) : Host.Outcome State Fault Refusal :=
  match s.cmd with
  | none => awaitCommand s
  | some w =>
    match decode w with
    | some i => exec i (takeCommand s)
    | none => illegalCommand (takeCommand s)

/-- The state with the word waiting in `CMD`, the one place a command is read from (R25, R62; log entry 8). A command is
one 32-bit word, so `nbits` is 32 for every row of the table. -/
def State.withFetchWord (s : State) (_nbits w : Nat) : State := withPendingWord s w

end Sys2Proof.Machine
end

