-- ==== Sys2Proof/Safety.lean ====
section
/-! DEFINITION. The terms claims are stated in: what a stored value must be, what a container holds, what a command
leaves alone, the invariant of the block, the numbers byte sequences stand for, and the real value of an `f64`. -/

namespace Sys2Proof

/-- A stored `f64` is the value computed: the same bits, or, where the value is a NaN result, some NaN (R106). -/
def FVal.Agrees : FVal → F64 → Prop
  | .bits x, b => b = x
  | .nanResult, b => Machine.isNaNBits b = true

/-- Both fields of a stored complex value are the values computed. -/
def Cplx.Agrees (z : Cplx FVal) (b : Cplx F64) : Prop := z.re.Agrees b.re ∧ z.im.Agrees b.im

namespace Machine

/-! ### What a container holds -/

/-- Elements `0 ... n - 1` all hold a value (R38, R253). -/
def Cells.Filled {w : Nat} (c : Cells w) (n : Nat) : Prop := ∀ j, j < n → ∃ v, Cells.read c j = some v

/-- Elements `0, 1, ...` hold exactly the values of the list. -/
def Cells.Holds {w : Nat} (c : Cells w) (vs : List (BitVec w)) : Prop :=
  ∀ j (h : j < vs.length), Cells.read c j = some (vs[j]'h)

/-- Elements `0, 1, ...` hold the computed values of the list, a NaN result as some NaN. -/
def Cells.HoldsComputed (c : Plane) (vs : List FVal) : Prop :=
  ∀ j (h : j < vs.length), ∃ b, Cells.read c j = some b ∧ (vs[j]'h).Agrees b

/-- No element at index `n` or above is listed. -/
def Cells.Below {w : Nat} (c : Cells w) (n : Nat) : Prop := ∀ j, n ≤ j → Cells.read c j = none

/-! ### What a command leaves alone -/

/-- Nothing but `STATUS` differs (R228). -/
def OnlyStatusChanged (s t : State) : Prop := t = { s with status := t.status }

/-- Nothing but `CR`, `STATUS` and the draw counter differs (R110). -/
def OnlyScalarResultChanged (s t : State) : Prop :=
  t = { s with cr := t.cr, status := t.status, draws := t.draws }

/-- Nothing but the result planes, `NY`, `STATUS`, the draw counter and the epoch of the result planes differs. -/
def OnlyPlaneResultChanged (s t : State) : Prop :=
  t = { s with yRe := t.yRe, yIm := t.yIm, ny := t.ny, status := t.status, draws := t.draws, yEpoch := t.yEpoch }

/-- Nothing but `BY`, `NBY`, `STATUS` and the epoch of `BY` differs. -/
def OnlyByteResultChanged (s t : State) : Prop :=
  t = { s with byBuf := t.byBuf, nby := t.nby, status := t.status, byEpoch := t.byEpoch }

/-- Nothing but the elements of one operand plane differs: no length register, no other container. -/
def OnlyOperandPlaneChanged (n : OperandPlane) (s t : State) : Prop :=
  t = { s with xaRe := t.xaRe, xaIm := t.xaIm, xbRe := t.xbRe } ∧ ∀ q, q ≠ n.name → t.plane q = s.plane q

/-- Nothing but the bytes of one operand buffer differs. -/
def OnlyOperandBufferChanged (n : OperandBuffer) (s t : State) : Prop :=
  t = { s with ba := t.ba, bb := t.bb } ∧ ∀ q, q ≠ n.name → t.buffer q = s.buffer q

/-- The operand containers, the operand lengths, `CA` and `CB` are the same (R32). -/
def SameOperands (s t : State) : Prop :=
  s.naRe = t.naRe ∧ s.naIm = t.naIm ∧ s.nbRe = t.nbRe ∧ s.nba = t.nba ∧ s.nbb = t.nbb ∧ s.ca = t.ca ∧ s.cb = t.cb ∧
    s.xaRe = t.xaRe ∧ s.xaIm = t.xaIm ∧ s.xbRe = t.xbRe ∧ s.ba = t.ba ∧ s.bb = t.bb

/-- `STATUS` holds one of the five codes, and zero above it (R26). -/
def LegalStatus (w : Word) : Prop := ∃ c : StatusCode, w = c.word

/-! ### The invariant -/

/-- What holds of the block between commands. It rules out states no run reaches: a length above `N_MAX`, an element
at an index that does not exist, a container out of canonical form, a result length without its result. -/
structure State.Inv (s : State) : Prop where
  /-- Every plane and buffer is in canonical form. -/
  canonical : Memory.wf s = true
  /-- Every plane lies inside the capacity (R28, R29). -/
  planesBelow : ∀ p, Cells.Below (s.plane p) block.nMax
  /-- Every byte buffer lies inside the capacity (R30). -/
  buffersBelow : ∀ b, Cells.Below (s.buffer b) block.nMax
  /-- Every plane's length register is at most `N_MAX` (R27). -/
  planeLengths : ∀ p, s.planeLength p ≤ block.nMax
  /-- Every byte buffer's length register is at most `N_MAX` (R27). -/
  bufferLengths : ∀ b, s.bufferLength b ≤ block.nMax
  /-- `STATUS` is legal (R26). -/
  legalStatus : LegalStatus s.status
  /-- `NY` is 0 or the length of a transform (R120, R140, R160). -/
  nyPow2 : s.ny = 0 ∨ ∃ k, s.ny = 2 ^ k
  /-- `NBY` is 0 or a power of two (R181, R190). -/
  nbyPow2 : s.nby = 0 ∨ ∃ k, s.nby = 2 ^ k
  /-- The first `NY` elements of `Y_RE` are a result (R29). -/
  yFilled : Cells.Filled s.yRe s.ny
  /-- The first `NBY` bytes of `BY` are a result (R30). -/
  byFilled : Cells.Filled s.byBuf s.nby

/-! ### Byte sequences as integers (R79, R192) -/

/-- `UVal(B)`, the unsigned reading of a big-endian byte sequence (R79). -/
def uVal : List Byte → Nat
  | [] => 0
  | b :: bs => b.toNat * 256 ^ bs.length + uVal bs

/-- `TVal(B)`, the two's-complement reading; the empty sequence reads as 0 (R79). -/
def tVal : List Byte → Int
  | [] => 0
  | b :: bs => if 0x80 ≤ b.toNat then (uVal (b :: bs) : Int) - 256 ^ (bs.length + 1) else uVal (b :: bs)

/-- `SVal(X)`, the value of the polynomial of the sequence's coefficients at 256 (R192). -/
def sVal (signed : Bool) : List Byte → Int
  | [] => 0
  | b :: bs => coef signed b * 256 ^ bs.length + sVal signed bs

/-- The integer coefficients of a byte sequence, least significant first (R184). -/
def intCoefficients (signed : Bool) (bytes : List Byte) : List Int := bytes.reverse.map (coef signed)

/-- Entry `k` of the exact integer convolution of two coefficient vectors (R192). -/
def convolutionEntry (u v : List Int) (k : Nat) : Int :=
  ((List.range (k + 1)).map fun t => u.getD t 0 * v.getD (k - t) 0).sum

/-- `ExactRound` (R192, R194): every rounded coefficient equals the exact integer convolution, before any carry. A
premise, not a rule: nothing in the block detects its failure. -/
def ExactRound (trig : Trig) (signed : Bool) (a b : List Byte) : Prop :=
  roundAll (convolve trig (coefficients signed a) (coefficients signed b)) =
    some ((List.range (nextPow2 (a.length + b.length))).map
      (convolutionEntry (intCoefficients signed a) (intCoefficients signed b)))

end Machine

/-! ### The real value of an `f64` (R105) -/

/-- The value denotes a finite number. -/
def FVal.IsFinite (x : FVal) : Prop := ∃ neg units, Machine.unpack x = .finite neg units

/-- The value denotes a NaN. -/
def FVal.IsNaN (x : FVal) : Prop := Machine.unpack x = .nan

/-- The real value of a finite `f64`, a rational (0 of anything else). -/
def FVal.value (x : FVal) : ℚ :=
  match Machine.unpack x with
  | .finite neg units => (Machine.signedUnits neg units : ℚ) / 2 ^ 1074
  | .inf _ => 0
  | .nan => 0

/-- The last fraction bit is 0. -/
def FVal.EvenFraction : FVal → Prop
  | .bits b => b.getLsbD 0 = false
  | .nanResult => False

/-- `r` is `q` rounded to the nearest `f64`, ties to the one with an even last fraction bit, too large a result an
infinity of the right sign (R105). A `q` that is not zero keeps its sign, in a result that underflows to a zero too. The
bound is the largest `f64` and half its last place more. -/
def RoundsTo (q : ℚ) (r : FVal) : Prop :=
  if |q| < 2 ^ 1024 - 2 ^ 970 then
    r.IsFinite ∧
      (∀ z : FVal, z.IsFinite → |q - r.value| ≤ |q - z.value|) ∧
      ((∃ z : FVal, z.IsFinite ∧ z.value ≠ r.value ∧ |q - z.value| = |q - r.value|) →
        r.EvenFraction) ∧
      (q ≠ 0 → ∃ b : F64, r = .bits b ∧ b.msb = decide (q < 0))
  else r = FVal.bits (Machine.infBits (decide (q < 0)))

/-- The two values are the same bits, or both are zeros. -/
def FVal.EqUpToZeroSign (x y : FVal) : Prop :=
  x = y ∨ ∃ a b, Machine.unpack x = .finite a 0 ∧ Machine.unpack y = .finite b 0

/-- `r` is `Round(x)` (R107): the floor of `x + 1/2` for a finite `x`, a zero result `+0.0`, an `x` of magnitude `2^52`
or more returned unchanged; a NaN for a NaN; an infinity for itself. -/
def IsRounded (x r : FVal) : Prop :=
  (x.IsFinite →
      r.IsFinite ∧ r.value = ⌊x.value + 1 / 2⌋ ∧ (⌊x.value + 1 / 2⌋ = 0 → r = Machine.plusZero) ∧
        (2 ^ 52 ≤ |x.value| → r = x)) ∧
    (x.IsNaN → r = .nanResult) ∧ (∀ neg, Machine.unpack x = .inf neg → r = x)

end Sys2Proof
end

