-- ==== Sys2Proof/Certificates/Slice0/Obligations.lean ====
section
/-! DEFINITION. The statements about the model, each a rule of the spec or a consequence of several. A
computed value is met by stored bits in the sense of `FVal.Agrees`: the same bits, or some NaN for a NaN result. -/

open Sys2Proof Sys2Proof.Machine

/-! ### Decoding and the step -/

/-- R72: the word of each command decodes to it, and the mnemonics are the table's, in its order. -/
def Obligations.CommandWordsDecode : Prop :=
  decode 0x00000001#32 = some .cadd ∧ decode 0x00000002#32 = some .csub ∧ decode 0x00000003#32 = some .cmul ∧
    decode 0x00000004#32 = some .crnd ∧ decode 0x00000010#32 = some .fft ∧ decode 0x00000011#32 = some .ifft ∧
    decode 0x00000020#32 = some .conv ∧ decode 0x00000030#32 = some .bmul ∧
    [Instr.cadd, .csub, .cmul, .crnd, .fft, .ifft, .conv, .bmul].map Instr.mnemonic =
      ["CADD", "CSUB", "CMUL", "CRND", "FFT", "IFFT", "CONV", "BMUL"]

/-- A word decodes to a command exactly when it is that command's encoding: no bit of a word is dropped, and decoding
an encoded command gives it back (R70, R72, R74). -/
def Obligations.DecodeInvertsEncode : Prop := ∀ (w : Word) (i : Instr), decode w = some i ↔ w = encode i

/-- R73: the illegal words are those with `rsvd` not zero and those whose `opcode` is none of the eight, the all-zero
word among them; one that is pending raises `IllegalCommand` and changes nothing but `STATUS` (and is taken from
`CMD`). -/
def Obligations.IllegalWordsChangeOnlyStatus : Prop :=
  (∀ w : Word, decode w = none ↔
      w.rsvd ≠ 0#24 ∨
        w.opcode ∉ [0x01#8, 0x02#8, 0x03#8, 0x04#8, 0x10#8, 0x11#8, 0x20#8, 0x30#8]) ∧
    decode 0#32 = none ∧
    ∀ (s : State) (w : Word), s.cmd = some w → decode w = none →
      step s = .next { s with cmd := none, status := 4#32 }

/-- A step with a command's word pending is exec of the command on the state with nothing pending: `CMD` holds nothing
between commands (R25). -/
def Obligations.StepRunsDecodedCommand : Prop :=
  ∀ (s : State) (w : Word) (i : Instr), s.cmd = some w → decode w = some i → step s = exec i { s with cmd := none }

/-- With nothing pending the block does nothing of itself: the host makes its next move, and with none left the state
stays (R200, R250). The host's write of a word to `CMD` leaves that word pending and changes nothing else (R25). That
the host's moves come from a list in the state, and that the word waits for the next step, is the model's choice, log
entries 8 and 7. -/
def Obligations.BlockWaitsForTheHost : Prop :=
  (∀ s : State, s.cmd = none →
    (∀ a rest, s.script = a :: rest → step s = hostMove block a { s with script := rest }) ∧
      (s.script = [] → step s = .next s)) ∧
    ∀ (s : State) (w : Word), hostMove block (.writeCmd w) s = .next { s with cmd := some w }

/-! ### complex_multiplier -/

/-- R100: `CADD` writes the field-by-field sum of `CA` and `CB` to `CR` and `OK` to `STATUS`, in every state, and
changes nothing else; its word is `0x00000001`. -/
def Obligations.CaddWritesSum : Prop :=
  decode 0x00000001#32 = some .cadd ∧ ∀ s : State, ∃ t, exec .cadd s = .next t ∧
    Cplx.Agrees ⟨fadd (.bits s.ca.re) (.bits s.cb.re), fadd (.bits s.ca.im) (.bits s.cb.im)⟩ t.cr ∧
    t.status = 0#32 ∧ OnlyScalarResultChanged s t

/-- R101: `CSUB`, word `0x00000002`, writes `CA` minus `CB`. -/
def Obligations.CsubWritesDifference : Prop :=
  decode 0x00000002#32 = some .csub ∧ ∀ s : State, ∃ t, exec .csub s = .next t ∧
    Cplx.Agrees ⟨fsub (.bits s.ca.re) (.bits s.cb.re), fsub (.bits s.ca.im) (.bits s.cb.im)⟩ t.cr ∧
    t.status = 0#32 ∧ OnlyScalarResultChanged s t

/-- R102: `CMUL`, word `0x00000003`, writes the four-multiply product, six separately rounded operations; exchanging
the two operands gives the same product. -/
def Obligations.CmulWritesProduct : Prop :=
  decode 0x00000003#32 = some .cmul ∧
    (∀ s : State, ∃ t, exec .cmul s = .next t ∧
      Cplx.Agrees
        ⟨fsub (fmul (.bits s.ca.re) (.bits s.cb.re)) (fmul (.bits s.ca.im) (.bits s.cb.im)),
          fadd (fmul (.bits s.ca.re) (.bits s.cb.im)) (fmul (.bits s.ca.im) (.bits s.cb.re))⟩ t.cr ∧
      t.status = 0#32 ∧ OnlyScalarResultChanged s t) ∧
    ∀ a b : Cplx FVal, cplxMul a b = cplxMul b a

/-- R103: `CRND`, word `0x00000004`, writes each field of `CA` rounded by the rule of R107, whatever `CB` is. -/
def Obligations.CrndWritesRounded : Prop :=
  decode 0x00000004#32 = some .crnd ∧ ∀ s : State, ∃ t re im, exec .crnd s = .next t ∧
    IsRounded (.bits s.ca.re) re ∧ IsRounded (.bits s.ca.im) im ∧ Cplx.Agrees ⟨re, im⟩ t.cr ∧
    t.status = 0#32 ∧ OnlyScalarResultChanged s t

/-- R110: no scalar command fails; each ends with `OK`, writes `CR` and nothing else, and its result depends on `CA` and
`CB` alone, a NaN's bits on the draw. -/
def Obligations.ScalarCommandsNeverFail : Prop :=
  ∀ i ∈ [Instr.cadd, Instr.csub, Instr.cmul, Instr.crnd], ∀ s : State,
    (∃ t, exec i s = .next t ∧ t.status = 0#32 ∧ OnlyScalarResultChanged s t) ∧
      ∀ s' t t' : State, s'.ca = s.ca → s'.cb = s.cb → s'.draws = s.draws →
        exec i s = .next t → exec i s' = .next t' → t.cr = t'.cr

/-! ### Binary64 arithmetic -/

/-- The sum and difference of finite values are the exact ones, rounded to the nearest `f64`, ties to even (R105). -/
def Obligations.SumIsCorrectlyRounded : Prop :=
  ∀ x y : FVal, x.IsFinite → y.IsFinite →
    RoundsTo (x.value + y.value) (fadd x y) ∧ RoundsTo (x.value - y.value) (fsub x y)

/-- The product of finite values is the exact one, rounded to the nearest `f64`, ties to even (R105). -/
def Obligations.ProductIsCorrectlyRounded : Prop :=
  ∀ x y : FVal, x.IsFinite → y.IsFinite → RoundsTo (x.value * y.value) (fmul x y)

/-- The quotient of a finite value by a finite value that is not zero is the exact one, rounded to the nearest `f64`,
ties to even (R105). -/
def Obligations.QuotientIsCorrectlyRounded : Prop :=
  ∀ x y : FVal, x.IsFinite → y.IsFinite → y.value ≠ 0 → RoundsTo (x.value / y.value) (fdiv x y)

/-- R105's rules for zeros: `x - x` is `+0.0` for finite `x`; the sum of zeros of opposite signs is `+0.0`, of one sign
that zero; the sign of a zero product is the exclusive-or of the operand signs; the two zeros differ as bits and are
equal as values. -/
def Obligations.SignedZeroRules : Prop :=
  (∀ x : FVal, x.IsFinite → fsub x x = plusZero) ∧
    (∀ a b : Bool, fadd (.bits (withSign a 0)) (.bits (withSign b 0)) = .bits (withSign (a && b) 0)) ∧
    (∀ (x y : FVal) (a b : Bool) (u v : Nat), unpack x = .finite a u → unpack y = .finite b v → u = 0 ∨ v = 0 →
      fmul x y = .bits (withSign (a ^^ b) 0)) ∧
    withSign true 0 ≠ withSign false 0 ∧
    (FVal.bits (withSign true 0)).value = (FVal.bits (withSign false 0)).value

/-- R106: an operation with a NaN operand returns a NaN, and so does an invalid one, `inf - inf` and `0 * inf`; a NaN
result that is stored is some NaN, its bits a draw. -/
def Obligations.NaNRules : Prop :=
  (∀ x y : FVal, x.IsNaN ∨ y.IsNaN →
      fadd x y = .nanResult ∧ fsub x y = .nanResult ∧ fmul x y = .nanResult ∧ fdiv x y = .nanResult) ∧
    (∀ (x y : FVal) (a : Bool), unpack x = .inf a → unpack y = .inf a → fsub x y = .nanResult) ∧
    (∀ (x y : FVal) (a : Bool), unpack x = .inf a → unpack y = .inf (!a) → fadd x y = .nanResult) ∧
    (∀ (x y : FVal) (a b : Bool), unpack x = .finite a 0 → unpack y = .inf b →
      fmul x y = .nanResult ∧ fmul y x = .nanResult) ∧
    ∀ k : Nat, isNaNBits (drawNaN block k .nanResult).1 = true

/-- R107: `Round` is the floor of `x + 1/2` taken exactly, and `RoundInt` the same integer, defined for finite values
only. -/
def Obligations.RoundIsFloorHalfUp : Prop :=
  ∀ x : FVal, IsRounded x (fround x) ∧
    (x.IsFinite → roundInt x = some ⌊x.value + 1 / 2⌋) ∧ (¬ x.IsFinite → roundInt x = none)

/-- R109: a sum, difference or product of integer-valued operands is exact when the exact result has magnitude at most
`2^53`; multiplication by one is exact, and division by a power of two is exact unless the result is subnormal. -/
def Obligations.IntegerArithmeticIsExact : Prop :=
  (∀ (x y : FVal) (m n : Int), x.IsFinite → y.IsFinite → x.value = m → y.value = n →
      (|m + n| ≤ 2 ^ 53 → (fadd x y).IsFinite ∧ (fadd x y).value = m + n) ∧
        (|m - n| ≤ 2 ^ 53 → (fsub x y).IsFinite ∧ (fsub x y).value = m - n) ∧
        (|m * n| ≤ 2 ^ 53 → (fmul x y).IsFinite ∧ (fmul x y).value = m * n)) ∧
    ∀ x : FVal, x.IsFinite →
      fmul (i2f 1) x = x ∧
        ∀ k : Nat, k ≤ 1023 → (x.value = 0 ∨ 1 / 2 ^ 1022 ≤ |x.value| / 2 ^ k) →
          (fdiv x (i2f (2 ^ k))).IsFinite ∧ (fdiv x (i2f (2 ^ k))).value = x.value / 2 ^ k

/-- The values of `COS` and `SIN` at the zeros (R108), and the tables of a stage: `cnt = (n/2) / 2^s` entries, entry 0
exactly `(1.0, +0.0)` forward (R124) and `(1.0, -0.0)` inverse (R143), and entry `j` the pair of `COS` and `SIN` of the
one angle `fmul(theta, i2f(j))`, with `theta = fdiv(PI64, i2f(cnt))` forward and its sign bit flipped in the inverse. The
entries are stated for `m <= 1024`: beyond it `cnt` is no `f64`, and R11 gives `i2f(cnt)` no value. -/
def Obligations.TwiddlesOfEachStage : Prop :=
  ∀ p : Params,
    (p.trig.cos 0x0000000000000000#64 = 0x3FF0000000000000#64 ∧
      p.trig.cos 0x8000000000000000#64 = 0x3FF0000000000000#64 ∧
      p.trig.sin 0x0000000000000000#64 = 0x0000000000000000#64 ∧
      p.trig.sin 0x8000000000000000#64 = 0x8000000000000000#64) ∧
    ∀ m s : Nat, s < m →
      let cnt : Nat := 2 ^ m / 2 / 2 ^ s
      let fwd := fwdTable p.trig m s
      let inv := invTable p.trig m (2 ^ s)
      fwd.length = cnt ∧ inv.length = cnt ∧
        fwd[0]? = some ⟨.bits 0x3FF0000000000000#64, .bits 0x0000000000000000#64⟩ ∧
        inv[0]? = some ⟨.bits 0x3FF0000000000000#64, .bits 0x8000000000000000#64⟩ ∧
        (m ≤ 1024 → ∀ j, j < cnt → ∃ theta ang ang' : F64,
          fdiv (.bits 0x400921FB54442D18#64) (i2f cnt) = .bits theta ∧
            fmul (.bits theta) (i2f j) = .bits ang ∧
            fwd[j]? = some ⟨.bits (p.trig.cos ang), .bits (p.trig.sin ang)⟩ ∧
            fmul (.bits (theta ^^^ 0x8000000000000000#64)) (i2f j) = .bits ang' ∧
            inv[j]? = some ⟨.bits (p.trig.cos ang'), .bits (p.trig.sin ang')⟩)

/-! ### The transform engines -/

/-- R56: in stage `s` of a length-`2^m` transform every index is in range, and over all butterflies `from0` and `from1`
name every element of the buffer exactly once. -/
def Obligations.StageIndicesCoverBuffer : Prop :=
  ∀ m s : Nat, s < m →
    (∀ k, k < 2 ^ m / 2 →
      (fwdIndex s k).from0 < (fwdIndex s k).from1 ∧ (fwdIndex s k).from1 < 2 ^ m ∧
        (fwdIndex s k).index < 2 ^ m / 2 / 2 ^ s) ∧
      ∀ j, j < 2 ^ m →
        ∃! r : Nat × Bool, r.1 < 2 ^ m / 2 ∧
          j = (if r.2 then (fwdIndex s r.1).from1 else (fwdIndex s r.1).from0)

/-- The two engines read the same elements: with group size `2^s` the inverse indices are the forward ones of stage `s`
(R144). -/
def Obligations.EnginesShareIndices : Prop := ∀ s k : Nat, invIndex (2 ^ s) k = fwdIndex s k

/-- R125, R126: with `index = k div 2^s`, `a` and `b` the elements of `prev` at `from0 = index · 2^s + k` and
`from1 = from0 + 2^s`, `w` the twiddle at `index` and `p = w · b`, forward stage `s` writes `a + p` to `next[k]` and
`a − p` to `next[k + n/2]`, whatever the other elements are. The inverse stage of group size `2^s` does the same with its
own table: that is R144, which the spec marks as derived from R125 and R126. -/
def Obligations.StageWritesButterflies : Prop :=
  ∀ (trig : Trig) (m s k : Nat) (prev : List (Cplx FVal)) (a b w : Cplx FVal)
    (idx : Nat → ButterflyIndex) (table : List (Cplx FVal)),
    (idx = fwdIndex s ∧ table = fwdTable trig m s) ∨ (idx = invIndex (2 ^ s) ∧ table = invTable trig m (2 ^ s)) →
    k < 2 ^ m / 2 →
    prev[k / 2 ^ s * 2 ^ s + k]? = some a → prev[k / 2 ^ s * 2 ^ s + k + 2 ^ s]? = some b →
    table[k / 2 ^ s]? = some w →
      let next := stagePass butterfly zeroElement idx (2 ^ m / 2) table prev
      next[k]? = some ⟨fadd a.re (fsub (fmul w.re b.re) (fmul w.im b.im)),
          fadd a.im (fadd (fmul w.re b.im) (fmul w.im b.re))⟩ ∧
        next[k + 2 ^ m / 2]? = some ⟨fsub a.re (fsub (fmul w.re b.re) (fmul w.im b.im)),
          fsub a.im (fadd (fmul w.re b.im) (fmul w.im b.re))⟩

/-- The butterfly in exact complex arithmetic (R129). -/
noncomputable def exactButterfly (a b w : ℂ) : ℂ × ℂ := (a + w * b, a - w * b)

/-- The twiddles of forward stage `s` with exact sine and cosine: `exp(+i · π · j / cnt)` (R124). -/
noncomputable def exactFwdTable (m s : Nat) : List ℂ :=
  (List.range (2 ^ m / 2 / 2 ^ s)).map fun j => Complex.exp (Complex.I * (Real.pi * j / (2 ^ m / 2 / 2 ^ s : ℕ)))

/-- The twiddles of the inverse stage with group size `g`, exact: `exp(−i · π · j / cnt)` (R143). -/
noncomputable def exactInvTable (m g : Nat) : List ℂ :=
  (List.range (2 ^ m / 2 / g)).map fun j => Complex.exp (-(Complex.I * (Real.pi * j / (2 ^ m / 2 / g : ℕ))))

/-- R129: with exact arithmetic the forward engine's stages compute, in natural order and unnormalised, the sum with a
plus sign in the exponent. -/
def Obligations.ForwardEngineComputesDft : Prop :=
  ∀ (m : Nat) (z : List ℂ), z.length = 2 ^ m →
    fwdEngine exactButterfly 0 (exactFwdTable m) m z =
      (List.range (2 ^ m)).map fun k =>
        ∑ t ∈ Finset.range (2 ^ m), z.getD t 0 * Complex.exp (2 * Real.pi * Complex.I * k * t / 2 ^ m)

/-- R147: with exact arithmetic the inverse engine's stages and the division by `n` compute the sum with a minus sign
in the exponent, divided by `n`. -/
def Obligations.InverseEngineComputesInverseDft : Prop :=
  ∀ (m : Nat) (z : List ℂ), z.length = 2 ^ m →
    (invEngine exactButterfly 0 (exactInvTable m) m z).map (· / 2 ^ m) =
      (List.range (2 ^ m)).map fun t =>
        (∑ k ∈ Finset.range (2 ^ m), z.getD k 0 * Complex.exp (-(2 * Real.pi * Complex.I * k * t / 2 ^ m))) / 2 ^ m

/-- With exact arithmetic the inverse engine undoes the forward one (R147). -/
def Obligations.InverseUndoesForward : Prop :=
  ∀ (m : Nat) (z : List ℂ), z.length = 2 ^ m →
    (invEngine exactButterfly 0 (exactInvTable m) m (fwdEngine exactButterfly 0 (exactFwdTable m) m z)).map
        (· / 2 ^ m) = z

/-- R121: `FFT` with an `NA_RE` that is no power of two, 0 among them, or above `N_MAX`, raises `InvalidLength` and
changes nothing else; the elements are not read. -/
def Obligations.FftRejectsBadLength : Prop :=
  ∀ s : State, (¬ ∃ k, s.naRe = 2 ^ k) ∨ block.nMax < s.naRe → exec .fft s = .next { s with status := 1#32 }

/-- R120: `FFT` of a legal length whose elements `x` are written puts the transform of the widened `x` into `Y_RE` and
`Y_IM` and the length into `NY`, and ends with `OK`; nothing else changes, elements of the result planes at index `n` and
above included. -/
def Obligations.FftWritesTransform : Prop :=
  ∀ (s : State) (m : Nat) (x : List F64), s.naRe = 2 ^ m → 2 ^ m ≤ block.nMax →
    x.length = 2 ^ m → Cells.Holds s.xaRe x →
      let w := fwdTransform block.trig m (x.map fun v => ⟨.bits v, .bits 0#64⟩)
      ∃ t, exec .fft s = .next t ∧
        w.length = 2 ^ m ∧ Cells.HoldsComputed t.yRe (w.map Cplx.re) ∧ Cells.HoldsComputed t.yIm (w.map Cplx.im) ∧
        t.ny = 2 ^ m ∧ t.status = 0#32 ∧ OnlyPlaneResultChanged s t ∧
        ∀ j, 2 ^ m ≤ j → Cells.read t.yRe j = Cells.read s.yRe j ∧ Cells.read t.yIm j = Cells.read s.yIm j

/-- R130: `FFT` of length 1 returns its input, bit for bit, with imaginary part `+0.0`; of length 2, for every value of the
parameters that admits it, it returns the rounded sum and difference of finite inputs. The block's `FFT` is the one with
the block's parameters. -/
def Obligations.FftOfLengthsOneAndTwo : Prop :=
  (∀ (s : State) (x : F64), s.naRe = 1 → Cells.read s.xaRe 0 = some x →
      ∃ t, exec .fft s = .next t ∧ t.ny = 1 ∧ Cells.read t.yRe 0 = some x ∧ Cells.read t.yIm 0 = some 0#64) ∧
    (∀ (p : Params) (s : State) (x y : F64), 2 ≤ p.nMax → s.naRe = 2 →
      Cells.read s.xaRe 0 = some x → Cells.read s.xaRe 1 = some y →
      (FVal.bits x).IsFinite → (FVal.bits y).IsFinite →
        ∃ t, fftWith p s = .next t ∧ t.ny = 2 ∧
          Cells.HoldsComputed t.yRe [fadd (.bits x) (.bits y), fsub (.bits x) (.bits y)] ∧
          Cells.read t.yIm 0 = some 0#64 ∧ Cells.read t.yIm 1 = some 0#64) ∧
    ∀ s : State, exec .fft s = fftWith block s

/-- R141: `IFFT` raises `InvalidLength`, and changes nothing else, if the two planes differ in length or the length is
no power of two (or is above `N_MAX`). -/
def Obligations.IfftRejectsBadLength : Prop :=
  ∀ s : State, s.naRe ≠ s.naIm ∨ (¬ ∃ k, s.naRe = 2 ^ k) ∨ block.nMax < s.naRe →
    exec .ifft s = .next { s with status := 1#32 }

/-- R140: `IFFT` of two written planes of one legal length puts the inverse transform, every element divided by the
length, into `Y_RE` and `Y_IM` and the length into `NY`, and ends with `OK`; nothing else changes. -/
def Obligations.IfftWritesTransform : Prop :=
  ∀ (s : State) (m : Nat) (re im : List F64), s.naRe = 2 ^ m → s.naIm = 2 ^ m → 2 ^ m ≤ block.nMax →
    re.length = 2 ^ m → im.length = 2 ^ m → Cells.Holds s.xaRe re → Cells.Holds s.xaIm im →
      let w := (invEngine butterfly zeroElement (invTable block.trig m) m
        (List.zipWith (fun a b => ⟨.bits a, .bits b⟩) re im)).map
          fun v => (⟨fdiv v.re (i2f (2 ^ m : ℕ)), fdiv v.im (i2f (2 ^ m : ℕ))⟩ : Cplx FVal)
      ∃ t, exec .ifft s = .next t ∧
        w.length = 2 ^ m ∧ Cells.HoldsComputed t.yRe (w.map Cplx.re) ∧ Cells.HoldsComputed t.yIm (w.map Cplx.im) ∧
        t.ny = 2 ^ m ∧ t.status = 0#32 ∧ OnlyPlaneResultChanged s t ∧
        ∀ j, 2 ^ m ≤ j → Cells.read t.yRe j = Cells.read s.yRe j ∧ Cells.read t.yIm j = Cells.read s.yIm j

/-- R148: `IFFT` of length 1 returns a finite input unchanged; of length 2, for every value of the parameters that admits
it, it returns half the rounded sum and half the rounded difference of finite inputs, planes separately, up to the sign
of a zero. The block's `IFFT` is the one with the block's parameters. -/
def Obligations.IfftOfLengthsOneAndTwo : Prop :=
  (∀ (s : State) (x y : F64), s.naRe = 1 → s.naIm = 1 → Cells.read s.xaRe 0 = some x → Cells.read s.xaIm 0 = some y →
      (FVal.bits x).IsFinite → (FVal.bits y).IsFinite →
        ∃ t, exec .ifft s = .next t ∧ t.ny = 1 ∧ Cells.read t.yRe 0 = some x ∧ Cells.read t.yIm 0 = some y) ∧
    (∀ (p : Params) (s : State) (x0 x1 y0 y1 : F64), 2 ≤ p.nMax → s.naRe = 2 → s.naIm = 2 →
      Cells.Holds s.xaRe [x0, x1] → Cells.Holds s.xaIm [y0, y1] →
      (∀ v ∈ [x0, x1, y0, y1], (FVal.bits v).IsFinite) →
        ∃ t, ∃ a0 a1 b0 b1 : F64, ifftWith p s = .next t ∧ t.ny = 2 ∧
          Cells.Holds t.yRe [a0, a1] ∧ Cells.Holds t.yIm [b0, b1] ∧
          (FVal.bits a0).EqUpToZeroSign (fdiv (fadd (.bits x0) (.bits x1)) (i2f 2)) ∧
          (FVal.bits a1).EqUpToZeroSign (fdiv (fsub (.bits x0) (.bits x1)) (i2f 2)) ∧
          (FVal.bits b0).EqUpToZeroSign (fdiv (fadd (.bits y0) (.bits y1)) (i2f 2)) ∧
          (FVal.bits b1).EqUpToZeroSign (fdiv (fsub (.bits y0) (.bits y1)) (i2f 2))) ∧
    ∀ s : State, exec .ifft s = ifftWith block s

/-! ### real_convolution_spectral -/

/-- R169, R170: `CONV` with both operands empty, or with a transform length above `N_MAX`, raises `InvalidLength` and
changes nothing else. -/
def Obligations.ConvRejectsEmptyOrTooLong : Prop :=
  ∀ s : State, s.naRe + s.nbRe = 0 ∨ (s.naRe + s.nbRe ≠ 0 ∧ block.nMax < nextPow2 (s.naRe + s.nbRe)) →
    exec .conv s = .next { s with status := 1#32 }

/-- R160: `CONV` of two written sequences puts the real plane of the inverse transform of the pointwise product of
their padded spectra into `Y_RE` and the padded length into `NY`, and ends with `OK`; nothing else but `Y_IM` changes. -/
def Obligations.ConvWritesConvolution : Prop :=
  ∀ (s : State) (u v : List F64), u.length = s.naRe → v.length = s.nbRe → s.naRe + s.nbRe ≠ 0 →
    nextPow2 (s.naRe + s.nbRe) ≤ block.nMax → Cells.Holds s.xaRe u → Cells.Holds s.xbRe v →
      let n := nextPow2 (s.naRe + s.nbRe)
      let pad := fun q : List F64 =>
        (List.range n).map fun t => (⟨.bits (q.getD t 0#64), .bits 0#64⟩ : Cplx FVal)
      let product := List.zipWith cplxMul
        (fwdTransform block.trig n.log2 (pad u)) (fwdTransform block.trig n.log2 (pad v))
      let w := (invTransform block.trig n.log2 product).map Cplx.re
      ∃ t, exec .conv s = .next t ∧ w.length = n ∧ Cells.HoldsComputed t.yRe w ∧ t.ny = n ∧ t.status = 0#32 ∧
        OnlyPlaneResultChanged s t ∧ ∀ j, n ≤ j → Cells.read t.yRe j = Cells.read s.yRe j

/-- R161: the padded length is the least power of two that is at least `|u| + |v|`, and a `CONV` that ends with `OK` has
left it in `NY`. -/
def Obligations.PaddedLengthIsLeastPowerOfTwo : Prop :=
  (∀ m : Nat, 1 ≤ m →
      (∃ k, nextPow2 m = 2 ^ k) ∧ m ≤ nextPow2 m ∧ ∀ k, m ≤ 2 ^ k → nextPow2 m ≤ 2 ^ k) ∧
    ∀ s t : State, exec .conv s = .next t → t.status = 0#32 → t.ny = nextPow2 (s.naRe + s.nbRe)

/-- R169: `CONV` of an empty sequence and one element answers one element, a zero for a finite element and a NaN
otherwise. -/
def Obligations.ConvOfEmptyAndOneElement : Prop :=
  ∀ (s : State) (x : F64),
    (s.naRe = 0 ∧ s.nbRe = 1 ∧ Cells.read s.xbRe 0 = some x) ∨
      (s.naRe = 1 ∧ s.nbRe = 0 ∧ Cells.read s.xaRe 0 = some x) →
    ∃ t r, exec .conv s = .next t ∧ t.ny = 1 ∧ Cells.read t.yRe 0 = some r ∧
      ((FVal.bits x).IsFinite → (FVal.bits r).IsFinite ∧ (FVal.bits r).value = 0) ∧
      (¬ (FVal.bits x).IsFinite → (FVal.bits r).IsNaN)

/-- R166: after a `CONV` that ends with `OK` no element of `Y_IM` holds a specified value, and a host read of one returns
a free value. That the free value is one for each epoch of the result planes and index, and that the `CONV` has begun a
new epoch, is the model's choice, log entries 9 and 11. -/
def Obligations.ConvLeavesImaginaryUnspecified : Prop :=
  ∀ s t : State, exec .conv s = .next t → t.status = 0#32 →
    t.yEpoch = s.yEpoch + 1 ∧ ∀ j, j < block.nMax →
      hostMove block (.readPlane .yIm j) t =
        .next { t with readData := some (.real (Config.yImUnspecified t.yEpoch j)) }

/-! ### bigint_multiply_carry_propagator -/

/-- R181: `BMUL` with an empty operand returns the one byte `0x00`, whatever the other operand holds; nothing else
changes. -/
def Obligations.BmulOfEmptyOperandIsZero : Prop :=
  ∀ s : State, s.nba = 0 ∨ s.nbb = 0 → ∃ t, exec .bmul s = .next t ∧
    Cells.read t.byBuf 0 = some 0x00#8 ∧ t.nby = 1 ∧ t.status = 0#32 ∧ OnlyByteResultChanged s t ∧
    ∀ j, 1 ≤ j → Cells.read t.byBuf j = Cells.read s.byBuf j

/-- R182: with both operands non-empty, a first byte `>= 0x80` in either raises `InvalidInput` and changes nothing
else. -/
def Obligations.BmulRejectsNegativeOperand : Prop :=
  ∀ (s : State) (a b : Byte), s.nba ≠ 0 → s.nbb ≠ 0 → Cells.read s.ba 0 = some a → Cells.read s.bb 0 = some b →
    0x80 ≤ a.toNat ∨ 0x80 ≤ b.toNat → exec .bmul s = .next { s with status := 3#32 }

/-- R183, for every value of the parameters: non-negative operands of more than `MAX_TOTAL_BYTES` bytes in all raise
`PrecisionExceeded`; otherwise a product length above `N_MAX` raises `InvalidLength`; nothing else changes, and no byte
but the two first ones is read. The block's `BMUL` is the one with the block's parameters. -/
def Obligations.BmulLengthLimits : Prop :=
  (∀ (p : Params) (s : State) (a b : Byte), s.nba ≠ 0 → s.nbb ≠ 0 →
      Cells.read s.ba 0 = some a → Cells.read s.bb 0 = some b → a.toNat < 0x80 → b.toNat < 0x80 →
      p.maxTotalBytes < s.nba + s.nbb ∨ p.nMax < nextPow2 (s.nba + s.nbb) →
        bmulWith p s = .next { s with status := if p.maxTotalBytes < s.nba + s.nbb then 2#32 else 1#32 }) ∧
    ∀ s : State, exec .bmul s = bmulWith block s

/-- R180, for every value of the parameters: `BMUL` of two written, non-empty, non-negative operands within the limits,
whose convolution rounds to the integers `r`, writes the bytes the carry propagation of `r` emits, `L` of them, and ends
with `OK`; nothing else changes. The block's `BMUL` is the one with the block's parameters. -/
def Obligations.BmulWritesProductBytes : Prop :=
  (∀ (p : Params) (s : State) (a b : Byte) (as bs : List Byte) (r : List Int),
    (a :: as).length = s.nba → (b :: bs).length = s.nbb → Cells.Holds s.ba (a :: as) → Cells.Holds s.bb (b :: bs) →
    a.toNat < 0x80 → b.toNat < 0x80 → s.nba + s.nbb ≤ p.maxTotalBytes → nextPow2 (s.nba + s.nbb) ≤ p.nMax →
    roundAll (convolve p.trig (coefficients p.coefSigned (a :: as)) (coefficients p.coefSigned (b :: bs))) = some r →
      let out := propagateCarries r
      ∃ t, bmulWith p s = .next t ∧ out.length = nextPow2 (s.nba + s.nbb) ∧ Cells.Holds t.byBuf out ∧
        t.nby = nextPow2 (s.nba + s.nbb) ∧ t.status = 0#32 ∧ OnlyByteResultChanged s t ∧
        ∀ j, nextPow2 (s.nba + s.nbb) ≤ j → Cells.read t.byBuf j = Cells.read s.byBuf j) ∧
    ∀ s : State, exec .bmul s = bmulWith block s

/-- R187, for every value of the parameters: a convolution coefficient that is NaN or infinite raises
`PrecisionExceeded` and changes nothing else. -/
def Obligations.BmulRejectsNonFiniteCoefficient : Prop :=
  ∀ (p : Params) (s : State) (a b : Byte) (as bs : List Byte),
    (a :: as).length = s.nba → (b :: bs).length = s.nbb → Cells.Holds s.ba (a :: as) → Cells.Holds s.bb (b :: bs) →
    a.toNat < 0x80 → b.toNat < 0x80 → s.nba + s.nbb ≤ p.maxTotalBytes → nextPow2 (s.nba + s.nbb) ≤ p.nMax →
    (∃ x ∈ convolve p.trig (coefficients p.coefSigned (a :: as)) (coefficients p.coefSigned (b :: bs)),
      ¬ x.IsFinite) →
        bmulWith p s = .next { s with status := 2#32 }

/-- R196, for every value of the parameters whose limits admit them (R183): one-byte operands below `0x80` go through
the transforms and give the two bytes of their product. The block's `BMUL` is the one with the block's parameters. -/
def Obligations.BmulOfOneByteOperands : Prop :=
  (∀ (p : Params) (s : State) (a b : Byte), 2 ≤ p.maxTotalBytes → 2 ≤ p.nMax → s.nba = 1 → s.nbb = 1 →
    Cells.read s.ba 0 = some a → Cells.read s.bb 0 = some b → a.toNat < 0x80 → b.toNat < 0x80 →
      ∃ t, bmulWith p s = .next t ∧ t.status = 0#32 ∧ t.nby = 2 ∧
        Cells.read t.byBuf 0 = some (BitVec.ofNat 8 (a.toNat * b.toNat / 256)) ∧
        Cells.read t.byBuf 1 = some (BitVec.ofNat 8 (a.toNat * b.toNat % 256))) ∧
    ∀ s : State, exec .bmul s = bmulWith block s

/-- R198: exchanging the two operands of `BMUL` gives the same status, the same length and the same bytes. -/
def Obligations.BmulCommutes : Prop :=
  ∀ s t u : State, exec .bmul s = .next t →
    exec .bmul { s with ba := s.bb, nba := s.nbb, bb := s.ba, nbb := s.nba } = .next u →
      t.status = u.status ∧ t.nby = u.nby ∧ ∀ j, j < t.nby → Cells.read t.byBuf j = Cells.read u.byBuf j

/-- R188, R189: with `v i` the value of coefficient `i` once the carry from below is in it, output byte `L - 1 - i` is
`v i mod 256`, the carry into coefficient `i + 1` is the floor quotient `v i div 256`, and the top one is discarded:
the output has `L` bytes. -/
def Obligations.CarriesRunUpward : Prop :=
  ∀ (r v : Nat → Int) (n : Nat), v 0 = r 0 → (∀ i, v (i + 1) = r (i + 1) + Int.floor ((v i : ℚ) / 256)) →
    (propagateCarries ((List.range n).map r)).length = n ∧ ∀ i, i < n →
      ∃ b : Byte, (propagateCarries ((List.range n).map r))[n - 1 - i]? = some b ∧
        (b.toNat : Int) = v i - 256 * Int.floor ((v i : ℚ) / 256)

/-- R192's first half: the emitted bytes, read unsigned, are the value of the rounded coefficients at 256, modulo
`256^L`. -/
def Obligations.CarriesKeepValueModuloLength : Prop :=
  ∀ r : List Int,
    (uVal (propagateCarries r) : Int) =
      (∑ k ∈ Finset.range r.length, r.getD k 0 * 256 ^ k) % 256 ^ r.length

/-- R192, for every value of the parameters: under `ExactRound`, the bytes `BMUL` writes, read as two's complement, are
exactly `SVal(A) · SVal(B)`. The block's `BMUL` is the one with the block's parameters. -/
def Obligations.BmulIsProductOfSignedReadings : Prop :=
  (∀ (p : Params) (s : State) (a b : Byte) (as bs : List Byte),
    (a :: as).length = s.nba → (b :: bs).length = s.nbb → Cells.Holds s.ba (a :: as) → Cells.Holds s.bb (b :: bs) →
    a.toNat < 0x80 → b.toNat < 0x80 → s.nba + s.nbb ≤ p.maxTotalBytes → nextPow2 (s.nba + s.nbb) ≤ p.nMax →
    ExactRound p.trig p.coefSigned (a :: as) (b :: bs) →
      ∃ t out, bmulWith p s = .next t ∧ t.status = 0#32 ∧ out.length = t.nby ∧ Cells.Holds t.byBuf out ∧
        tVal out = sVal p.coefSigned (a :: as) * sVal p.coefSigned (b :: bs)) ∧
    ∀ s : State, exec .bmul s = bmulWith block s

/-- R193, for every value of the parameters: under `ExactRound`, the bytes `BMUL` writes are the true product of the
integers the non-negative operands stand for, if coefficients are unsigned or no byte of either operand is `>= 0x80`. The
block's `BMUL` is the one with the block's parameters, whose coefficients are signed. -/
def Obligations.BmulIsTrueProductOfLowBytes : Prop :=
  (∀ (p : Params) (s : State) (a b : Byte) (as bs : List Byte),
    (a :: as).length = s.nba → (b :: bs).length = s.nbb → Cells.Holds s.ba (a :: as) → Cells.Holds s.bb (b :: bs) →
    a.toNat < 0x80 → b.toNat < 0x80 →
    (p.coefSigned = true → (∀ x ∈ a :: as, x.toNat ≤ 0x7F) ∧ ∀ x ∈ b :: bs, x.toNat ≤ 0x7F) →
    s.nba + s.nbb ≤ p.maxTotalBytes → nextPow2 (s.nba + s.nbb) ≤ p.nMax →
    ExactRound p.trig p.coefSigned (a :: as) (b :: bs) →
      ∃ t out, bmulWith p s = .next t ∧ t.status = 0#32 ∧ out.length = t.nby ∧ Cells.Holds t.byBuf out ∧
        tVal out = tVal (a :: as) * tVal (b :: bs)) ∧
    block.coefSigned = true ∧ ∀ s : State, exec .bmul s = bmulWith block s

/-- R184: coefficient `t` is the coefficient of byte `N - 1 - t`, exactly; a byte `>= 0x80` is read as the byte minus
256 where coefficients are signed, and every byte as itself otherwise; this block's are signed. -/
def Obligations.CoefficientsReverseBytes : Prop :=
  block.coefSigned = true ∧ ∀ (signed : Bool) (bytes : List Byte) (t : Nat) (b : Byte), t < bytes.length →
    bytes[bytes.length - 1 - t]? = some b →
      ∃ x : FVal, (coefficients signed bytes)[t]? = some x ∧ x.IsFinite ∧
        x.value = if signed = true ∧ 0x80 ≤ b.toNat then (b.toNat : ℚ) - 256 else b.toNat

/-! ### The whole machine -/

/-- R32: no command writes an operand container, an operand length, `CA` or `CB`, whether it succeeds or fails. -/
def Obligations.OperandsAreNeverWritten : Prop :=
  ∀ (i : Instr) (s t : State), exec i s = .next t → SameOperands s t

/-- R32, R37: no command reads a result container, `CR`, `STATUS` or anything an earlier command left: two states with
the same operands (and the same draws to come) give the same outcome, status and results. -/
def Obligations.ResultsAreNeverRead : Prop :=
  ∀ (i : Instr) (s s' : State), SameOperands s s' → s.draws = s'.draws →
    match exec i s, exec i s' with
    | .next t, .next t' =>
      t.status = t'.status ∧ t.draws = t'.draws ∧
        (t.status = 0#32 →
          match i with
          | .cadd | .csub | .cmul | .crnd => t.cr = t'.cr
          | .fft | .ifft =>
            t.ny = t'.ny ∧ ∀ j, j < t.ny →
              Cells.read t.yRe j = Cells.read t'.yRe j ∧ Cells.read t.yIm j = Cells.read t'.yIm j
          | .conv => t.ny = t'.ny ∧ t.yIm = t'.yIm ∧ ∀ j, j < t.ny → Cells.read t.yRe j = Cells.read t'.yRe j
          | .bmul => t.nby = t'.nby ∧ ∀ j, j < t.nby → Cells.read t.byBuf j = Cells.read t'.byBuf j)
    | .fault r, .fault r' => r = r'
    | .refused r, .refused r' => r = r'
    | _, _ => False

/-- R228: when the word pending in `CMD`, legal or not, has ended with a code other than `OK`, nothing but `STATUS` has
changed (and the word is taken from `CMD`). -/
def Obligations.FailureChangesOnlyStatus : Prop :=
  ∀ (s t : State) (w : Word), s.cmd = some w → step s = .next t → t.status ≠ 0#32 →
    OnlyStatusChanged { s with cmd := none } t

/-- R220: the codes each word can end with; only a word that is no command ends with `IllegalCommand`, and the scalar
commands end with `OK`. -/
def Obligations.CodesOfEachCommand : Prop :=
  ∀ (s t : State) (w : Word), s.cmd = some w → step s = .next t →
    match decode w with
    | none => t.status = 4#32
    | some .cadd | some .csub | some .cmul | some .crnd => t.status = 0#32
    | some .fft | some .ifft | some .conv => t.status = 0#32 ∨ t.status = 1#32
    | some .bmul => t.status = 0#32 ∨ t.status = 1#32 ∨ t.status = 2#32 ∨ t.status = 3#32

/-- R110, R200, R203: what each command leaves alone when it answers a next state: outside its result containers, their
length, `STATUS` and the draw counter, every register and every element is as before. -/
def Obligations.CommandFrames : Prop :=
  ∀ (i : Instr) (s t : State), exec i s = .next t →
    match i with
    | .cadd | .csub | .cmul | .crnd => OnlyScalarResultChanged s t
    | .fft | .ifft =>
      OnlyPlaneResultChanged s t ∧
        ∀ j, t.ny ≤ j → Cells.read t.yRe j = Cells.read s.yRe j ∧ Cells.read t.yIm j = Cells.read s.yIm j
    | .conv => OnlyPlaneResultChanged s t ∧ ∀ j, t.ny ≤ j → Cells.read t.yRe j = Cells.read s.yRe j
    | .bmul => OnlyByteResultChanged s t ∧ ∀ j, t.nby ≤ j → Cells.read t.byBuf j = Cells.read s.byBuf j

/-- R38: a command whose length checks pass and whose rule reads an element that nothing has written has no meaning;
`BMUL` for every value of the parameters, the block's being the one with the block's. -/
def Obligations.UnwrittenOperandIsRefused : Prop :=
  (∀ s : State, (∃ k, s.naRe = 2 ^ k) → s.naRe ≤ block.nMax → ¬ Cells.Filled s.xaRe s.naRe →
      exec .fft s = .refused (.unwrittenElement .xaRe)) ∧
    (∀ s : State, (∃ k, s.naRe = 2 ^ k) → s.naIm = s.naRe → s.naRe ≤ block.nMax →
      ¬ (Cells.Filled s.xaRe s.naRe ∧ Cells.Filled s.xaIm s.naIm) →
        exec .ifft s = .refused (.unwrittenElement .xaRe) ∨ exec .ifft s = .refused (.unwrittenElement .xaIm)) ∧
    (∀ s : State, s.naRe + s.nbRe ≠ 0 → nextPow2 (s.naRe + s.nbRe) ≤ block.nMax →
      ¬ (Cells.Filled s.xaRe s.naRe ∧ Cells.Filled s.xbRe s.nbRe) →
        exec .conv s = .refused (.unwrittenElement .xaRe) ∨ exec .conv s = .refused (.unwrittenElement .xbRe)) ∧
    (∀ (p : Params) (s : State), s.nba ≠ 0 → s.nbb ≠ 0 → s.nba + s.nbb ≤ p.maxTotalBytes →
      nextPow2 (s.nba + s.nbb) ≤ p.nMax →
      (∀ a, Cells.read s.ba 0 = some a → a.toNat < 0x80) → (∀ b, Cells.read s.bb 0 = some b → b.toNat < 0x80) →
      ¬ (Cells.Filled s.ba s.nba ∧ Cells.Filled s.bb s.nbb) →
        bmulWith p s = .refused (.unwrittenByte .ba) ∨ bmulWith p s = .refused (.unwrittenByte .bb)) ∧
    ∀ s : State, exec .bmul s = bmulWith block s

/-! ### Reset and the host -/

/-- What R39 says of a state after reset: `STATUS` and the lengths 0, no element of any plane or buffer with a value,
nothing pending. -/
def IsAsAfterReset (s : State) : Prop :=
  s.status = 0#32 ∧ (∀ p, s.planeLength p = 0) ∧ (∀ b, s.bufferLength b = 0) ∧
    (∀ p j, Cells.read (s.plane p) j = none) ∧ (∀ b j, Cells.read (s.buffer b) j = none) ∧ s.cmd = none

/-- R39, R250: what reset leaves, in the state the machine starts in and in the state after the host's reset move from
any state. That the move gives `CA`, `CB` and `CR` their values of the start, and keeps the model's own fields but the
epochs, is the model's choice, log entries 1 and 16. -/
def Obligations.ResetLeavesSpecifiedState : Prop :=
  IsAsAfterReset State.reset ∧
    ∀ s : State, ∃ t, hostMove block .reset s = .next t ∧ IsAsAfterReset t ∧
      t = { State.reset with
        script := s.script, readData := s.readData, draws := s.draws, yEpoch := t.yEpoch, byEpoch := t.byEpoch }

/-- R253's last paragraph: straight after reset `FFT`, `IFFT` and `CONV` raise `InvalidLength` and `BMUL` returns the
one byte `0x00`. -/
def Obligations.FirstCommandAfterReset : Prop :=
  (∀ i ∈ [Instr.fft, Instr.ifft, Instr.conv],
      step (State.reset.withFetchWord 32 (encode i).toNat) = .next { State.reset with status := 1#32 }) ∧
    ∃ t, step (State.reset.withFetchWord 32 (encode .bmul).toNat) = .next t ∧
      t = { State.reset with byBuf := [(0, 0x00#8)], nby := 1, byEpoch := t.byEpoch }

/-- The state after reset meets the invariant. -/
def Obligations.ResetMeetsInvariant : Prop := State.reset.Inv

/-- Every step, a command's or a host move's, keeps the invariant, from every state that meets it. -/
def Obligations.StepKeepsInvariant : Prop := ∀ s t : State, s.Inv → step s = .next t → t.Inv

/-- R40, R76: a host write takes effect and changes nothing else. What is written to an operand element is what a read of
it returns; a length register at or below `N_MAX` and a field of `CA` or `CB` take the value; `SET BUF` writes the
elements from 0 on, and `COPY` writes to the destination what a host read of each source element below the source's
length returns; neither touches a length register. -/
def Obligations.HostWritesTakeEffect : Prop :=
  (∀ (s : State) (n : OperandPlane) (j : Nat) (v : F64), j < block.nMax →
      ∃ t, hostMove block (.writePlane n j v) s = .next t ∧
        hostMove block (.readPlane n.name j) t = .next { t with readData := some (.real v) } ∧
        (∀ k, k ≠ j → Cells.read (t.plane n.name) k = Cells.read (s.plane n.name) k) ∧
        OnlyOperandPlaneChanged n s t) ∧
    (∀ (s : State) (n : OperandBuffer) (j : Nat) (v : Byte), j < block.nMax →
      ∃ t, hostMove block (.writeByte n j v) s = .next t ∧
        hostMove block (.readByte n.name j) t = .next { t with readData := some (.byte v) } ∧
        (∀ k, k ≠ j → Cells.read (t.buffer n.name) k = Cells.read (s.buffer n.name) k) ∧
        OnlyOperandBufferChanged n s t) ∧
    (∀ (s : State) (v : Nat), v ≤ block.nMax →
      hostMove block (.setLength .naRe v) s = .next { s with naRe := v } ∧
        hostMove block (.setLength .naIm v) s = .next { s with naIm := v } ∧
        hostMove block (.setLength .nbRe v) s = .next { s with nbRe := v } ∧
        hostMove block (.setLength .nba v) s = .next { s with nba := v } ∧
        hostMove block (.setLength .nbb v) s = .next { s with nbb := v }) ∧
    (∀ (s : State) (v : F64),
      hostMove block (.setField .caRe v) s = .next { s with ca := ⟨v, s.ca.im⟩ } ∧
        hostMove block (.setField .caIm v) s = .next { s with ca := ⟨s.ca.re, v⟩ } ∧
        hostMove block (.setField .cbRe v) s = .next { s with cb := ⟨v, s.cb.im⟩ } ∧
        hostMove block (.setField .cbIm v) s = .next { s with cb := ⟨s.cb.re, v⟩ }) ∧
    (∀ (s : State) (n : OperandPlane) (vs : List F64), vs.length ≤ block.nMax →
      ∃ t, hostMove block (.setPlane n vs) s = .next t ∧ Cells.Holds (t.plane n.name) vs ∧
        (∀ k, vs.length ≤ k → Cells.read (t.plane n.name) k = Cells.read (s.plane n.name) k) ∧
        OnlyOperandPlaneChanged n s t) ∧
    (∀ (s : State) (n : OperandBuffer) (vs : List Byte), vs.length ≤ block.nMax →
      ∃ t, hostMove block (.setBuffer n vs) s = .next t ∧ Cells.Holds (t.buffer n.name) vs ∧
        (∀ k, vs.length ≤ k → Cells.read (t.buffer n.name) k = Cells.read (s.buffer n.name) k) ∧
        OnlyOperandBufferChanged n s t) ∧
    (∀ (s : State) (dst : OperandPlane) (src : PlaneName) (v : Nat → F64),
      (∀ j, j < s.planeLength src →
        hostMove block (.readPlane src j) s = .next { s with readData := some (.real (v j)) }) →
      ∃ t, hostMove block (.copyPlane dst src) s = .next t ∧
        (∀ j, j < s.planeLength src → Cells.read (t.plane dst.name) j = some (v j)) ∧
        (∀ k, s.planeLength src ≤ k → Cells.read (t.plane dst.name) k = Cells.read (s.plane dst.name) k) ∧
        OnlyOperandPlaneChanged dst s t) ∧
    ∀ (s : State) (dst : OperandBuffer) (src : BufferName) (v : Nat → Byte),
      (∀ j, j < s.bufferLength src →
        hostMove block (.readByte src j) s = .next { s with readData := some (.byte (v j)) }) →
      ∃ t, hostMove block (.copyBuffer dst src) s = .next t ∧
        (∀ j, j < s.bufferLength src → Cells.read (t.buffer dst.name) j = some (v j)) ∧
        (∀ k, s.bufferLength src ≤ k → Cells.read (t.buffer dst.name) k = Cells.read (s.buffer dst.name) k) ∧
        OnlyOperandBufferChanged dst s t

/-- R40, R55, R59(b): a host read of a register returns the register; of an element that holds a value, in a result
container below its length register, that value; and of an element of a result container at or above its length register
a free value, one for each epoch of the container and index, which is the model's choice, log entry 9. No read has a side
effect on the block, and every read is idempotent: made again it returns the same. -/
def Obligations.HostReadsReturnWhatIsHeld : Prop :=
  (∀ s : State, ∀ r ∈ [(ReadableRegister.status, HostDatum.word s.status), (.naRe, .length s.naRe),
        (.naIm, .length s.naIm), (.nbRe, .length s.nbRe), (.ny, .length s.ny), (.nba, .length s.nba),
        (.nbb, .length s.nbb), (.nby, .length s.nby), (.caRe, .real s.ca.re), (.caIm, .real s.ca.im),
        (.cbRe, .real s.cb.re), (.cbIm, .real s.cb.im), (.crRe, .real s.cr.re), (.crIm, .real s.cr.im)],
      hostMove block (.readRegister r.1) s = .next { s with readData := some r.2 }) ∧
    (∀ (s : State) (n : PlaneName) (j : Nat) (v : F64), j < block.nMax → Cells.read (s.plane n) j = some v →
      (n = .yRe ∨ n = .yIm → j < s.ny) →
        hostMove block (.readPlane n j) s = .next { s with readData := some (.real v) }) ∧
    (∀ (s : State) (n : BufferName) (j : Nat) (v : Byte), j < block.nMax → Cells.read (s.buffer n) j = some v →
      (n = .byBuf → j < s.nby) →
        hostMove block (.readByte n j) s = .next { s with readData := some (.byte v) }) ∧
    (∀ (s : State) (j : Nat), j < block.nMax → s.ny ≤ j →
      hostMove block (.readPlane .yRe j) s =
          .next { s with readData := some (.real (Config.yReUnspecified s.yEpoch j)) } ∧
        hostMove block (.readPlane .yIm j) s =
          .next { s with readData := some (.real (Config.yImUnspecified s.yEpoch j)) }) ∧
    (∀ (s : State) (j : Nat), j < block.nMax → s.nby ≤ j →
      hostMove block (.readByte .byBuf j) s =
        .next { s with readData := some (.byte (Config.byUnspecified s.byEpoch j)) }) ∧
    ∀ (s t : State) (a : HostAction),
      (∃ r, a = .readRegister r) ∨ (∃ n j, a = .readPlane n j) ∨ (∃ n j, a = .readByte n j) →
        hostMove block a s = .next t → t = { s with readData := t.readData } ∧ hostMove block a t = .next t

/-- R27, R54: the host's access to an element index that is not below `N_MAX` is refused, and so is its write of a length
above `N_MAX`. -/
def Obligations.HostStopsBeyondCapacity : Prop :=
  (∀ (s : State) (p : OperandPlane) (j : Nat) (v : F64), block.nMax ≤ j →
      hostMove block (.writePlane p j v) s = .refused (.noSuchElement p.name j)) ∧
    (∀ (s : State) (p : PlaneName) (j : Nat), block.nMax ≤ j →
      hostMove block (.readPlane p j) s = .refused (.noSuchElement p j)) ∧
    (∀ (s : State) (b : OperandBuffer) (j : Nat) (v : Byte), block.nMax ≤ j →
      hostMove block (.writeByte b j v) s = .refused (.noSuchByte b.name j)) ∧
    (∀ (s : State) (b : BufferName) (j : Nat), block.nMax ≤ j →
      hostMove block (.readByte b j) s = .refused (.noSuchByte b j)) ∧
    ∀ (s : State) (r : OperandLength) (v : Nat), block.nMax < v →
      hostMove block (.setLength r v) s = .refused (.lengthAboveCapacity r v)
end

