-- ==== Sys2Proof/Laws/Cells.lean ====
section
/-! SUPPORT. The laws of a container's cells: what a write leaves to be read, and that every operation keeps the
canonical form. -/

namespace Sys2Proof.Machine

variable {w : Nat}

@[simp] theorem Cells.read_nil (j : Nat) : Cells.read ([] : Cells w) j = none := rfl

/-- A read of the element written gives the value written. -/
@[simp] theorem Cells.read_write_same (c : Cells w) (j : Nat) (v : BitVec w) :
    Cells.read (Cells.write c j v) j = some v := by
  induction c with
  | nil => simp [Cells.write, Cells.read]
  | cons head rest ih =>
    obtain ⟨a, u⟩ := head
    simp only [Cells.write]
    split
    · simp [Cells.read]
    · split
      · simp [Cells.read]
      · rename_i h₁ h₂
        simp [Cells.read, Ne.symm h₂, ih]

/-- A write leaves every other element as it was. -/
theorem Cells.read_write_of_ne (c : Cells w) {j k : Nat} (v : BitVec w) (h : k ≠ j) :
    Cells.read (Cells.write c j v) k = Cells.read c k := by
  induction c with
  | nil => simp [Cells.write, Cells.read, Ne.symm h]
  | cons head rest ih =>
    obtain ⟨a, u⟩ := head
    simp only [Cells.write]
    split
    · simp [Cells.read, Ne.symm h]
    · split
      · rename_i h₁ h₂
        subst h₂
        simp [Cells.read, Ne.symm h]
      · simp [Cells.read, ih]

/-- An element below the start of a run of writes is as it was. -/
theorem Cells.read_writeFrom_below (vs : List (BitVec w)) (c : Cells w) {start j : Nat} (h : j < start) :
    Cells.read (Cells.writeFrom c start vs) j = Cells.read c j := by
  induction vs generalizing c start with
  | nil => rfl
  | cons v vs ih =>
    simp only [Cells.writeFrom]
    rw [ih _ (by omega), Cells.read_write_of_ne _ _ (by omega)]

/-- An element past the end of a run of writes is as it was. -/
theorem Cells.read_writeFrom_above (vs : List (BitVec w)) (c : Cells w) {start j : Nat} (h : start + vs.length ≤ j) :
    Cells.read (Cells.writeFrom c start vs) j = Cells.read c j := by
  induction vs generalizing c start with
  | nil => rfl
  | cons v vs ih =>
    simp only [List.length_cons] at h
    simp only [Cells.writeFrom]
    rw [ih _ (by omega), Cells.read_write_of_ne _ _ (by omega)]

/-- The elements of a run of writes read as the values written. -/
theorem Cells.read_writeFrom (vs : List (BitVec w)) (c : Cells w) (start i : Nat) (h : i < vs.length) :
    Cells.read (Cells.writeFrom c start vs) (start + i) = some vs[i] := by
  induction vs generalizing c start i with
  | nil => simp at h
  | cons v vs ih =>
    simp only [Cells.writeFrom]
    cases i with
    | zero => rw [Nat.add_zero, Cells.read_writeFrom_below _ _ (by omega)]; simp
    | succ i =>
      have := ih (Cells.write c start v) (start + 1) i (by simpa using h)
      rw [show start + (i + 1) = start + 1 + i by omega, this]
      rfl

/-- A rising list stays rising above any lower bound. -/
theorem Cells.risingFrom_mono {c : Cells w} {low low' : Nat} (hl : low' ≤ low) (h : Cells.risingFrom low c = true) :
    Cells.risingFrom low' c = true := by
  cases c with
  | nil => rfl
  | cons head rest =>
    simp only [Cells.risingFrom, Bool.and_eq_true, decide_eq_true_eq] at h ⊢
    exact ⟨hl.trans h.1, h.2⟩

/-- A write at or above the bound keeps a list rising. -/
theorem Cells.risingFrom_write {c : Cells w} {low j : Nat} (v : BitVec w) (hj : low ≤ j)
    (h : Cells.risingFrom low c = true) : Cells.risingFrom low (Cells.write c j v) = true := by
  induction c generalizing low with
  | nil => simp [Cells.write, Cells.risingFrom, hj]
  | cons head rest ih =>
    obtain ⟨a, u⟩ := head
    simp only [Cells.risingFrom, Bool.and_eq_true, decide_eq_true_eq] at h
    simp only [Cells.write]
    split
    · simp only [Cells.risingFrom, Bool.and_eq_true, decide_eq_true_eq]
      exact ⟨hj, by omega, h.2⟩
    · split
      · rename_i h₁ h₂
        subst h₂
        simp [Cells.risingFrom, hj, h.2]
      · simp only [Cells.risingFrom, Bool.and_eq_true, decide_eq_true_eq]
        exact ⟨h.1, ih (by omega) h.2⟩

/-- A write keeps the canonical form. -/
theorem Cells.wf_write {c : Cells w} (j : Nat) (v : BitVec w) (h : Cells.wf c = true) :
    Cells.wf (Cells.write c j v) = true := Cells.risingFrom_write v (Nat.zero_le j) h

/-- A run of writes keeps the canonical form. -/
theorem Cells.wf_writeFrom (vs : List (BitVec w)) {c : Cells w} (start : Nat) (h : Cells.wf c = true) :
    Cells.wf (Cells.writeFrom c start vs) = true := by
  induction vs generalizing c start with
  | nil => exact h
  | cons v vs ih => exact ih _ (Cells.wf_write _ _ h)

/-- What reading a run of elements says: as many values as asked for, each the element's own. -/
theorem Cells.readFrom_eq_some (c : Cells w) (start count : Nat) (vs : List (BitVec w)) :
    Cells.readFrom c start count = some vs ↔
      vs.length = count ∧ ∀ i (h : i < vs.length), Cells.read c (start + i) = some vs[i] := by
  induction count generalizing start vs with
  | zero =>
    simp only [Cells.readFrom, Option.some.injEq]
    constructor
    · rintro rfl
      simp
    · intro h
      exact (List.eq_nil_of_length_eq_zero h.1).symm
  | succ n ih =>
    simp only [Cells.readFrom]
    constructor
    · intro h
      split at h
      · rename_i v vs' h₁ h₂
        obtain rfl := Option.some.inj h
        obtain ⟨hl, hr⟩ := (ih (start + 1) vs').1 h₂
        refine ⟨by simp [hl], fun i hi => ?_⟩
        cases i with
        | zero => simpa using h₁
        | succ i =>
          rw [show start + (i + 1) = start + 1 + i by omega]
          exact hr i (by simpa using hi)
      · cases h
    · rintro ⟨hl, hr⟩
      cases vs with
      | nil => simp at hl
      | cons v vs' =>
        have h₁ : Cells.read c start = some v := hr 0 (by simp)
        have h₂ : Cells.readFrom c (start + 1) n = some vs' := by
          refine (ih _ _).2 ⟨by simpa using hl, fun i hi => ?_⟩
          have := hr (i + 1) (by simpa using hi)
          rw [show start + 1 + i = start + (i + 1) by omega, this]
          rfl
        rw [h₁, h₂]

/-- The elements asked for all hold a value exactly when the run can be read. -/
theorem Cells.readFrom_isSome (c : Cells w) (start count : Nat) :
    (Cells.readFrom c start count).isSome ↔ ∀ i, i < count → (Cells.read c (start + i)).isSome := by
  induction count generalizing start with
  | zero => simp [Cells.readFrom]
  | succ n ih =>
    have step : (Cells.readFrom c start (n + 1)).isSome ↔
        (Cells.read c start).isSome ∧ (Cells.readFrom c (start + 1) n).isSome := by
      simp only [Cells.readFrom]
      cases Cells.read c start <;> cases Cells.readFrom c (start + 1) n <;> simp
    rw [step, ih]
    constructor
    · rintro ⟨h₀, h⟩ i hi
      cases i with
      | zero => exact h₀
      | succ i =>
        rw [show start + (i + 1) = start + 1 + i by omega]
        exact h i (by omega)
    · intro h
      refine ⟨h 0 (by omega), fun i hi => ?_⟩
      rw [show start + 1 + i = start + (i + 1) by omega]
      exact h (i + 1) (by omega)

/-- The memory after reset is in canonical form. -/
theorem Memory.wf_reset : Memory.wf State.reset = true := rfl

end Sys2Proof.Machine
end

