-- ==== Sys2Proof/Laws/Float.lean ====
section
/-! SUPPORT. Small lemmas of the binary64 arithmetic: the bits a sign and a magnitude make, what an operation answers
on each kind of operand, commutativity, and that a drawn NaN is a NaN. -/

namespace Sys2Proof.Machine

/-! ### Bit fields -/

theorem toNat_withSign (neg : Bool) (m : Nat) (h : m < 2 ^ 63) :
    (withSign neg m).toNat = (if neg then 2 ^ 63 else 0) + m := by
  unfold withSign
  rw [BitVec.toNat_append, BitVec.toNat_ofNat, Nat.mod_eq_of_lt h, ← Nat.shiftLeft_add_eq_or_of_lt h]
  cases neg <;> simp [Nat.shiftLeft_eq]

theorem exponentField_eq (b : F64) : exponentField b = b.toNat / 2 ^ 52 % 2 ^ 11 := by
  simp [exponentField, BitVec.extractLsb'_toNat, Nat.shiftRight_eq_div_pow]

theorem fractionField_eq (b : F64) : fractionField b = b.toNat % 2 ^ 52 := by
  simp [fractionField, BitVec.extractLsb'_toNat]

theorem signBit_eq (b : F64) : signBit b = decide (2 ^ 63 ≤ b.toNat) := by
  have hb : b.toNat < 2 ^ 64 := b.isLt
  unfold signBit BitVec.getLsbD
  rw [Nat.testBit_eq_decide_div_mod_eq]
  refine decide_eq_decide.2 ?_
  omega

@[simp] theorem signBit_withSign (neg : Bool) (m : Nat) (h : m < 2 ^ 63) : signBit (withSign neg m) = neg := by
  rw [signBit_eq, toNat_withSign neg m h]
  cases neg <;> simp; omega

theorem exponentField_withSign (neg : Bool) (m : Nat) (h : m < 2 ^ 63) :
    exponentField (withSign neg m) = m / 2 ^ 52 := by
  rw [exponentField_eq, toNat_withSign neg m h]
  cases neg <;> simp <;> omega

theorem fractionField_withSign (neg : Bool) (m : Nat) (h : m < 2 ^ 63) :
    fractionField (withSign neg m) = m % 2 ^ 52 := by
  rw [fractionField_eq, toNat_withSign neg m h]
  cases neg <;> simp; omega

theorem infMagnitude_lt : infMagnitude < 2 ^ 63 := by decide

/-- What a magnitude below infinity's denotes. -/
theorem unpackBits_withSign (neg : Bool) (m : Nat) (h : m < infMagnitude) :
    unpackBits (withSign neg m) = .finite neg (finiteUnits (m / 2 ^ 52) (m % 2 ^ 52)) := by
  have h63 : m < 2 ^ 63 := h.trans infMagnitude_lt
  unfold unpackBits
  rw [exponentField_withSign neg m h63, fractionField_withSign neg m h63, signBit_withSign neg m h63]
  unfold infMagnitude at h
  rw [if_neg (by omega)]

@[simp] theorem unpackBits_infBits (neg : Bool) : unpackBits (infBits neg) = .inf neg := by
  cases neg <;> decide +kernel

theorem roundMagnitude_le (num den : Nat) : roundMagnitude num den ≤ infMagnitude := Nat.min_le_right _ _

/-- A rounded quotient is a finite value or an infinity, and its sign is the one given. -/
theorem unpack_roundToF64 (neg : Bool) (num den : Nat) :
    (∃ u, unpack (roundToF64 neg num den) = .finite neg u) ∨
      (roundToF64 neg num den = .bits (infBits neg) ∧ unpack (roundToF64 neg num den) = .inf neg) := by
  rcases Nat.lt_or_ge (roundMagnitude num den) infMagnitude with h | h
  · exact .inl ⟨_, unpackBits_withSign neg _ h⟩
  · have e : roundMagnitude num den = infMagnitude := Nat.le_antisymm (roundMagnitude_le _ _) h
    have r : roundToF64 neg num den = .bits (infBits neg) := by unfold roundToF64 infBits; rw [e]
    exact .inr ⟨r, by rw [r]; exact unpackBits_infBits neg⟩

/-! ### NaN -/

@[simp] theorem unpack_nanResult : unpack .nanResult = .nan := rfl

@[simp] theorem unpack_bits (b : F64) : unpack (.bits b) = unpackBits b := rfl

theorem isNaNBits_iff (b : F64) : isNaNBits b = true ↔ unpackBits b = .nan := by
  unfold isNaNBits; exact beq_iff_eq

theorem toNat_nanBits (sign : BitVec 1) (fraction : BitVec 52) :
    (nanBits sign fraction).toNat =
      sign.toNat * 2 ^ 63 + 2047 * 2 ^ 52 + (if fraction = 0#52 then 1 else fraction.toNat) := by
  unfold nanBits
  generalize hf : (if fraction = 0#52 then 1#52 else fraction) = f
  have hn : (if fraction = 0#52 then 1 else fraction.toNat) = f.toNat := by
    subst hf; split <;> simp
  have h1 : (2047#11 : BitVec 11).toNat = 2047 := rfl
  rw [hn, BitVec.toNat_append, BitVec.toNat_append, ← Nat.shiftLeft_add_eq_or_of_lt f.isLt,
    ← Nat.shiftLeft_add_eq_or_of_lt (2047#11 : BitVec 11).isLt, h1, Nat.shiftLeft_eq, Nat.shiftLeft_eq]
  omega

/-- A drawn NaN is a NaN, whatever the draw (R106). -/
theorem unpackBits_nanBits (sign : BitVec 1) (fraction : BitVec 52) : unpackBits (nanBits sign fraction) = .nan := by
  have ht := toNat_nanBits sign fraction
  have hs := sign.isLt
  have hf := fraction.isLt
  have hpos : 0 < (if fraction = 0#52 then 1 else fraction.toNat) ∧
      (if fraction = 0#52 then 1 else fraction.toNat) < 2 ^ 52 := by
    split
    · omega
    · rename_i h
      refine ⟨Nat.pos_of_ne_zero fun e => h ?_, hf⟩
      exact BitVec.eq_of_toNat_eq (by simpa using e)
  generalize (if fraction = 0#52 then 1 else fraction.toNat) = f at ht hpos
  unfold unpackBits
  rw [exponentField_eq, fractionField_eq, ht, if_pos (by omega), if_neg (by omega)]

theorem isNaNBits_nanDraw (p : Params) (k : Nat) : isNaNBits (p.nanDraw k) = true :=
  (isNaNBits_iff _).2 (unpackBits_nanBits _ _)

/-- A sum with a NaN operand is a NaN result (R106). -/
theorem fadd_of_nan_left {x : FVal} (y : FVal) (h : unpack x = .nan) : fadd x y = .nanResult := by
  unfold fadd; rw [h]

theorem fadd_of_nan_right (x : FVal) {y : FVal} (h : unpack y = .nan) : fadd x y = .nanResult := by
  unfold fadd; rw [h]; cases unpack x <;> rfl

/-- A product with a NaN operand is a NaN result (R106). -/
theorem fmul_of_nan_left {x : FVal} (y : FVal) (h : unpack x = .nan) : fmul x y = .nanResult := by
  unfold fmul; rw [h]

theorem fmul_of_nan_right (x : FVal) {y : FVal} (h : unpack y = .nan) : fmul x y = .nanResult := by
  unfold fmul; rw [h]; cases unpack x <;> rfl

/-! ### Finite operands -/

theorem fadd_of_finite {x y : FVal} {na nb : Bool} {a b : Nat} (hx : unpack x = .finite na a)
    (hy : unpack y = .finite nb b) : fadd x y = addFinite na a nb b := by
  unfold fadd; rw [hx, hy]

theorem fmul_of_finite {x y : FVal} {na nb : Bool} {a b : Nat} (hx : unpack x = .finite na a)
    (hy : unpack y = .finite nb b) : fmul x y = roundToF64 (na ^^ nb) (a * b) unitsPerOne := by
  unfold fmul; rw [hx, hy]

theorem fdiv_of_finite {x y : FVal} {na nb : Bool} {a b : Nat} (hx : unpack x = .finite na a)
    (hy : unpack y = .finite nb b) (h : b ≠ 0) : fdiv x y = roundToF64 (na ^^ nb) (a * unitsPerOne) b := by
  unfold fdiv; rw [hx, hy]; exact if_neg h

theorem signBit_flip (b : F64) : signBit (b ^^^ (1#64 <<< 63)) = !signBit b := by
  unfold signBit
  have : (1#64 <<< 63).getLsbD 63 = true := by decide
  rw [BitVec.getLsbD_xor, this]
  cases b.getLsbD 63 <;> rfl

theorem exponentField_flip (b : F64) : exponentField (b ^^^ (1#64 <<< 63)) = exponentField b := by
  have : (1#64 <<< 63).extractLsb' 52 11 = 0#11 := by decide
  unfold exponentField
  rw [BitVec.extractLsb'_xor, this, BitVec.xor_zero]

theorem fractionField_flip (b : F64) : fractionField (b ^^^ (1#64 <<< 63)) = fractionField b := by
  have : (1#64 <<< 63).extractLsb' 0 52 = 0#52 := by decide
  unfold fractionField
  rw [BitVec.extractLsb'_xor, this, BitVec.xor_zero]

/-- `fneg` flips the sign and keeps the magnitude (R145). -/
theorem unpack_fneg (x : FVal) :
    unpack (fneg x) = match unpack x with
      | .nan => .nan
      | .inf neg => .inf (!neg)
      | .finite neg units => .finite (!neg) units := by
  cases x with
  | nanResult => rfl
  | bits b =>
    simp only [fneg, unpack, unpackBits, exponentField_flip, fractionField_flip, signBit_flip]
    by_cases he : exponentField b = 2047
    · by_cases hf : fractionField b = 0 <;> simp only [he, hf, if_true, if_false]
    · simp only [he, if_false]

/-! ### Commutativity (R102) -/

theorem addFinite_comm (na : Bool) (a : Nat) (nb : Bool) (b : Nat) : addFinite na a nb b = addFinite nb b na a := by
  unfold addFinite
  rw [Int.add_comm, Bool.and_comm]

/-- `fadd` is commutative, a NaN result included, since its bits are not drawn yet. -/
theorem fadd_comm (x y : FVal) : fadd x y = fadd y x := by
  unfold fadd
  rcases unpack x with _ | a | ⟨na, a⟩
  · rcases unpack y with _ | b | ⟨nb, b⟩ <;> rfl
  · rcases unpack y with _ | b | ⟨nb, b⟩
    · rfl
    · by_cases h : a = b
      · subst h; rfl
      · simp only [h, Ne.symm h, if_false]
    · rfl
  · rcases unpack y with _ | b | ⟨nb, b⟩
    · rfl
    · rfl
    · exact addFinite_comm na a nb b

/-- `fmul` is commutative, a NaN result included. -/
theorem fmul_comm (x y : FVal) : fmul x y = fmul y x := by
  unfold fmul
  rcases unpack x with _ | a | ⟨na, a⟩ <;> rcases unpack y with _ | b | ⟨nb, b⟩ <;>
    simp only [Bool.xor_comm, Nat.mul_comm]

end Sys2Proof.Machine
end

