-- ==== Sys2Proof/Laws/State.lean ====
section
/-! SUPPORT. What each update of the state does to each field: one lemma per field and update. -/

namespace Sys2Proof.Machine

section

variable (s : State)


/-! `setStatus` -/

@[simp] theorem setStatus_status (c : StatusCode) : (setStatus c s).status = c.word := rfl
@[simp] theorem setStatus_naRe (c : StatusCode) : (setStatus c s).naRe = s.naRe := rfl
@[simp] theorem setStatus_naIm (c : StatusCode) : (setStatus c s).naIm = s.naIm := rfl
@[simp] theorem setStatus_nbRe (c : StatusCode) : (setStatus c s).nbRe = s.nbRe := rfl
@[simp] theorem setStatus_ny (c : StatusCode) : (setStatus c s).ny = s.ny := rfl
@[simp] theorem setStatus_nba (c : StatusCode) : (setStatus c s).nba = s.nba := rfl
@[simp] theorem setStatus_nbb (c : StatusCode) : (setStatus c s).nbb = s.nbb := rfl
@[simp] theorem setStatus_nby (c : StatusCode) : (setStatus c s).nby = s.nby := rfl
@[simp] theorem setStatus_ca (c : StatusCode) : (setStatus c s).ca = s.ca := rfl
@[simp] theorem setStatus_cb (c : StatusCode) : (setStatus c s).cb = s.cb := rfl
@[simp] theorem setStatus_cr (c : StatusCode) : (setStatus c s).cr = s.cr := rfl
@[simp] theorem setStatus_xaRe (c : StatusCode) : (setStatus c s).xaRe = s.xaRe := rfl
@[simp] theorem setStatus_xaIm (c : StatusCode) : (setStatus c s).xaIm = s.xaIm := rfl
@[simp] theorem setStatus_xbRe (c : StatusCode) : (setStatus c s).xbRe = s.xbRe := rfl
@[simp] theorem setStatus_yRe (c : StatusCode) : (setStatus c s).yRe = s.yRe := rfl
@[simp] theorem setStatus_yIm (c : StatusCode) : (setStatus c s).yIm = s.yIm := rfl
@[simp] theorem setStatus_ba (c : StatusCode) : (setStatus c s).ba = s.ba := rfl
@[simp] theorem setStatus_bb (c : StatusCode) : (setStatus c s).bb = s.bb := rfl
@[simp] theorem setStatus_byBuf (c : StatusCode) : (setStatus c s).byBuf = s.byBuf := rfl
@[simp] theorem setStatus_cmd (c : StatusCode) : (setStatus c s).cmd = s.cmd := rfl
@[simp] theorem setStatus_script (c : StatusCode) : (setStatus c s).script = s.script := rfl
@[simp] theorem setStatus_readData (c : StatusCode) : (setStatus c s).readData = s.readData := rfl
@[simp] theorem setStatus_draws (c : StatusCode) : (setStatus c s).draws = s.draws := rfl
@[simp] theorem setStatus_yEpoch (c : StatusCode) : (setStatus c s).yEpoch = s.yEpoch := rfl
@[simp] theorem setStatus_byEpoch (c : StatusCode) : (setStatus c s).byEpoch = s.byEpoch := rfl

/-! `takeCommand` -/

@[simp] theorem takeCommand_status : (takeCommand s).status = s.status := rfl
@[simp] theorem takeCommand_naRe : (takeCommand s).naRe = s.naRe := rfl
@[simp] theorem takeCommand_naIm : (takeCommand s).naIm = s.naIm := rfl
@[simp] theorem takeCommand_nbRe : (takeCommand s).nbRe = s.nbRe := rfl
@[simp] theorem takeCommand_ny : (takeCommand s).ny = s.ny := rfl
@[simp] theorem takeCommand_nba : (takeCommand s).nba = s.nba := rfl
@[simp] theorem takeCommand_nbb : (takeCommand s).nbb = s.nbb := rfl
@[simp] theorem takeCommand_nby : (takeCommand s).nby = s.nby := rfl
@[simp] theorem takeCommand_ca : (takeCommand s).ca = s.ca := rfl
@[simp] theorem takeCommand_cb : (takeCommand s).cb = s.cb := rfl
@[simp] theorem takeCommand_cr : (takeCommand s).cr = s.cr := rfl
@[simp] theorem takeCommand_xaRe : (takeCommand s).xaRe = s.xaRe := rfl
@[simp] theorem takeCommand_xaIm : (takeCommand s).xaIm = s.xaIm := rfl
@[simp] theorem takeCommand_xbRe : (takeCommand s).xbRe = s.xbRe := rfl
@[simp] theorem takeCommand_yRe : (takeCommand s).yRe = s.yRe := rfl
@[simp] theorem takeCommand_yIm : (takeCommand s).yIm = s.yIm := rfl
@[simp] theorem takeCommand_ba : (takeCommand s).ba = s.ba := rfl
@[simp] theorem takeCommand_bb : (takeCommand s).bb = s.bb := rfl
@[simp] theorem takeCommand_byBuf : (takeCommand s).byBuf = s.byBuf := rfl
@[simp] theorem takeCommand_cmd : (takeCommand s).cmd = none := rfl
@[simp] theorem takeCommand_script : (takeCommand s).script = s.script := rfl
@[simp] theorem takeCommand_readData : (takeCommand s).readData = s.readData := rfl
@[simp] theorem takeCommand_draws : (takeCommand s).draws = s.draws := rfl
@[simp] theorem takeCommand_yEpoch : (takeCommand s).yEpoch = s.yEpoch := rfl
@[simp] theorem takeCommand_byEpoch : (takeCommand s).byEpoch = s.byEpoch := rfl

/-! `withPendingWord` -/

@[simp] theorem withPendingWord_status (w : Nat) : (withPendingWord s w).status = s.status := rfl
@[simp] theorem withPendingWord_naRe (w : Nat) : (withPendingWord s w).naRe = s.naRe := rfl
@[simp] theorem withPendingWord_naIm (w : Nat) : (withPendingWord s w).naIm = s.naIm := rfl
@[simp] theorem withPendingWord_nbRe (w : Nat) : (withPendingWord s w).nbRe = s.nbRe := rfl
@[simp] theorem withPendingWord_ny (w : Nat) : (withPendingWord s w).ny = s.ny := rfl
@[simp] theorem withPendingWord_nba (w : Nat) : (withPendingWord s w).nba = s.nba := rfl
@[simp] theorem withPendingWord_nbb (w : Nat) : (withPendingWord s w).nbb = s.nbb := rfl
@[simp] theorem withPendingWord_nby (w : Nat) : (withPendingWord s w).nby = s.nby := rfl
@[simp] theorem withPendingWord_ca (w : Nat) : (withPendingWord s w).ca = s.ca := rfl
@[simp] theorem withPendingWord_cb (w : Nat) : (withPendingWord s w).cb = s.cb := rfl
@[simp] theorem withPendingWord_cr (w : Nat) : (withPendingWord s w).cr = s.cr := rfl
@[simp] theorem withPendingWord_xaRe (w : Nat) : (withPendingWord s w).xaRe = s.xaRe := rfl
@[simp] theorem withPendingWord_xaIm (w : Nat) : (withPendingWord s w).xaIm = s.xaIm := rfl
@[simp] theorem withPendingWord_xbRe (w : Nat) : (withPendingWord s w).xbRe = s.xbRe := rfl
@[simp] theorem withPendingWord_yRe (w : Nat) : (withPendingWord s w).yRe = s.yRe := rfl
@[simp] theorem withPendingWord_yIm (w : Nat) : (withPendingWord s w).yIm = s.yIm := rfl
@[simp] theorem withPendingWord_ba (w : Nat) : (withPendingWord s w).ba = s.ba := rfl
@[simp] theorem withPendingWord_bb (w : Nat) : (withPendingWord s w).bb = s.bb := rfl
@[simp] theorem withPendingWord_byBuf (w : Nat) : (withPendingWord s w).byBuf = s.byBuf := rfl
@[simp] theorem withPendingWord_cmd (w : Nat) : (withPendingWord s w).cmd = some (BitVec.ofNat 32 w) := rfl
@[simp] theorem withPendingWord_script (w : Nat) : (withPendingWord s w).script = s.script := rfl
@[simp] theorem withPendingWord_readData (w : Nat) : (withPendingWord s w).readData = s.readData := rfl
@[simp] theorem withPendingWord_draws (w : Nat) : (withPendingWord s w).draws = s.draws := rfl
@[simp] theorem withPendingWord_yEpoch (w : Nat) : (withPendingWord s w).yEpoch = s.yEpoch := rfl
@[simp] theorem withPendingWord_byEpoch (w : Nat) : (withPendingWord s w).byEpoch = s.byEpoch := rfl

/-! `writeScalarResult` -/

@[simp] theorem writeScalarResult_status (p : Params) (z : Cplx FVal) : (writeScalarResult p z s).status = s.status := rfl
@[simp] theorem writeScalarResult_naRe (p : Params) (z : Cplx FVal) : (writeScalarResult p z s).naRe = s.naRe := rfl
@[simp] theorem writeScalarResult_naIm (p : Params) (z : Cplx FVal) : (writeScalarResult p z s).naIm = s.naIm := rfl
@[simp] theorem writeScalarResult_nbRe (p : Params) (z : Cplx FVal) : (writeScalarResult p z s).nbRe = s.nbRe := rfl
@[simp] theorem writeScalarResult_ny (p : Params) (z : Cplx FVal) : (writeScalarResult p z s).ny = s.ny := rfl
@[simp] theorem writeScalarResult_nba (p : Params) (z : Cplx FVal) : (writeScalarResult p z s).nba = s.nba := rfl
@[simp] theorem writeScalarResult_nbb (p : Params) (z : Cplx FVal) : (writeScalarResult p z s).nbb = s.nbb := rfl
@[simp] theorem writeScalarResult_nby (p : Params) (z : Cplx FVal) : (writeScalarResult p z s).nby = s.nby := rfl
@[simp] theorem writeScalarResult_ca (p : Params) (z : Cplx FVal) : (writeScalarResult p z s).ca = s.ca := rfl
@[simp] theorem writeScalarResult_cb (p : Params) (z : Cplx FVal) : (writeScalarResult p z s).cb = s.cb := rfl
@[simp] theorem writeScalarResult_cr (p : Params) (z : Cplx FVal) : (writeScalarResult p z s).cr = ⟨(drawNaN p s.draws z.re).1, (drawNaN p (drawNaN p s.draws z.re).2 z.im).1⟩ := rfl
@[simp] theorem writeScalarResult_xaRe (p : Params) (z : Cplx FVal) : (writeScalarResult p z s).xaRe = s.xaRe := rfl
@[simp] theorem writeScalarResult_xaIm (p : Params) (z : Cplx FVal) : (writeScalarResult p z s).xaIm = s.xaIm := rfl
@[simp] theorem writeScalarResult_xbRe (p : Params) (z : Cplx FVal) : (writeScalarResult p z s).xbRe = s.xbRe := rfl
@[simp] theorem writeScalarResult_yRe (p : Params) (z : Cplx FVal) : (writeScalarResult p z s).yRe = s.yRe := rfl
@[simp] theorem writeScalarResult_yIm (p : Params) (z : Cplx FVal) : (writeScalarResult p z s).yIm = s.yIm := rfl
@[simp] theorem writeScalarResult_ba (p : Params) (z : Cplx FVal) : (writeScalarResult p z s).ba = s.ba := rfl
@[simp] theorem writeScalarResult_bb (p : Params) (z : Cplx FVal) : (writeScalarResult p z s).bb = s.bb := rfl
@[simp] theorem writeScalarResult_byBuf (p : Params) (z : Cplx FVal) : (writeScalarResult p z s).byBuf = s.byBuf := rfl
@[simp] theorem writeScalarResult_cmd (p : Params) (z : Cplx FVal) : (writeScalarResult p z s).cmd = s.cmd := rfl
@[simp] theorem writeScalarResult_script (p : Params) (z : Cplx FVal) : (writeScalarResult p z s).script = s.script := rfl
@[simp] theorem writeScalarResult_readData (p : Params) (z : Cplx FVal) : (writeScalarResult p z s).readData = s.readData := rfl
@[simp] theorem writeScalarResult_draws (p : Params) (z : Cplx FVal) : (writeScalarResult p z s).draws = (drawNaN p (drawNaN p s.draws z.re).2 z.im).2 := rfl
@[simp] theorem writeScalarResult_yEpoch (p : Params) (z : Cplx FVal) : (writeScalarResult p z s).yEpoch = s.yEpoch := rfl
@[simp] theorem writeScalarResult_byEpoch (p : Params) (z : Cplx FVal) : (writeScalarResult p z s).byEpoch = s.byEpoch := rfl

/-! `writeTransformResult` -/

@[simp] theorem writeTransformResult_status (p : Params) (w : List (Cplx FVal)) : (writeTransformResult p w s).status = s.status := rfl
@[simp] theorem writeTransformResult_naRe (p : Params) (w : List (Cplx FVal)) : (writeTransformResult p w s).naRe = s.naRe := rfl
@[simp] theorem writeTransformResult_naIm (p : Params) (w : List (Cplx FVal)) : (writeTransformResult p w s).naIm = s.naIm := rfl
@[simp] theorem writeTransformResult_nbRe (p : Params) (w : List (Cplx FVal)) : (writeTransformResult p w s).nbRe = s.nbRe := rfl
@[simp] theorem writeTransformResult_ny (p : Params) (w : List (Cplx FVal)) : (writeTransformResult p w s).ny = w.length := rfl
@[simp] theorem writeTransformResult_nba (p : Params) (w : List (Cplx FVal)) : (writeTransformResult p w s).nba = s.nba := rfl
@[simp] theorem writeTransformResult_nbb (p : Params) (w : List (Cplx FVal)) : (writeTransformResult p w s).nbb = s.nbb := rfl
@[simp] theorem writeTransformResult_nby (p : Params) (w : List (Cplx FVal)) : (writeTransformResult p w s).nby = s.nby := rfl
@[simp] theorem writeTransformResult_ca (p : Params) (w : List (Cplx FVal)) : (writeTransformResult p w s).ca = s.ca := rfl
@[simp] theorem writeTransformResult_cb (p : Params) (w : List (Cplx FVal)) : (writeTransformResult p w s).cb = s.cb := rfl
@[simp] theorem writeTransformResult_cr (p : Params) (w : List (Cplx FVal)) : (writeTransformResult p w s).cr = s.cr := rfl
@[simp] theorem writeTransformResult_xaRe (p : Params) (w : List (Cplx FVal)) : (writeTransformResult p w s).xaRe = s.xaRe := rfl
@[simp] theorem writeTransformResult_xaIm (p : Params) (w : List (Cplx FVal)) : (writeTransformResult p w s).xaIm = s.xaIm := rfl
@[simp] theorem writeTransformResult_xbRe (p : Params) (w : List (Cplx FVal)) : (writeTransformResult p w s).xbRe = s.xbRe := rfl
@[simp] theorem writeTransformResult_yRe (p : Params) (w : List (Cplx FVal)) : (writeTransformResult p w s).yRe = Cells.writeFrom s.yRe 0 (drawNaNs p s.draws (w.map Cplx.re)).1 := rfl
@[simp] theorem writeTransformResult_yIm (p : Params) (w : List (Cplx FVal)) : (writeTransformResult p w s).yIm = Cells.writeFrom s.yIm 0 (drawNaNs p (drawNaNs p s.draws (w.map Cplx.re)).2 (w.map Cplx.im)).1 := rfl
@[simp] theorem writeTransformResult_ba (p : Params) (w : List (Cplx FVal)) : (writeTransformResult p w s).ba = s.ba := rfl
@[simp] theorem writeTransformResult_bb (p : Params) (w : List (Cplx FVal)) : (writeTransformResult p w s).bb = s.bb := rfl
@[simp] theorem writeTransformResult_byBuf (p : Params) (w : List (Cplx FVal)) : (writeTransformResult p w s).byBuf = s.byBuf := rfl
@[simp] theorem writeTransformResult_cmd (p : Params) (w : List (Cplx FVal)) : (writeTransformResult p w s).cmd = s.cmd := rfl
@[simp] theorem writeTransformResult_script (p : Params) (w : List (Cplx FVal)) : (writeTransformResult p w s).script = s.script := rfl
@[simp] theorem writeTransformResult_readData (p : Params) (w : List (Cplx FVal)) : (writeTransformResult p w s).readData = s.readData := rfl
@[simp] theorem writeTransformResult_draws (p : Params) (w : List (Cplx FVal)) : (writeTransformResult p w s).draws = (drawNaNs p (drawNaNs p s.draws (w.map Cplx.re)).2 (w.map Cplx.im)).2 := rfl
@[simp] theorem writeTransformResult_yEpoch (p : Params) (w : List (Cplx FVal)) : (writeTransformResult p w s).yEpoch = s.yEpoch + 1 := rfl
@[simp] theorem writeTransformResult_byEpoch (p : Params) (w : List (Cplx FVal)) : (writeTransformResult p w s).byEpoch = s.byEpoch := rfl

/-! `writeRealResult` -/

@[simp] theorem writeRealResult_status (p : Params) (w : List FVal) : (writeRealResult p w s).status = s.status := rfl
@[simp] theorem writeRealResult_naRe (p : Params) (w : List FVal) : (writeRealResult p w s).naRe = s.naRe := rfl
@[simp] theorem writeRealResult_naIm (p : Params) (w : List FVal) : (writeRealResult p w s).naIm = s.naIm := rfl
@[simp] theorem writeRealResult_nbRe (p : Params) (w : List FVal) : (writeRealResult p w s).nbRe = s.nbRe := rfl
@[simp] theorem writeRealResult_ny (p : Params) (w : List FVal) : (writeRealResult p w s).ny = w.length := rfl
@[simp] theorem writeRealResult_nba (p : Params) (w : List FVal) : (writeRealResult p w s).nba = s.nba := rfl
@[simp] theorem writeRealResult_nbb (p : Params) (w : List FVal) : (writeRealResult p w s).nbb = s.nbb := rfl
@[simp] theorem writeRealResult_nby (p : Params) (w : List FVal) : (writeRealResult p w s).nby = s.nby := rfl
@[simp] theorem writeRealResult_ca (p : Params) (w : List FVal) : (writeRealResult p w s).ca = s.ca := rfl
@[simp] theorem writeRealResult_cb (p : Params) (w : List FVal) : (writeRealResult p w s).cb = s.cb := rfl
@[simp] theorem writeRealResult_cr (p : Params) (w : List FVal) : (writeRealResult p w s).cr = s.cr := rfl
@[simp] theorem writeRealResult_xaRe (p : Params) (w : List FVal) : (writeRealResult p w s).xaRe = s.xaRe := rfl
@[simp] theorem writeRealResult_xaIm (p : Params) (w : List FVal) : (writeRealResult p w s).xaIm = s.xaIm := rfl
@[simp] theorem writeRealResult_xbRe (p : Params) (w : List FVal) : (writeRealResult p w s).xbRe = s.xbRe := rfl
@[simp] theorem writeRealResult_yRe (p : Params) (w : List FVal) : (writeRealResult p w s).yRe = Cells.writeFrom s.yRe 0 (drawNaNs p s.draws w).1 := rfl
@[simp] theorem writeRealResult_yIm (p : Params) (w : List FVal) : (writeRealResult p w s).yIm = [] := rfl
@[simp] theorem writeRealResult_ba (p : Params) (w : List FVal) : (writeRealResult p w s).ba = s.ba := rfl
@[simp] theorem writeRealResult_bb (p : Params) (w : List FVal) : (writeRealResult p w s).bb = s.bb := rfl
@[simp] theorem writeRealResult_byBuf (p : Params) (w : List FVal) : (writeRealResult p w s).byBuf = s.byBuf := rfl
@[simp] theorem writeRealResult_cmd (p : Params) (w : List FVal) : (writeRealResult p w s).cmd = s.cmd := rfl
@[simp] theorem writeRealResult_script (p : Params) (w : List FVal) : (writeRealResult p w s).script = s.script := rfl
@[simp] theorem writeRealResult_readData (p : Params) (w : List FVal) : (writeRealResult p w s).readData = s.readData := rfl
@[simp] theorem writeRealResult_draws (p : Params) (w : List FVal) : (writeRealResult p w s).draws = (drawNaNs p s.draws w).2 := rfl
@[simp] theorem writeRealResult_yEpoch (p : Params) (w : List FVal) : (writeRealResult p w s).yEpoch = s.yEpoch + 1 := rfl
@[simp] theorem writeRealResult_byEpoch (p : Params) (w : List FVal) : (writeRealResult p w s).byEpoch = s.byEpoch := rfl

/-! `writeByteResult` -/

@[simp] theorem writeByteResult_status (out : List Byte) : (writeByteResult out s).status = s.status := rfl
@[simp] theorem writeByteResult_naRe (out : List Byte) : (writeByteResult out s).naRe = s.naRe := rfl
@[simp] theorem writeByteResult_naIm (out : List Byte) : (writeByteResult out s).naIm = s.naIm := rfl
@[simp] theorem writeByteResult_nbRe (out : List Byte) : (writeByteResult out s).nbRe = s.nbRe := rfl
@[simp] theorem writeByteResult_ny (out : List Byte) : (writeByteResult out s).ny = s.ny := rfl
@[simp] theorem writeByteResult_nba (out : List Byte) : (writeByteResult out s).nba = s.nba := rfl
@[simp] theorem writeByteResult_nbb (out : List Byte) : (writeByteResult out s).nbb = s.nbb := rfl
@[simp] theorem writeByteResult_nby (out : List Byte) : (writeByteResult out s).nby = out.length := rfl
@[simp] theorem writeByteResult_ca (out : List Byte) : (writeByteResult out s).ca = s.ca := rfl
@[simp] theorem writeByteResult_cb (out : List Byte) : (writeByteResult out s).cb = s.cb := rfl
@[simp] theorem writeByteResult_cr (out : List Byte) : (writeByteResult out s).cr = s.cr := rfl
@[simp] theorem writeByteResult_xaRe (out : List Byte) : (writeByteResult out s).xaRe = s.xaRe := rfl
@[simp] theorem writeByteResult_xaIm (out : List Byte) : (writeByteResult out s).xaIm = s.xaIm := rfl
@[simp] theorem writeByteResult_xbRe (out : List Byte) : (writeByteResult out s).xbRe = s.xbRe := rfl
@[simp] theorem writeByteResult_yRe (out : List Byte) : (writeByteResult out s).yRe = s.yRe := rfl
@[simp] theorem writeByteResult_yIm (out : List Byte) : (writeByteResult out s).yIm = s.yIm := rfl
@[simp] theorem writeByteResult_ba (out : List Byte) : (writeByteResult out s).ba = s.ba := rfl
@[simp] theorem writeByteResult_bb (out : List Byte) : (writeByteResult out s).bb = s.bb := rfl
@[simp] theorem writeByteResult_byBuf (out : List Byte) : (writeByteResult out s).byBuf = Cells.writeFrom s.byBuf 0 out := rfl
@[simp] theorem writeByteResult_cmd (out : List Byte) : (writeByteResult out s).cmd = s.cmd := rfl
@[simp] theorem writeByteResult_script (out : List Byte) : (writeByteResult out s).script = s.script := rfl
@[simp] theorem writeByteResult_readData (out : List Byte) : (writeByteResult out s).readData = s.readData := rfl
@[simp] theorem writeByteResult_draws (out : List Byte) : (writeByteResult out s).draws = s.draws := rfl
@[simp] theorem writeByteResult_yEpoch (out : List Byte) : (writeByteResult out s).yEpoch = s.yEpoch := rfl
@[simp] theorem writeByteResult_byEpoch (out : List Byte) : (writeByteResult out s).byEpoch = s.byEpoch + 1 := rfl

/-! `resetBlock` -/

@[simp] theorem resetBlock_status : (resetBlock s).status = State.reset.status := rfl
@[simp] theorem resetBlock_naRe : (resetBlock s).naRe = State.reset.naRe := rfl
@[simp] theorem resetBlock_naIm : (resetBlock s).naIm = State.reset.naIm := rfl
@[simp] theorem resetBlock_nbRe : (resetBlock s).nbRe = State.reset.nbRe := rfl
@[simp] theorem resetBlock_ny : (resetBlock s).ny = State.reset.ny := rfl
@[simp] theorem resetBlock_nba : (resetBlock s).nba = State.reset.nba := rfl
@[simp] theorem resetBlock_nbb : (resetBlock s).nbb = State.reset.nbb := rfl
@[simp] theorem resetBlock_nby : (resetBlock s).nby = State.reset.nby := rfl
@[simp] theorem resetBlock_ca : (resetBlock s).ca = State.reset.ca := rfl
@[simp] theorem resetBlock_cb : (resetBlock s).cb = State.reset.cb := rfl
@[simp] theorem resetBlock_cr : (resetBlock s).cr = State.reset.cr := rfl
@[simp] theorem resetBlock_xaRe : (resetBlock s).xaRe = State.reset.xaRe := rfl
@[simp] theorem resetBlock_xaIm : (resetBlock s).xaIm = State.reset.xaIm := rfl
@[simp] theorem resetBlock_xbRe : (resetBlock s).xbRe = State.reset.xbRe := rfl
@[simp] theorem resetBlock_yRe : (resetBlock s).yRe = State.reset.yRe := rfl
@[simp] theorem resetBlock_yIm : (resetBlock s).yIm = State.reset.yIm := rfl
@[simp] theorem resetBlock_ba : (resetBlock s).ba = State.reset.ba := rfl
@[simp] theorem resetBlock_bb : (resetBlock s).bb = State.reset.bb := rfl
@[simp] theorem resetBlock_byBuf : (resetBlock s).byBuf = State.reset.byBuf := rfl
@[simp] theorem resetBlock_cmd : (resetBlock s).cmd = State.reset.cmd := rfl
@[simp] theorem resetBlock_script : (resetBlock s).script = s.script := rfl
@[simp] theorem resetBlock_readData : (resetBlock s).readData = s.readData := rfl
@[simp] theorem resetBlock_draws : (resetBlock s).draws = s.draws := rfl
@[simp] theorem resetBlock_yEpoch : (resetBlock s).yEpoch = s.yEpoch + 1 := rfl
@[simp] theorem resetBlock_byEpoch : (resetBlock s).byEpoch = s.byEpoch + 1 := rfl

/-! `State.setLength`: the fields it never touches -/

@[simp] theorem State.setLength_status (r : OperandLength) (n : Nat) : (s.setLength r n).status = s.status := by cases r <;> rfl
@[simp] theorem State.setLength_ny (r : OperandLength) (n : Nat) : (s.setLength r n).ny = s.ny := by cases r <;> rfl
@[simp] theorem State.setLength_nby (r : OperandLength) (n : Nat) : (s.setLength r n).nby = s.nby := by cases r <;> rfl
@[simp] theorem State.setLength_ca (r : OperandLength) (n : Nat) : (s.setLength r n).ca = s.ca := by cases r <;> rfl
@[simp] theorem State.setLength_cb (r : OperandLength) (n : Nat) : (s.setLength r n).cb = s.cb := by cases r <;> rfl
@[simp] theorem State.setLength_cr (r : OperandLength) (n : Nat) : (s.setLength r n).cr = s.cr := by cases r <;> rfl
@[simp] theorem State.setLength_xaRe (r : OperandLength) (n : Nat) : (s.setLength r n).xaRe = s.xaRe := by cases r <;> rfl
@[simp] theorem State.setLength_xaIm (r : OperandLength) (n : Nat) : (s.setLength r n).xaIm = s.xaIm := by cases r <;> rfl
@[simp] theorem State.setLength_xbRe (r : OperandLength) (n : Nat) : (s.setLength r n).xbRe = s.xbRe := by cases r <;> rfl
@[simp] theorem State.setLength_yRe (r : OperandLength) (n : Nat) : (s.setLength r n).yRe = s.yRe := by cases r <;> rfl
@[simp] theorem State.setLength_yIm (r : OperandLength) (n : Nat) : (s.setLength r n).yIm = s.yIm := by cases r <;> rfl
@[simp] theorem State.setLength_ba (r : OperandLength) (n : Nat) : (s.setLength r n).ba = s.ba := by cases r <;> rfl
@[simp] theorem State.setLength_bb (r : OperandLength) (n : Nat) : (s.setLength r n).bb = s.bb := by cases r <;> rfl
@[simp] theorem State.setLength_byBuf (r : OperandLength) (n : Nat) : (s.setLength r n).byBuf = s.byBuf := by cases r <;> rfl
@[simp] theorem State.setLength_cmd (r : OperandLength) (n : Nat) : (s.setLength r n).cmd = s.cmd := by cases r <;> rfl
@[simp] theorem State.setLength_script (r : OperandLength) (n : Nat) : (s.setLength r n).script = s.script := by cases r <;> rfl
@[simp] theorem State.setLength_readData (r : OperandLength) (n : Nat) : (s.setLength r n).readData = s.readData := by cases r <;> rfl
@[simp] theorem State.setLength_draws (r : OperandLength) (n : Nat) : (s.setLength r n).draws = s.draws := by cases r <;> rfl
@[simp] theorem State.setLength_yEpoch (r : OperandLength) (n : Nat) : (s.setLength r n).yEpoch = s.yEpoch := by cases r <;> rfl
@[simp] theorem State.setLength_byEpoch (r : OperandLength) (n : Nat) : (s.setLength r n).byEpoch = s.byEpoch := by cases r <;> rfl

/-! `State.setField`: the fields it never touches -/

@[simp] theorem State.setField_status (f : OperandField) (v : F64) : (s.setField f v).status = s.status := by cases f <;> rfl
@[simp] theorem State.setField_naRe (f : OperandField) (v : F64) : (s.setField f v).naRe = s.naRe := by cases f <;> rfl
@[simp] theorem State.setField_naIm (f : OperandField) (v : F64) : (s.setField f v).naIm = s.naIm := by cases f <;> rfl
@[simp] theorem State.setField_nbRe (f : OperandField) (v : F64) : (s.setField f v).nbRe = s.nbRe := by cases f <;> rfl
@[simp] theorem State.setField_ny (f : OperandField) (v : F64) : (s.setField f v).ny = s.ny := by cases f <;> rfl
@[simp] theorem State.setField_nba (f : OperandField) (v : F64) : (s.setField f v).nba = s.nba := by cases f <;> rfl
@[simp] theorem State.setField_nbb (f : OperandField) (v : F64) : (s.setField f v).nbb = s.nbb := by cases f <;> rfl
@[simp] theorem State.setField_nby (f : OperandField) (v : F64) : (s.setField f v).nby = s.nby := by cases f <;> rfl
@[simp] theorem State.setField_cr (f : OperandField) (v : F64) : (s.setField f v).cr = s.cr := by cases f <;> rfl
@[simp] theorem State.setField_xaRe (f : OperandField) (v : F64) : (s.setField f v).xaRe = s.xaRe := by cases f <;> rfl
@[simp] theorem State.setField_xaIm (f : OperandField) (v : F64) : (s.setField f v).xaIm = s.xaIm := by cases f <;> rfl
@[simp] theorem State.setField_xbRe (f : OperandField) (v : F64) : (s.setField f v).xbRe = s.xbRe := by cases f <;> rfl
@[simp] theorem State.setField_yRe (f : OperandField) (v : F64) : (s.setField f v).yRe = s.yRe := by cases f <;> rfl
@[simp] theorem State.setField_yIm (f : OperandField) (v : F64) : (s.setField f v).yIm = s.yIm := by cases f <;> rfl
@[simp] theorem State.setField_ba (f : OperandField) (v : F64) : (s.setField f v).ba = s.ba := by cases f <;> rfl
@[simp] theorem State.setField_bb (f : OperandField) (v : F64) : (s.setField f v).bb = s.bb := by cases f <;> rfl
@[simp] theorem State.setField_byBuf (f : OperandField) (v : F64) : (s.setField f v).byBuf = s.byBuf := by cases f <;> rfl
@[simp] theorem State.setField_cmd (f : OperandField) (v : F64) : (s.setField f v).cmd = s.cmd := by cases f <;> rfl
@[simp] theorem State.setField_script (f : OperandField) (v : F64) : (s.setField f v).script = s.script := by cases f <;> rfl
@[simp] theorem State.setField_readData (f : OperandField) (v : F64) : (s.setField f v).readData = s.readData := by cases f <;> rfl
@[simp] theorem State.setField_draws (f : OperandField) (v : F64) : (s.setField f v).draws = s.draws := by cases f <;> rfl
@[simp] theorem State.setField_yEpoch (f : OperandField) (v : F64) : (s.setField f v).yEpoch = s.yEpoch := by cases f <;> rfl
@[simp] theorem State.setField_byEpoch (f : OperandField) (v : F64) : (s.setField f v).byEpoch = s.byEpoch := by cases f <;> rfl

/-! `State.setOperandPlane`: the fields it never touches -/

@[simp] theorem State.setOperandPlane_status (p : OperandPlane) (c : Plane) : (s.setOperandPlane p c).status = s.status := by cases p <;> rfl
@[simp] theorem State.setOperandPlane_naRe (p : OperandPlane) (c : Plane) : (s.setOperandPlane p c).naRe = s.naRe := by cases p <;> rfl
@[simp] theorem State.setOperandPlane_naIm (p : OperandPlane) (c : Plane) : (s.setOperandPlane p c).naIm = s.naIm := by cases p <;> rfl
@[simp] theorem State.setOperandPlane_nbRe (p : OperandPlane) (c : Plane) : (s.setOperandPlane p c).nbRe = s.nbRe := by cases p <;> rfl
@[simp] theorem State.setOperandPlane_ny (p : OperandPlane) (c : Plane) : (s.setOperandPlane p c).ny = s.ny := by cases p <;> rfl
@[simp] theorem State.setOperandPlane_nba (p : OperandPlane) (c : Plane) : (s.setOperandPlane p c).nba = s.nba := by cases p <;> rfl
@[simp] theorem State.setOperandPlane_nbb (p : OperandPlane) (c : Plane) : (s.setOperandPlane p c).nbb = s.nbb := by cases p <;> rfl
@[simp] theorem State.setOperandPlane_nby (p : OperandPlane) (c : Plane) : (s.setOperandPlane p c).nby = s.nby := by cases p <;> rfl
@[simp] theorem State.setOperandPlane_ca (p : OperandPlane) (c : Plane) : (s.setOperandPlane p c).ca = s.ca := by cases p <;> rfl
@[simp] theorem State.setOperandPlane_cb (p : OperandPlane) (c : Plane) : (s.setOperandPlane p c).cb = s.cb := by cases p <;> rfl
@[simp] theorem State.setOperandPlane_cr (p : OperandPlane) (c : Plane) : (s.setOperandPlane p c).cr = s.cr := by cases p <;> rfl
@[simp] theorem State.setOperandPlane_yRe (p : OperandPlane) (c : Plane) : (s.setOperandPlane p c).yRe = s.yRe := by cases p <;> rfl
@[simp] theorem State.setOperandPlane_yIm (p : OperandPlane) (c : Plane) : (s.setOperandPlane p c).yIm = s.yIm := by cases p <;> rfl
@[simp] theorem State.setOperandPlane_ba (p : OperandPlane) (c : Plane) : (s.setOperandPlane p c).ba = s.ba := by cases p <;> rfl
@[simp] theorem State.setOperandPlane_bb (p : OperandPlane) (c : Plane) : (s.setOperandPlane p c).bb = s.bb := by cases p <;> rfl
@[simp] theorem State.setOperandPlane_byBuf (p : OperandPlane) (c : Plane) : (s.setOperandPlane p c).byBuf = s.byBuf := by cases p <;> rfl
@[simp] theorem State.setOperandPlane_cmd (p : OperandPlane) (c : Plane) : (s.setOperandPlane p c).cmd = s.cmd := by cases p <;> rfl
@[simp] theorem State.setOperandPlane_script (p : OperandPlane) (c : Plane) : (s.setOperandPlane p c).script = s.script := by cases p <;> rfl
@[simp] theorem State.setOperandPlane_readData (p : OperandPlane) (c : Plane) : (s.setOperandPlane p c).readData = s.readData := by cases p <;> rfl
@[simp] theorem State.setOperandPlane_draws (p : OperandPlane) (c : Plane) : (s.setOperandPlane p c).draws = s.draws := by cases p <;> rfl
@[simp] theorem State.setOperandPlane_yEpoch (p : OperandPlane) (c : Plane) : (s.setOperandPlane p c).yEpoch = s.yEpoch := by cases p <;> rfl
@[simp] theorem State.setOperandPlane_byEpoch (p : OperandPlane) (c : Plane) : (s.setOperandPlane p c).byEpoch = s.byEpoch := by cases p <;> rfl

/-! `State.setOperandBuffer`: the fields it never touches -/

@[simp] theorem State.setOperandBuffer_status (b : OperandBuffer) (c : Buffer) : (s.setOperandBuffer b c).status = s.status := by cases b <;> rfl
@[simp] theorem State.setOperandBuffer_naRe (b : OperandBuffer) (c : Buffer) : (s.setOperandBuffer b c).naRe = s.naRe := by cases b <;> rfl
@[simp] theorem State.setOperandBuffer_naIm (b : OperandBuffer) (c : Buffer) : (s.setOperandBuffer b c).naIm = s.naIm := by cases b <;> rfl
@[simp] theorem State.setOperandBuffer_nbRe (b : OperandBuffer) (c : Buffer) : (s.setOperandBuffer b c).nbRe = s.nbRe := by cases b <;> rfl
@[simp] theorem State.setOperandBuffer_ny (b : OperandBuffer) (c : Buffer) : (s.setOperandBuffer b c).ny = s.ny := by cases b <;> rfl
@[simp] theorem State.setOperandBuffer_nba (b : OperandBuffer) (c : Buffer) : (s.setOperandBuffer b c).nba = s.nba := by cases b <;> rfl
@[simp] theorem State.setOperandBuffer_nbb (b : OperandBuffer) (c : Buffer) : (s.setOperandBuffer b c).nbb = s.nbb := by cases b <;> rfl
@[simp] theorem State.setOperandBuffer_nby (b : OperandBuffer) (c : Buffer) : (s.setOperandBuffer b c).nby = s.nby := by cases b <;> rfl
@[simp] theorem State.setOperandBuffer_ca (b : OperandBuffer) (c : Buffer) : (s.setOperandBuffer b c).ca = s.ca := by cases b <;> rfl
@[simp] theorem State.setOperandBuffer_cb (b : OperandBuffer) (c : Buffer) : (s.setOperandBuffer b c).cb = s.cb := by cases b <;> rfl
@[simp] theorem State.setOperandBuffer_cr (b : OperandBuffer) (c : Buffer) : (s.setOperandBuffer b c).cr = s.cr := by cases b <;> rfl
@[simp] theorem State.setOperandBuffer_xaRe (b : OperandBuffer) (c : Buffer) : (s.setOperandBuffer b c).xaRe = s.xaRe := by cases b <;> rfl
@[simp] theorem State.setOperandBuffer_xaIm (b : OperandBuffer) (c : Buffer) : (s.setOperandBuffer b c).xaIm = s.xaIm := by cases b <;> rfl
@[simp] theorem State.setOperandBuffer_xbRe (b : OperandBuffer) (c : Buffer) : (s.setOperandBuffer b c).xbRe = s.xbRe := by cases b <;> rfl
@[simp] theorem State.setOperandBuffer_yRe (b : OperandBuffer) (c : Buffer) : (s.setOperandBuffer b c).yRe = s.yRe := by cases b <;> rfl
@[simp] theorem State.setOperandBuffer_yIm (b : OperandBuffer) (c : Buffer) : (s.setOperandBuffer b c).yIm = s.yIm := by cases b <;> rfl
@[simp] theorem State.setOperandBuffer_byBuf (b : OperandBuffer) (c : Buffer) : (s.setOperandBuffer b c).byBuf = s.byBuf := by cases b <;> rfl
@[simp] theorem State.setOperandBuffer_cmd (b : OperandBuffer) (c : Buffer) : (s.setOperandBuffer b c).cmd = s.cmd := by cases b <;> rfl
@[simp] theorem State.setOperandBuffer_script (b : OperandBuffer) (c : Buffer) : (s.setOperandBuffer b c).script = s.script := by cases b <;> rfl
@[simp] theorem State.setOperandBuffer_readData (b : OperandBuffer) (c : Buffer) : (s.setOperandBuffer b c).readData = s.readData := by cases b <;> rfl
@[simp] theorem State.setOperandBuffer_draws (b : OperandBuffer) (c : Buffer) : (s.setOperandBuffer b c).draws = s.draws := by cases b <;> rfl
@[simp] theorem State.setOperandBuffer_yEpoch (b : OperandBuffer) (c : Buffer) : (s.setOperandBuffer b c).yEpoch = s.yEpoch := by cases b <;> rfl
@[simp] theorem State.setOperandBuffer_byEpoch (b : OperandBuffer) (c : Buffer) : (s.setOperandBuffer b c).byEpoch = s.byEpoch := by cases b <;> rfl

/-- The container an operand plane's update replaces. -/
@[simp] theorem plane_setOperandPlane (p : OperandPlane) (c : Plane) :
    (s.setOperandPlane p c).plane p.name = c := by cases p <;> rfl

/-- A plane of another name is as before. -/
theorem plane_setOperandPlane_of_ne (p : OperandPlane) (c : Plane) (q : PlaneName) (h : q ≠ p.name) :
    (s.setOperandPlane p c).plane q = s.plane q := by
  cases p <;> cases q <;> first | rfl | exact absurd rfl h

/-- The container an operand buffer's update replaces. -/
@[simp] theorem buffer_setOperandBuffer (b : OperandBuffer) (c : Buffer) :
    (s.setOperandBuffer b c).buffer b.name = c := by cases b <;> rfl

/-- A buffer of another name is as before. -/
theorem buffer_setOperandBuffer_of_ne (b : OperandBuffer) (c : Buffer) (q : BufferName) (h : q ≠ b.name) :
    (s.setOperandBuffer b c).buffer q = s.buffer q := by
  cases b <;> cases q <;> first | rfl | exact absurd rfl h

/-- An operand plane's update leaves every byte buffer alone. -/
@[simp] theorem buffer_setOperandPlane (p : OperandPlane) (c : Plane) (q : BufferName) :
    (s.setOperandPlane p c).buffer q = s.buffer q := by cases p <;> cases q <;> rfl

/-- An operand buffer's update leaves every plane alone. -/
@[simp] theorem plane_setOperandBuffer (b : OperandBuffer) (c : Buffer) (q : PlaneName) :
    (s.setOperandBuffer b c).plane q = s.plane q := by cases b <;> cases q <;> rfl

/-- An operand plane's update leaves every plane's length register alone. -/
@[simp] theorem planeLength_setOperandPlane (p : OperandPlane) (c : Plane) (q : PlaneName) :
    (s.setOperandPlane p c).planeLength q = s.planeLength q := by cases p <;> cases q <;> rfl

/-- An operand plane's update leaves every byte buffer's length register alone. -/
@[simp] theorem bufferLength_setOperandPlane (p : OperandPlane) (c : Plane) (q : BufferName) :
    (s.setOperandPlane p c).bufferLength q = s.bufferLength q := by cases p <;> cases q <;> rfl

/-- An operand buffer's update leaves every plane's length register alone. -/
@[simp] theorem planeLength_setOperandBuffer (b : OperandBuffer) (c : Buffer) (q : PlaneName) :
    (s.setOperandBuffer b c).planeLength q = s.planeLength q := by cases b <;> cases q <;> rfl

/-- An operand buffer's update leaves every byte buffer's length register alone. -/
@[simp] theorem bufferLength_setOperandBuffer (b : OperandBuffer) (c : Buffer) (q : BufferName) :
    (s.setOperandBuffer b c).bufferLength q = s.bufferLength q := by cases b <;> cases q <;> rfl

end

end Sys2Proof.Machine
end

