-- ==== Sys2Proof/Laws/Ops.lean ====
section
/-! SUPPORT. What each shared operation can do, once: drawing NaN bits, reading an operand, ending a command, and
that every memory operation keeps the canonical form. -/

namespace Sys2Proof.Machine

/-! ### Drawing -/

@[simp] theorem drawNaNs_nil (p : Params) (k : Nat) : drawNaNs p k [] = ([], k) := rfl

@[simp] theorem drawNaNs_cons (p : Params) (k : Nat) (v : FVal) (vs : List FVal) :
    drawNaNs p k (v :: vs) =
      ((drawNaN p k v).1 :: (drawNaNs p (drawNaN p k v).2 vs).1, (drawNaNs p (drawNaN p k v).2 vs).2) := rfl

/-- A sequence of values stores as many bit patterns. -/
@[simp] theorem length_drawNaNs (p : Params) (k : Nat) (vs : List FVal) : (drawNaNs p k vs).1.length = vs.length := by
  induction vs generalizing k with
  | nil => rfl
  | cons v vs ih => simp [ih]

/-- What is stored is the value computed, a NaN result as some NaN (R106). -/
theorem agrees_drawNaN (p : Params) (k : Nat) (v : FVal) : v.Agrees (drawNaN p k v).1 := by
  cases v with
  | bits b => rfl
  | nanResult => exact isNaNBits_nanDraw p k

theorem agrees_drawNaNs (p : Params) (k : Nat) (vs : List FVal) (j : Nat) (h : j < vs.length) :
    (vs[j]).Agrees ((drawNaNs p k vs).1[j]'(by simpa using h)) := by
  induction vs generalizing k j with
  | nil => simp at h
  | cons v vs ih =>
    cases j with
    | zero => exact agrees_drawNaN p k v
    | succ j => exact ih _ j (by simpa using h)

/-- A run of writes of drawn values leaves the plane holding the values computed. -/
theorem holdsComputed_writeFrom (p : Params) (c : Plane) (k : Nat) (vs : List FVal) :
    Cells.HoldsComputed (Cells.writeFrom c 0 (drawNaNs p k vs).1) vs := by
  intro j h
  have h' : j < (drawNaNs p k vs).1.length := by simpa using h
  refine ⟨_, ?_, agrees_drawNaNs p k vs j h⟩
  have := Cells.read_writeFrom (drawNaNs p k vs).1 c 0 j h'
  simpa using this

/-! ### Operand reads -/

theorem Cells.filled_iff {w : Nat} (c : Cells w) (n : Nat) :
    Cells.Filled c n ↔ ∃ vs, Cells.readFrom c 0 n = some vs := by
  rw [← Option.isSome_iff_exists, Cells.readFrom_isSome]
  simp [Cells.Filled, Option.isSome_iff_exists]

theorem Cells.readFrom_holds {w : Nat} {c : Cells w} {n : Nat} {vs : List (BitVec w)}
    (h : Cells.readFrom c 0 n = some vs) : vs.length = n ∧ Cells.Holds c vs := by
  obtain ⟨hl, hr⟩ := (Cells.readFrom_eq_some c 0 n vs).1 h
  exact ⟨hl, fun j hj => by simpa using hr j hj⟩

theorem Cells.holds_readFrom {w : Nat} {c : Cells w} {vs : List (BitVec w)} (h : Cells.Holds c vs) :
    Cells.readFrom c 0 vs.length = some vs :=
  (Cells.readFrom_eq_some c 0 vs.length vs).2 ⟨rfl, fun j hj => by simpa using h j hj⟩

/-- An operand plane that holds the values goes on with them. -/
theorem withPlane_of_holds {s : State} {p : OperandPlane} {vs : List F64} (h : Cells.Holds (s.plane p.name) vs)
    (go : List F64 → Host.Outcome State Fault Refusal) : withPlane s p vs.length go = go vs := by
  unfold withPlane; rw [Cells.holds_readFrom h]

/-- An operand buffer that holds the bytes goes on with them. -/
theorem withBytes_of_holds {s : State} {b : OperandBuffer} {vs : List Byte} (h : Cells.Holds (s.buffer b.name) vs)
    (go : List Byte → Host.Outcome State Fault Refusal) : withBytes s b vs.length go = go vs := by
  unfold withBytes; rw [Cells.holds_readFrom h]

/-- The first byte of an operand buffer, where it holds one. -/
theorem withFirstByte_of_read {s : State} {b : OperandBuffer} {v : Byte}
    (h : Cells.read (s.buffer b.name) 0 = some v) (go : Byte → Host.Outcome State Fault Refusal) :
    withFirstByte s b go = go v := by
  unfold withFirstByte; rw [h]

/-- Everything reading an operand plane can do: go on with the values it holds, or refuse. -/
theorem withPlane_cases (s : State) (p : OperandPlane) (n : Nat) (go : List F64 → Host.Outcome State Fault Refusal) :
    (∃ vs, vs.length = n ∧ Cells.Holds (s.plane p.name) vs ∧ withPlane s p n go = go vs) ∨
      (¬ Cells.Filled (s.plane p.name) n ∧ withPlane s p n go = .refused (.unwrittenElement p.name)) := by
  unfold withPlane
  split
  · rename_i vs h
    exact .inl ⟨vs, (Cells.readFrom_holds h).1, (Cells.readFrom_holds h).2, rfl⟩
  · rename_i h
    refine .inr ⟨fun hf => ?_, rfl⟩
    obtain ⟨vs, hv⟩ := (Cells.filled_iff _ _).1 hf
    rw [h] at hv; cases hv

/-- Everything reading an operand buffer can do. -/
theorem withBytes_cases (s : State) (b : OperandBuffer) (n : Nat)
    (go : List Byte → Host.Outcome State Fault Refusal) :
    (∃ vs, vs.length = n ∧ Cells.Holds (s.buffer b.name) vs ∧ withBytes s b n go = go vs) ∨
      (¬ Cells.Filled (s.buffer b.name) n ∧ withBytes s b n go = .refused (.unwrittenByte b.name)) := by
  unfold withBytes
  split
  · rename_i vs h
    exact .inl ⟨vs, (Cells.readFrom_holds h).1, (Cells.readFrom_holds h).2, rfl⟩
  · rename_i h
    refine .inr ⟨fun hf => ?_, rfl⟩
    obtain ⟨vs, hv⟩ := (Cells.filled_iff _ _).1 hf
    rw [h] at hv; cases hv

/-- Everything the sign test's read can do. -/
theorem withFirstByte_cases (s : State) (b : OperandBuffer) (go : Byte → Host.Outcome State Fault Refusal) :
    (∃ v, Cells.read (s.buffer b.name) 0 = some v ∧ withFirstByte s b go = go v) ∨
      (Cells.read (s.buffer b.name) 0 = none ∧ withFirstByte s b go = .refused (.unwrittenByte b.name)) := by
  unfold withFirstByte
  split
  · rename_i v h; exact .inl ⟨v, h, rfl⟩
  · rename_i h; exact .inr ⟨h, rfl⟩

/-! ### Ends of a command -/

/-- A failed command changes `STATUS` and nothing else (R228). -/
theorem raise_eq (c : StatusCode) (s : State) : raise c s = .next { s with status := c.word } := rfl

theorem succeed_eq (s : State) : succeed s = .next { s with status := StatusCode.ok.word } := rfl

@[simp] theorem ok_word : StatusCode.ok.word = 0#32 := rfl
@[simp] theorem invalidLength_word : StatusCode.invalidLength.word = 1#32 := rfl
@[simp] theorem precisionExceeded_word : StatusCode.precisionExceeded.word = 2#32 := rfl
@[simp] theorem invalidInput_word : StatusCode.invalidInput.word = 3#32 := rfl
@[simp] theorem illegalCommand_word : StatusCode.illegalCommand.word = 4#32 := rfl

/-! ### The canonical form is kept -/

theorem Memory.wf_iff (s : State) :
    Memory.wf s = true ↔ (∀ p, Cells.wf (s.plane p) = true) ∧ ∀ b, Cells.wf (s.buffer b) = true := by
  simp only [Memory.wf, Bool.and_eq_true]
  constructor
  · rintro ⟨⟨⟨⟨⟨⟨⟨h1, h2⟩, h3⟩, h4⟩, h5⟩, h6⟩, h7⟩, h8⟩
    exact ⟨fun p => by cases p <;> assumption, fun b => by cases b <;> assumption⟩
  · rintro ⟨hp, hb⟩
    exact ⟨⟨⟨⟨⟨⟨⟨hp .xaRe, hp .xaIm⟩, hp .xbRe⟩, hp .yRe⟩, hp .yIm⟩, hb .ba⟩, hb .bb⟩, hb .byBuf⟩

theorem Memory.wf_setStatus (c : StatusCode) {s : State} (h : Memory.wf s = true) :
    Memory.wf (setStatus c s) = true := h

theorem Memory.wf_writeScalarResult (p : Params) (z : Cplx FVal) {s : State} (h : Memory.wf s = true) :
    Memory.wf (writeScalarResult p z s) = true := h

theorem Memory.wf_writeTransformResult (p : Params) (w : List (Cplx FVal)) {s : State} (h : Memory.wf s = true) :
    Memory.wf (writeTransformResult p w s) = true := by
  rw [Memory.wf_iff] at h ⊢
  refine ⟨fun q => ?_, h.2⟩
  cases q
  · exact h.1 .xaRe
  · exact h.1 .xaIm
  · exact h.1 .xbRe
  · exact Cells.wf_writeFrom _ 0 (h.1 .yRe)
  · exact Cells.wf_writeFrom _ 0 (h.1 .yIm)

theorem Memory.wf_writeRealResult (p : Params) (w : List FVal) {s : State} (h : Memory.wf s = true) :
    Memory.wf (writeRealResult p w s) = true := by
  rw [Memory.wf_iff] at h ⊢
  refine ⟨fun q => ?_, h.2⟩
  cases q
  · exact h.1 .xaRe
  · exact h.1 .xaIm
  · exact h.1 .xbRe
  · exact Cells.wf_writeFrom _ 0 (h.1 .yRe)
  · rfl

theorem Memory.wf_writeByteResult (out : List Byte) {s : State} (h : Memory.wf s = true) :
    Memory.wf (writeByteResult out s) = true := by
  rw [Memory.wf_iff] at h ⊢
  refine ⟨h.1, fun q => ?_⟩
  cases q
  · exact h.2 .ba
  · exact h.2 .bb
  · exact Cells.wf_writeFrom _ 0 (h.2 .byBuf)

theorem Memory.wf_writeOperandPlane (n : OperandPlane) (j : Nat) (v : F64) {s : State} (h : Memory.wf s = true) :
    Memory.wf (s.setOperandPlane n (Cells.write (s.plane n.name) j v)) = true := by
  rw [Memory.wf_iff] at h ⊢
  refine ⟨fun q => ?_, fun q => by rw [buffer_setOperandPlane]; exact h.2 q⟩
  by_cases hq : q = n.name
  · subst hq; rw [plane_setOperandPlane]; exact Cells.wf_write j v (h.1 _)
  · rw [plane_setOperandPlane_of_ne _ _ _ _ hq]; exact h.1 q

theorem Memory.wf_writeOperandBuffer (n : OperandBuffer) (j : Nat) (v : Byte) {s : State}
    (h : Memory.wf s = true) : Memory.wf (s.setOperandBuffer n (Cells.write (s.buffer n.name) j v)) = true := by
  rw [Memory.wf_iff] at h ⊢
  refine ⟨fun q => by rw [plane_setOperandBuffer]; exact h.1 q, fun q => ?_⟩
  by_cases hq : q = n.name
  · subst hq; rw [buffer_setOperandBuffer]; exact Cells.wf_write j v (h.2 _)
  · rw [buffer_setOperandBuffer_of_ne _ _ _ _ hq]; exact h.2 q

theorem Memory.wf_resetBlock (s : State) : Memory.wf (resetBlock s) = true := rfl

end Sys2Proof.Machine
end

