-- ==== Sys2Proof/Laws/Transform.lean ====
section
/-! SUPPORT. The transform's schedule and lengths: what the double buffer's read side holds after each stage, and how
many elements every result has. -/

namespace Sys2Proof.Machine

variable {α : Type}

@[simp] theorem DoubleBuffer.prev_start (z : List α) : (DoubleBuffer.start z).prev = z := rfl

/-- After a stage the buffer to read is the stage's value on the buffer read before (R127). -/
@[simp] theorem DoubleBuffer.prev_pass (b : DoubleBuffer α) (stage : List α → List α) :
    (b.pass stage).prev = stage b.prev := by
  obtain ⟨p0, p1, cur⟩ := b
  cases cur <;> rfl

/-- The run of the stages `m - 1 ... 0` as a plain composition. -/
def stagesFrom (stage : Nat → List α → List α) : Nat → List α → List α
  | 0, z => z
  | s + 1, z => stagesFrom stage s (stage s z)

/-- The double buffer computes the composition of the stages (R127). -/
theorem prev_runStages (stage : Nat → List α → List α) (m : Nat) (b : DoubleBuffer α) :
    (runStages stage m b).prev = stagesFrom stage m b.prev := by
  induction m generalizing b with
  | zero => rfl
  | succ s ih => simp [runStages, stagesFrom, ih]

@[simp] theorem length_stagePass (bfly : α → α → α → α × α) (z : α) (idx : Nat → ButterflyIndex) (h : Nat)
    (tw prev : List α) : (stagePass bfly z idx h tw prev).length = h + h := by
  simp [stagePass]

theorem length_stagesFrom (stage : Nat → List α → List α) (n : Nat) (hs : ∀ s z, (stage s z).length = n) (m : Nat)
    (z : List α) (hz : z.length = n) : (stagesFrom stage m z).length = n := by
  induction m generalizing z with
  | zero => exact hz
  | succ s ih => exact ih _ (hs s z)

/-- A forward run keeps the length of its input (R131). -/
theorem length_fwdEngine (bfly : α → α → α → α × α) (z : α) (table : Nat → List α) (m : Nat) (input : List α)
    (h : input.length = 2 ^ m) : (fwdEngine bfly z table m input).length = 2 ^ m := by
  unfold fwdEngine
  rw [prev_runStages, DoubleBuffer.prev_start]
  cases m with
  | zero => exact h
  | succ k =>
    refine length_stagesFrom _ _ (fun s y => ?_) _ _ h
    rw [length_stagePass, Nat.pow_succ]
    omega

/-- An inverse run keeps the length of its input (R149). -/
theorem length_invEngine (bfly : α → α → α → α × α) (z : α) (table : Nat → List α) (m : Nat) (input : List α)
    (h : input.length = 2 ^ m) : (invEngine bfly z table m input).length = 2 ^ m := by
  unfold invEngine
  rw [prev_runStages, DoubleBuffer.prev_start]
  cases m with
  | zero => exact h
  | succ k =>
    refine length_stagesFrom _ _ (fun s y => ?_) _ _ h
    rw [length_stagePass, Nat.pow_succ]
    omega

theorem length_fwdTransform (trig : Trig) (m : Nat) (input : List (Cplx FVal)) (h : input.length = 2 ^ m) :
    (fwdTransform trig m input).length = 2 ^ m := length_fwdEngine _ _ _ _ _ h

theorem length_invTransform (trig : Trig) (m : Nat) (input : List (Cplx FVal)) (h : input.length = 2 ^ m) :
    (invTransform trig m input).length = 2 ^ m := by
  unfold invTransform
  rw [List.length_map, length_invEngine _ _ _ _ _ h]

/-! ### Lengths that are powers of two (R10) -/

theorem isPow2_iff (m : Nat) : isPow2 m = true ↔ ∃ k, m = 2 ^ k := by
  unfold isPow2
  constructor
  · intro h
    simp only [Bool.and_eq_true, bne_iff_ne, beq_iff_eq] at h
    exact ⟨m.log2, h.2.symm⟩
  · rintro ⟨k, rfl⟩
    simp [Nat.log2_two_pow]

theorem two_pow_log2_of_isPow2 {m : Nat} (h : isPow2 m = true) : 2 ^ m.log2 = m := by
  unfold isPow2 at h
  simp only [Bool.and_eq_true, bne_iff_ne, beq_iff_eq] at h
  exact h.2

theorem isPow2_nextPow2 (m : Nat) : isPow2 (nextPow2 m) = true := by
  rw [isPow2_iff]
  unfold nextPow2
  split
  · exact ⟨0, rfl⟩
  · exact ⟨_, rfl⟩

theorem le_nextPow2 (m : Nat) : m ≤ nextPow2 m := by
  unfold nextPow2
  split
  · omega
  · have := Nat.lt_log2_self (n := m - 1)
    omega

@[simp] theorem length_padWiden (n : Nat) (u : List FVal) : (padWiden n u).length = n := by simp [padWiden]

/-- The convolution has the padded length (R161). -/
theorem length_convolve (trig : Trig) (u v : List FVal) :
    (convolve trig u v).length = nextPow2 (u.length + v.length) := by
  have hp := two_pow_log2_of_isPow2 (isPow2_nextPow2 (u.length + v.length))
  have hf : ∀ w : List FVal, (fwdTransform trig (nextPow2 (u.length + v.length)).log2
      (padWiden (nextPow2 (u.length + v.length)) w)).length = 2 ^ (nextPow2 (u.length + v.length)).log2 :=
    fun w => length_fwdTransform _ _ _ (by rw [length_padWiden, hp])
  unfold convolve
  rw [List.length_map, length_invTransform _ _ _ (by rw [List.length_zipWith, hf, hf, Nat.min_self]), hp]

@[simp] theorem length_coefficients (signed : Bool) (bytes : List Byte) :
    (coefficients signed bytes).length = bytes.length := by simp [coefficients]

theorem length_of_roundAll {xs : List FVal} {rs : List Int} (h : roundAll xs = some rs) : rs.length = xs.length := by
  induction xs generalizing rs with
  | nil => simp only [roundAll, Option.some.injEq] at h; subst h; rfl
  | cons x xs ih =>
    simp only [roundAll] at h
    split at h
    · rename_i r rs' h₁ h₂
      obtain rfl := Option.some.inj h
      simp [ih h₂]
    · cases h

@[simp] theorem length_carryDigits (carry : Int) (r : List Int) : (carryDigits carry r).length = r.length := by
  induction r generalizing carry with
  | nil => rfl
  | cons r rs ih => simp [carryDigits, ih]

/-- The product has `L = NextPow2(NBA + NBB)` bytes (R190). -/
theorem length_of_bigProduct {trig : Trig} {signed : Bool} {a b out : List Byte}
    (h : bigProduct trig signed a b = some out) : out.length = nextPow2 (a.length + b.length) := by
  unfold bigProduct at h
  cases hr : roundAll (convolve trig (coefficients signed a) (coefficients signed b)) with
  | none => rw [hr] at h; cases h
  | some r =>
    rw [hr] at h
    obtain rfl := Option.some.inj h
    rw [propagateCarries, List.length_reverse, length_carryDigits, length_of_roundAll hr, length_convolve,
      length_coefficients, length_coefficients]

end Sys2Proof.Machine
end

