-- ==== Sys2Proof/Laws/Step.lean ====
section
/-! SUPPORT. Everything a command and a step can do, once: later proofs take these cases instead of unfolding. -/

namespace Sys2Proof.Machine

/-- A command's next state, whatever the parameters, is one of these: a failure that writes `STATUS` alone, or one of the four kinds of result,
with the length a result has. -/
inductive CommandEffect (p : Params) (s t : State) : Prop where
  | failed (c : StatusCode) (h : t = setStatus c s)
  | scalar (z : Cplx FVal) (h : t = setStatus .ok (writeScalarResult p z s))
  | transform (w : List (Cplx FVal)) (len : ∃ k, w.length = 2 ^ k) (cap : w.length ≤ p.nMax)
      (h : t = setStatus .ok (writeTransformResult p w s))
  | real (w : List FVal) (len : ∃ k, w.length = 2 ^ k) (cap : w.length ≤ p.nMax)
      (h : t = setStatus .ok (writeRealResult p w s))
  | bytes (out : List Byte) (len : ∃ k, out.length = 2 ^ k) (cap : out.length ≤ p.nMax)
      (h : t = setStatus .ok (writeByteResult out s))

theorem one_le_nMax (p : Params) : 1 ≤ p.nMax := Nat.one_le_two_pow

theorem fft_effect {p : Params} {s t : State} (h : fftWith p s = .next t) : CommandEffect p s t := by
  unfold fftWith at h
  split at h
  · exact .failed _ (Host.Outcome.next.inj h).symm
  · rename_i hc
    simp only [Bool.or_eq_true, Bool.not_eq_true', decide_eq_true_eq, not_or, Bool.not_eq_false, not_lt] at hc
    rcases withPlane_cases s .xaRe s.naRe _ with ⟨x, hl, -, hw⟩ | ⟨-, hw⟩ <;> rw [hw] at h
    · have len : (fwdTransform p.trig s.naRe.log2 (x.map widen)).length = s.naRe := by
        rw [length_fwdTransform _ _ _ (by rw [List.length_map, hl, two_pow_log2_of_isPow2 hc.1]),
          two_pow_log2_of_isPow2 hc.1]
      exact .transform _ (by rw [len]; exact (isPow2_iff _).1 hc.1) (by rw [len]; exact hc.2)
        (Host.Outcome.next.inj h).symm
    · cases h

theorem ifft_effect {p : Params} {s t : State} (h : ifftWith p s = .next t) : CommandEffect p s t := by
  unfold ifftWith at h
  split at h
  · exact .failed _ (Host.Outcome.next.inj h).symm
  split at h
  · exact .failed _ (Host.Outcome.next.inj h).symm
  · rename_i hc
    simp only [Bool.or_eq_true, Bool.not_eq_true', decide_eq_true_eq, not_or, Bool.not_eq_false, not_lt] at hc
    rcases withPlane_cases s .xaRe s.naRe _ with ⟨re, hl, -, hw⟩ | ⟨-, hw⟩ <;> rw [hw] at h
    · rcases withPlane_cases s .xaIm s.naRe _ with ⟨im, hl', -, hw⟩ | ⟨-, hw⟩ <;> rw [hw] at h
      · have len := length_invTransform p.trig s.naRe.log2
          (List.zipWith (fun a b => (⟨.bits a, .bits b⟩ : Cplx FVal)) re im)
          (by rw [List.length_zipWith, hl, hl', Nat.min_self, two_pow_log2_of_isPow2 hc.1])
        rw [two_pow_log2_of_isPow2 hc.1] at len
        exact .transform _ (by rw [len]; exact (isPow2_iff _).1 hc.1) (by rw [len]; exact hc.2)
          (Host.Outcome.next.inj h).symm
      · cases h
    · cases h

theorem conv_effect {p : Params} {s t : State} (h : convWith p s = .next t) : CommandEffect p s t := by
  unfold convWith at h
  split at h
  · exact .failed _ (Host.Outcome.next.inj h).symm
  split at h
  · exact .failed _ (Host.Outcome.next.inj h).symm
  · rename_i hc
    rcases withPlane_cases s .xaRe s.naRe _ with ⟨u, hu, -, hw⟩ | ⟨-, hw⟩ <;> rw [hw] at h
    · rcases withPlane_cases s .xbRe s.nbRe _ with ⟨v, hv, -, hw⟩ | ⟨-, hw⟩ <;> rw [hw] at h
      · have len := length_convolve p.trig (u.map .bits) (v.map .bits)
        rw [List.length_map, List.length_map, hu, hv] at len
        exact .real _ (by rw [len]; exact (isPow2_iff _).1 (isPow2_nextPow2 _)) (by rw [len]; omega)
          (Host.Outcome.next.inj h).symm
      · cases h
    · cases h

theorem bmul_effect {p : Params} {s t : State} (h : bmulWith p s = .next t) : CommandEffect p s t := by
  unfold bmulWith at h
  split at h
  · exact .bytes [0x00#8] ⟨0, rfl⟩ (one_le_nMax p) (Host.Outcome.next.inj h).symm
  rcases withFirstByte_cases s .ba _ with ⟨a0, -, hw⟩ | ⟨-, hw⟩ <;> rw [hw] at h
  · rcases withFirstByte_cases s .bb _ with ⟨b0, -, hw⟩ | ⟨-, hw⟩ <;> rw [hw] at h
    · split at h
      · exact .failed _ (Host.Outcome.next.inj h).symm
      split at h
      · exact .failed _ (Host.Outcome.next.inj h).symm
      split at h
      · exact .failed _ (Host.Outcome.next.inj h).symm
      · rename_i hc
        rcases withBytes_cases s .ba s.nba _ with ⟨a, ha, -, hw⟩ | ⟨-, hw⟩ <;> rw [hw] at h
        · rcases withBytes_cases s .bb s.nbb _ with ⟨b, hb, -, hw⟩ | ⟨-, hw⟩ <;> rw [hw] at h
          · split at h
            · exact .failed _ (Host.Outcome.next.inj h).symm
            · rename_i out hout
              have len := length_of_bigProduct hout
              rw [ha, hb] at len
              exact .bytes _ (by rw [len]; exact (isPow2_iff _).1 (isPow2_nextPow2 _)) (by rw [len]; omega)
                (Host.Outcome.next.inj h).symm
          · cases h
        · cases h
    · cases h
  · cases h

/-- Everything a command can do when it answers a next state. -/
theorem exec_effect {i : Instr} {s t : State} (h : exec i s = .next t) : CommandEffect block s t := by
  cases i with
  | cadd => exact .scalar _ (Host.Outcome.next.inj h).symm
  | csub => exact .scalar _ (Host.Outcome.next.inj h).symm
  | cmul => exact .scalar _ (Host.Outcome.next.inj h).symm
  | crnd => exact .scalar _ (Host.Outcome.next.inj h).symm
  | fft => exact fft_effect h
  | ifft => exact ifft_effect h
  | conv => exact conv_effect h
  | bmul => exact bmul_effect h

/-- Everything a step can do: run a pending command, raise `IllegalCommand` for a pending word that is none, let the
host make its next move, or wait. -/
theorem step_cases {s t : State} (h : step s = .next t) :
    (∃ w i, s.cmd = some w ∧ decode w = some i ∧ exec i (takeCommand s) = .next t) ∨
      (∃ w, s.cmd = some w ∧ decode w = none ∧ t = setStatus .illegalCommand (takeCommand s)) ∨
      (∃ a rest, s.cmd = none ∧ s.script = a :: rest ∧ hostMove block a { s with script := rest } = .next t) ∨
      (s.cmd = none ∧ s.script = [] ∧ t = s) := by
  unfold step at h
  split at h
  · rename_i hc
    unfold awaitCommand at h
    split at h
    · rename_i hs
      exact .inr (.inr (.inr ⟨hc, hs, (Host.Outcome.next.inj h).symm⟩))
    · rename_i a rest hs
      exact .inr (.inr (.inl ⟨a, rest, hc, hs, h⟩))
  · rename_i w hc
    split at h
    · rename_i i hd
      exact .inl ⟨w, i, hc, hd, h⟩
    · rename_i hd
      exact .inr (.inl ⟨w, hc, hd, (Host.Outcome.next.inj h).symm⟩)

end Sys2Proof.Machine
end

