-- ==== Sys2Proof/Laws/HostPort.lean ====
section
/-! SUPPORT. What a host move can do: the elementary changes it is made of, and an induction over them. -/

namespace Sys2Proof.Machine

/-- A property of states that every elementary change of a host move keeps. -/
structure HostStable (p : Params) (P : State → Prop) : Prop where
  setLength : ∀ s r v, v ≤ p.nMax → P s → P (s.setLength r v)
  setField : ∀ s f v, P s → P (s.setField f v)
  writePlane : ∀ s n j v, j < p.nMax → P s → P (s.setOperandPlane n (Cells.write (s.plane n.name) j v))
  writeByte : ∀ s n j v, j < p.nMax → P s → P (s.setOperandBuffer n (Cells.write (s.buffer n.name) j v))
  writeCmd : ∀ s w, P s → P { s with cmd := some w }
  readData : ∀ s d, P s → P { s with readData := some d }
  reset : ∀ s, P s → P (resetBlock s)

variable {p : Params} {P : State → Prop} {s t : State}

/-- Everything a host read of a plane element can do: go on with one value, the same whatever comes after, or refuse. -/
theorem hostReadPlane_cases (p : Params) (s : State) (n : PlaneName) (j : Nat) :
    (∃ v, ∀ go, hostReadPlane p s n j go = go v) ∨
      (∀ go, hostReadPlane p s n j go = .refused (.unwrittenElement n)) ∨
      ∀ go, hostReadPlane p s n j go = .refused (.noSuchElement n j) := by
  unfold hostReadPlane
  cases elementRead p.nMax (s.plane n) (unspecifiedElement p s n) (s.planeLength n) j with
  | value v => exact .inl ⟨v, fun _ => rfl⟩
  | unwritten => exact .inr (.inl fun _ => rfl)
  | outside => exact .inr (.inr fun _ => rfl)

/-- Everything a host read of a byte can do. -/
theorem hostReadByte_cases (p : Params) (s : State) (n : BufferName) (j : Nat) :
    (∃ v, ∀ go, hostReadByte p s n j go = go v) ∨
      (∀ go, hostReadByte p s n j go = .refused (.unwrittenByte n)) ∨
      ∀ go, hostReadByte p s n j go = .refused (.noSuchByte n j) := by
  unfold hostReadByte
  cases elementRead p.nMax (s.buffer n) (unspecifiedByte p s n) (s.bufferLength n) j with
  | value v => exact .inl ⟨v, fun _ => rfl⟩
  | unwritten => exact .inr (.inl fun _ => rfl)
  | outside => exact .inr (.inr fun _ => rfl)

theorem hostReadPlane_next {n : PlaneName} {j : Nat} {go : F64 → Host.Outcome State Fault Refusal}
    (h : hostReadPlane p s n j go = .next t) : ∃ v, go v = .next t := by
  rcases hostReadPlane_cases p s n j with ⟨v, hv⟩ | hv | hv <;> rw [hv] at h
  · exact ⟨v, h⟩
  · cases h
  · cases h

theorem hostReadByte_next {n : BufferName} {j : Nat} {go : Byte → Host.Outcome State Fault Refusal}
    (h : hostReadByte p s n j go = .next t) : ∃ v, go v = .next t := by
  rcases hostReadByte_cases p s n j with ⟨v, hv⟩ | hv | hv <;> rw [hv] at h
  · exact ⟨v, h⟩
  · cases h
  · cases h

theorem hostWritePlane_stable (hP : HostStable p P) {n : OperandPlane} {j : Nat} {v : F64}
    {go : State → Host.Outcome State Fault Refusal} (hs : P s) (hgo : ∀ u, P u → go u = .next t → P t)
    (h : hostWritePlane p s n j v go = .next t) : P t := by
  unfold hostWritePlane at h
  split at h
  · cases h
  · exact hgo _ (hP.writePlane s n j v (by omega) hs) h

theorem hostWriteByte_stable (hP : HostStable p P) {n : OperandBuffer} {j : Nat} {v : Byte}
    {go : State → Host.Outcome State Fault Refusal} (hs : P s) (hgo : ∀ u, P u → go u = .next t → P t)
    (h : hostWriteByte p s n j v go = .next t) : P t := by
  unfold hostWriteByte at h
  split at h
  · cases h
  · exact hgo _ (hP.writeByte s n j v (by omega) hs) h

theorem next_stable (hs : P s) (h : (.next s : Host.Outcome State Fault Refusal) = .next t) : P t := by
  obtain rfl := Host.Outcome.next.inj h; exact hs

theorem hostSetPlane_stable (hP : HostStable p P) (n : OperandPlane) (vs : List F64) :
    ∀ j s, P s → hostSetPlane p n j vs s = .next t → P t := by
  induction vs with
  | nil => exact fun _ _ hs h => next_stable hs h
  | cons v vs ih => exact fun j s hs h => hostWritePlane_stable hP hs (fun u hu hn => ih _ u hu hn) h

theorem hostSetBuffer_stable (hP : HostStable p P) (n : OperandBuffer) (vs : List Byte) :
    ∀ j s, P s → hostSetBuffer p n j vs s = .next t → P t := by
  induction vs with
  | nil => exact fun _ _ hs h => next_stable hs h
  | cons v vs ih => exact fun j s hs h => hostWriteByte_stable hP hs (fun u hu hn => ih _ u hu hn) h

theorem hostCopyPlane_stable (hP : HostStable p P) (dst : OperandPlane) (src : PlaneName) (count : Nat) :
    ∀ j s, P s → hostCopyPlane p dst src j count s = .next t → P t := by
  induction count with
  | zero => exact fun _ _ hs h => next_stable hs h
  | succ n ih =>
    intro j s hs h
    obtain ⟨v, hv⟩ := hostReadPlane_next h
    exact hostWritePlane_stable hP hs (fun x hx hm => ih _ x hx hm) hv

theorem hostCopyBuffer_stable (hP : HostStable p P) (dst : OperandBuffer) (src : BufferName) (count : Nat) :
    ∀ j s, P s → hostCopyBuffer p dst src j count s = .next t → P t := by
  induction count with
  | zero => exact fun _ _ hs h => next_stable hs h
  | succ n ih =>
    intro j s hs h
    obtain ⟨v, hv⟩ := hostReadByte_next h
    exact hostWriteByte_stable hP hs (fun x hx hm => ih _ x hx hm) hv

/-- A property every elementary change keeps is kept by every host move. -/
theorem hostMove_stable (hP : HostStable p P) {a : HostAction} (hs : P s) (h : hostMove p a s = .next t) : P t := by
  cases a with
  | setLength r v =>
    simp only [hostMove] at h
    split at h
    · cases h
    · exact next_stable (hP.setLength s r v (by omega) hs) h
  | setField f v => exact next_stable (hP.setField s f v hs) h
  | writePlane n j v => exact hostWritePlane_stable hP hs (fun u hu hn => next_stable hu hn) h
  | writeByte n j v => exact hostWriteByte_stable hP hs (fun u hu hn => next_stable hu hn) h
  | setPlane n vs => exact hostSetPlane_stable hP n vs 0 s hs h
  | setBuffer n vs => exact hostSetBuffer_stable hP n vs 0 s hs h
  | copyPlane dst src => exact hostCopyPlane_stable hP dst src _ 0 s hs h
  | copyBuffer dst src => exact hostCopyBuffer_stable hP dst src _ 0 s hs h
  | writeCmd w => exact next_stable (hP.writeCmd s w hs) h
  | readRegister r => exact next_stable (hP.readData s _ hs) h
  | readPlane n j =>
    obtain ⟨v, hv⟩ := hostReadPlane_next h
    exact next_stable (hP.readData s _ hs) hv
  | readByte n j =>
    obtain ⟨v, hv⟩ := hostReadByte_next h
    exact next_stable (hP.readData s _ hs) hv
  | reset => exact next_stable (hP.reset s hs) h

/-- The canonical form is kept by every host move. -/
theorem Memory.wf_hostMove {a : HostAction} (hs : Memory.wf s = true) (h : hostMove p a s = .next t) :
    Memory.wf t = true := by
  refine hostMove_stable (P := fun s => Memory.wf s = true) ?_ hs h
  exact
    { setLength := fun s r v _ hs => by cases r <;> exact hs
      setField := fun s f v hs => by cases f <;> exact hs
      writePlane := fun s n j v _ hs => Memory.wf_writeOperandPlane n j v hs
      writeByte := fun s n j v _ hs => Memory.wf_writeOperandBuffer n j v hs
      writeCmd := fun s w hs => hs
      readData := fun s d hs => hs
      reset := fun s _ => Memory.wf_resetBlock s }

end Sys2Proof.Machine
end

