-- ==== Sys2Proof/Laws/PerInstr.lean ====
section
/-! SUPPORT. What is said of every command, constructor by constructor. -/

namespace Sys2Proof.Laws.ReservedClear

/-- R70, R73: a command's word has a zero `rsvd` field, its `opcode` field is the command's opcode, and that is not
zero, so a cleared register is no command. -/
def Statement (i : Instr) : Prop := (encode i).rsvd = 0#24 ∧ (encode i).opcode = i.opcode ∧ i.opcode ≠ 0#8

theorem cadd : Statement .cadd := by unfold Statement; decide
theorem csub : Statement .csub := by unfold Statement; decide
theorem cmul : Statement .cmul := by unfold Statement; decide
theorem crnd : Statement .crnd := by unfold Statement; decide
theorem fft : Statement .fft := by unfold Statement; decide
theorem ifft : Statement .ifft := by unfold Statement; decide
theorem conv : Statement .conv := by unfold Statement; decide
theorem bmul : Statement .bmul := by unfold Statement; decide

end Sys2Proof.Laws.ReservedClear
end

