-- ==== Sys2Proof/Tests/Slice0.lean ====
section
/-! SUPPORT. The model's own tests. Expected values are those of 95_test_vectors.md (the row's id stands in each
comment) or words written out from the encoding of R70 and R72. The last part shows, for every obligation that has
hypotheses, a state and operands that meet them together. -/

namespace Sys2Proof.Tests

open Sys2Proof.Machine

/-! ### Well-formedness: an ill-formed term for each check -/

theorem test_wf_reserved_set : Word.wellFormed 0x00000110#32 = false ∧ Word.reservedClear 0x00000110#32 = false := by
  decide

theorem test_wf_opcode_unknown : Word.wellFormed 0x00000005#32 = false ∧ Word.opcodeKnown 0x00000005#32 = false := by
  decide

theorem test_wf_command_words : ∀ w ∈ opcodeMap, Word.wellFormed w.1 = true ∧ w.2.wellFormed = true := by decide

/-! ### Decoding: rsvd (24 bits) and opcode (8 bits) written out from R70 and R72 -/

theorem test_decode_cadd : decode 0b00000000000000000000000000000001#32 = some .cadd := by decide
theorem test_decode_csub : decode 0b00000000000000000000000000000010#32 = some .csub := by decide
theorem test_decode_cmul : decode 0b00000000000000000000000000000011#32 = some .cmul := by decide
theorem test_decode_crnd : decode 0b00000000000000000000000000000100#32 = some .crnd := by decide
theorem test_decode_fft : decode 0b00000000000000000000000000010000#32 = some .fft := by decide
theorem test_decode_ifft : decode 0b00000000000000000000000000010001#32 = some .ifft := by decide
theorem test_decode_conv : decode 0b00000000000000000000000000100000#32 = some .conv := by decide
theorem test_decode_bmul : decode 0b00000000000000000000000000110000#32 = some .bmul := by decide

/-- V-DEC-1 to V-DEC-6. -/
theorem test_decode_illegal :
    [0x00000000#32, 0x00000005#32, 0x00000110#32, 0x80000030#32, 0x00000012#32, 0xFFFFFFFF#32].map decode =
      List.replicate 6 none := by decide

theorem test_decode_table_word : decodeTableWord 32 0x20 = some .conv ∧ decodeTableWord 32 0x120 = none := by decide

/-! ### Helpers -/

/-- A check of the next state; a fault or a refusal fails it. -/
def after (o : Host.Outcome State Fault Refusal) (check : State → Bool) : Bool :=
  match o with
  | .next t => check t
  | .fault _ => false
  | .refused _ => false

/-- The state after reset with the two scalar operands written. -/
def scalars (aRe aIm bRe bIm : F64) : State := { State.reset with ca := ⟨aRe, aIm⟩, cb := ⟨bRe, bIm⟩ }

/-- `CR` holds the value and `STATUS` is `OK`. -/
def crIs (re im : F64) (t : State) : Bool := decide (t.cr = ⟨re, im⟩ ∧ t.status = 0#32)

/-- An integer's `f64`. -/
def real (m : Int) : F64 :=
  match i2f m with
  | .bits b => b
  | .nanResult => 0#64

/-- The cells that hold the values from element 0 on. -/
def cells {w : Nat} (vs : List (BitVec w)) : Cells w := Cells.writeFrom [] 0 vs

/-- The cosine values of 95_test_vectors.md section 2.2 for lengths up to 8. -/
def libCos (x : F64) : F64 :=
  if x = 0x0000000000000000#64 ∨ x = 0x8000000000000000#64 then 0x3FF0000000000000#64
  else if x = 0x3FF921FB54442D18#64 ∨ x = 0xBFF921FB54442D18#64 then 0x3C91A62633145C07#64
  else if x = 0x3FE921FB54442D18#64 ∨ x = 0xBFE921FB54442D18#64 then 0x3FE6A09E667F3BCD#64
  else 0xBFE6A09E667F3BCC#64

/-- The sine values of 95_test_vectors.md section 2.2 for lengths up to 8. -/
def libSin (x : F64) : F64 :=
  if x = 0x0000000000000000#64 ∨ x = 0x8000000000000000#64 then x
  else if x = 0x3FF921FB54442D18#64 then 0x3FF0000000000000#64
  else if x = 0xBFF921FB54442D18#64 then 0xBFF0000000000000#64
  else if x = 0x3FE921FB54442D18#64 then 0x3FE6A09E667F3BCC#64
  else if x = 0xBFE921FB54442D18#64 then 0xBFE6A09E667F3BCC#64
  else if x = 0x4002D97C7F3321D2#64 then 0x3FE6A09E667F3BCD#64
  else 0xBFE6A09E667F3BCD#64

/-- The default parameters of R7 with that library. -/
def libParams : Params where
  nMaxLog2 := 21
  maxTotalBytes := 2000000
  coefSigned := true
  cosElsewhere := libCos
  sinElsewhere := libSin
  nanSign _ := 0#1
  nanFraction _ := 0x8000000000000#52
  yReUnspecified _ _ := 0#64
  yImUnspecified _ _ := 0#64
  byUnspecified epoch j := BitVec.ofNat 8 (epoch + j)

/-! ### Scalar commands, through a step from a word pending in CMD -/

/-- V-C-4. -/
theorem test_cadd_rounds :
    after (step ((scalars 0x3FB999999999999A#64 0x3FC999999999999A#64 0x3FD3333333333333#64
      0x3FD999999999999A#64).withFetchWord 32 1)) (crIs 0x3FD999999999999A#64 0x3FE3333333333334#64) = true := by
  decide +kernel

/-- V-C-8: `inf + -inf` is a NaN, no fault. -/
theorem test_cadd_infinities :
    after (step ((scalars 0x7FF0000000000000#64 0x3FF0000000000000#64 0xFFF0000000000000#64
      0x3FF0000000000000#64).withFetchWord 32 1)) (fun t => decide (t.cr.im = 0x4000000000000000#64 ∧ t.draws = 1 ∧
        t.status = 0#32)) = true ∧
      cplxAdd ⟨.bits 0x7FF0000000000000#64, plusZero⟩ ⟨.bits 0xFFF0000000000000#64, plusZero⟩ =
        ⟨.nanResult, plusZero⟩ := by
  decide +kernel

/-- V-C-5. -/
theorem test_csub_rounds :
    after (step ((scalars 0x3FB999999999999A#64 0x3FC999999999999A#64 0x3FD3333333333333#64
      0x3FD999999999999A#64).withFetchWord 32 2)) (crIs 0xBFC9999999999999#64 0xBFC999999999999A#64) = true := by
  decide +kernel

/-- V-C-7: `x - x` is `+0.0`. -/
theorem test_csub_zero_sign :
    after (step ((scalars 0x4014000000000000#64 0x8000000000000000#64 0x4014000000000000#64
      0x8000000000000000#64).withFetchWord 32 2)) (crIs 0#64 0#64) = true := by
  decide +kernel

/-- V-C-6: the four-multiply form. -/
theorem test_cmul_four_multiplies :
    after (step ((scalars 0x3FB999999999999A#64 0x3FC999999999999A#64 0x3FD3333333333333#64
      0x3FD999999999999A#64).withFetchWord 32 3)) (crIs 0xBFA999999999999C#64 0x3FB999999999999A#64) = true := by
  decide +kernel

/-- V-C-10: overflow to infinity, no fault. -/
theorem test_cmul_overflow :
    after (step ((scalars 0x7FE1CCF385EBC8A0#64 0#64 0x4024000000000000#64 0#64).withFetchWord 32 3))
      (crIs 0x7FF0000000000000#64 0#64) = true := by
  decide +kernel

/-- V-C-13: ties go up. -/
theorem test_crnd_ties :
    after (step ((scalars 0x3FF8000000000000#64 0xC004000000000000#64 0#64 0#64).withFetchWord 32 4))
      (crIs 0x4000000000000000#64 0xC000000000000000#64) = true := by
  decide +kernel

/-- V-C-14: the sum with `1/2` is exact, so the largest `f64` below `1/2` rounds to `+0.0`. -/
theorem test_crnd_below_half :
    after (step ((scalars 0x3FDFFFFFFFFFFFFF#64 0xBFDFFFFFFFFFFFFF#64 0#64 0#64).withFetchWord 32 4))
      (crIs 0#64 0#64) = true := by
  decide +kernel

/-! ### Transforms, convolution, product: with the library of section 2.2 -/

/-- V-FFT-6. -/
theorem test_fft_four :
    after (fftWith libParams { State.reset with naRe := 4, xaRe := cells [real 1, real 2, real 3, real 4] })
      (fun t => decide (t.ny = 4 ∧ t.status = 0#32 ∧
        t.yRe = cells [0x4024000000000000#64, 0xC000000000000000#64, 0xC000000000000000#64, 0xBFFFFFFFFFFFFFFF#64] ∧
        t.yIm = cells [real 0, real (-2), real 0, real 2])) = true := by
  decide +kernel

/-- V-FFT-E3, from a pending word. -/
theorem test_fft_bad_length :
    step ({ State.reset with naRe := 3, xaRe := cells [real 1, real 2, real 3] }.withFetchWord 32 0x10) =
      .next { State.reset with naRe := 3, xaRe := cells [real 1, real 2, real 3], status := 1#32 } := rfl

/-- V-IFFT-6. -/
theorem test_ifft_four :
    after (ifftWith libParams { State.reset with
        naRe := 4, naIm := 4, xaRe := cells [real 0, real 0, real 0, real 0],
        xaIm := cells [real 0, real 1, real 0, real 0] })
      (fun t => decide (t.ny = 4 ∧ t.status = 0#32 ∧
        (Cells.read t.yRe 1 = some 0x3FD0000000000000#64 ∧ Cells.read t.yRe 3 = some 0xBFD0000000000000#64) ∧
        Cells.read t.yIm 1 = some 0x3C71A62633145C07#64 ∧ Cells.read t.yIm 3 = some 0xBC71A62633145C07#64)) = true := by
  decide +kernel

/-- V-IFFT-E1. -/
theorem test_ifft_planes_differ :
    step ({ State.reset with naRe := 4, naIm := 2 }.withFetchWord 32 0x11) =
      .next { State.reset with naRe := 4, naIm := 2, status := 1#32 } := rfl

/-- V-CONV-1. -/
theorem test_conv_one :
    after (convWith libParams { State.reset with
        naRe := 3, nbRe := 2, xaRe := cells [real 1, real 2, real 3], xbRe := cells [real 1, real 1] })
      (fun t => decide (t.ny = 8 ∧ t.status = 0#32 ∧
        t.yRe = cells [0x3FF0000000000000#64, 0x4008000000000000#64, 0x4014000000000000#64, 0x4008000000000000#64,
          0x3C90000000000000#64, 0x0000000000000000#64, 0x3CC0000000000000#64, 0x0000000000000000#64])) = true := by
  decide +kernel

/-- V-CONV-E1. -/
theorem test_conv_both_empty :
    step (State.reset.withFetchWord 32 0x20) = .next { State.reset with status := 1#32 } := rfl

/-- V-BMUL-S6, signed coefficients. -/
theorem test_bmul_signed :
    after (bmulWith libParams { State.reset with
        nba := 4, nbb := 4, ba := cells [0x07#8, 0x5B#8, 0xCD#8, 0x15#8], bb := cells [0x3A#8, 0xDE#8, 0x68#8, 0xB1#8] })
      (fun t => decide (t.nby = 8 ∧ t.status = 0#32 ∧
        t.byBuf = cells [0x01#8, 0xA9#8, 0x9B#8, 0x62#8, 0x23#8, 0x81#8, 0x3E#8, 0x85#8])) = true := by
  decide +kernel

/-- V-BMUL-F4: the empty test comes before the sign test. -/
theorem test_bmul_empty_first :
    step ({ State.reset with nbb := 1, bb := cells [0x80#8] }.withFetchWord 32 0x30) =
      .next { State.reset with
        nbb := 1, bb := cells [0x80#8], byBuf := [(0, 0#8)], nby := 1, byEpoch := 1 } := rfl

/-- V-BMUL-S6's carry trace. -/
theorem test_carries :
    propagateCarries [-1659, 6213, -13207, 11863, -5324, 5040, 406, 0] =
      [0x01#8, 0xA9#8, 0x9B#8, 0x62#8, 0x23#8, 0x81#8, 0x3E#8, 0x85#8] := by decide +kernel

/-- 95_test_vectors.md section 2.1, `n = 8`, stage 1, butterfly 3, and stage 0, butterfly 2. -/
theorem test_butterfly_indices : fwdIndex 1 3 = ⟨1, 5, 7⟩ ∧ invIndex 2 3 = ⟨1, 5, 7⟩ ∧ fwdIndex 0 2 = ⟨2, 4, 5⟩ := by
  decide

/-! ### The host -/

/-- R76: `COPY XA_RE = Y_RE` reads `NY` elements. -/
theorem test_copy_result :
    after (hostMove libParams (.copyPlane .xaRe .yRe)
        { State.reset with ny := 2, yRe := cells [real 3, real (-1)], xaRe := cells [real 1, real 2, real 5] })
      (fun t => decide (t.xaRe = cells [real 3, real (-1), real 5] ∧ t.naRe = 0)) = true := by
  decide +kernel

/-- P5: byte 1 of `BY` is still stored but beyond `NBY`, and a host read of it returns the free value of its epoch. -/
theorem test_read_beyond_result :
    hostMove libParams (.readByte .byBuf 1)
        { State.reset with nby := 1, byBuf := cells [0x00#8, 0xFF#8], byEpoch := 2 } =
      .next { State.reset with
        nby := 1, byBuf := cells [0x00#8, 0xFF#8], byEpoch := 2, readData := some (.byte 3#8) } := by
  rfl

/-- R54: an index that is not below `N_MAX` is refused. -/
theorem test_read_outside :
    hostMove libParams (.readByte .ba (2 ^ 21)) State.reset = .refused (.noSuchByte .ba (2 ^ 21)) := rfl

/-- R38: a host read of an operand element nothing has written. -/
theorem test_read_unwritten :
    hostMove libParams (.readPlane .xaIm 0) State.reset = .refused (.unwrittenElement .xaIm) := rfl

/-- R76: the script line `CADD` leaves the command's word pending. -/
theorem test_issue :
    step { State.reset with script := [issue .cadd] } = .next { State.reset with cmd := some 1#32 } := rfl

/-! ### Witnesses: the hypotheses of each obligation can be met -/

/-- 1.0 (R77). -/
def one : F64 := 0x3FF0000000000000#64

theorem unpack_one : unpack (.bits one) = .finite false unitsPerOne := by decide +kernel

theorem finite_one : (FVal.bits one).IsFinite := ⟨false, unitsPerOne, unpack_one⟩

theorem value_one : (FVal.bits one).value = 1 := by
  unfold FVal.value
  rw [unpack_one]
  have h : (unitsPerOne : ℚ) = 2 ^ 1074 := by rw [unitsPerOne, Nat.cast_pow, Nat.cast_ofNat]
  simp only [signedUnits, Bool.false_eq_true, if_false, Int.cast_natCast, h]
  exact div_self (pow_ne_zero _ two_ne_zero)

theorem unpack_inf (neg : Bool) : unpack (.bits (infBits neg)) = .inf neg := unpackBits_infBits neg

theorem unpack_zero (neg : Bool) : unpack (.bits (withSign neg 0)) = .finite neg 0 := by cases neg <;> decide +kernel

theorem holds_of_readFrom {w : Nat} {c : Cells w} {vs : List (BitVec w)}
    (h : Cells.readFrom c 0 vs.length = some vs) : Cells.Holds c vs := (Cells.readFrom_holds h).2

/-- A length of 1 is within the block's capacity, whatever `N_MAX` is. -/
theorem one_le : 1 ≤ block.nMax := one_le_nMax block

/-- One written element of `XA_RE`. -/
def oneElement : State := { State.reset with naRe := 1, naIm := 1, xaRe := cells [one], xaIm := cells [one] }

/-- Two written elements of `XA_RE` and `XA_IM`. -/
def twoElements : State :=
  { State.reset with naRe := 2, naIm := 2, xaRe := cells [one, one], xaIm := cells [one, one] }

/-- One-byte operands `7F` and `7F`. -/
def oneByteEach : State := { State.reset with nba := 1, nbb := 1, ba := cells [0x7F#8], bb := cells [0x7F#8] }

theorem witness_IllegalWordsChangeOnlyStatus :
    ∃ (s : State) (w : Word), s.cmd = some w ∧ decode w = none :=
  ⟨{ State.reset with cmd := some 0#32 }, 0#32, rfl, by decide⟩

theorem witness_StepRunsDecodedCommand :
    ∃ (s : State) (w : Word) (i : Instr), s.cmd = some w ∧ decode w = some i :=
  ⟨State.reset.withFetchWord 32 0x30, 0x30#32, .bmul, rfl, by decide⟩

theorem witness_BlockWaitsForTheHost :
    (∃ (s : State) (a : HostAction) (rest : List HostAction), s.cmd = none ∧ s.script = a :: rest) ∧
      ∃ s : State, s.cmd = none ∧ s.script = [] :=
  ⟨⟨{ State.reset with script := [.reset] }, .reset, [], rfl, rfl⟩, State.reset, rfl, rfl⟩

theorem witness_ScalarCommandsNeverFail :
    ∃ s s' t t' : State, s'.ca = s.ca ∧ s'.cb = s.cb ∧ s'.draws = s.draws ∧
      exec .crnd s = .next t ∧ exec .crnd s' = .next t' :=
  ⟨State.reset, { State.reset with ny := 1 }, _, _, rfl, rfl, rfl, rfl, rfl⟩

theorem witness_finite_operands :
    ∃ x y : FVal, x.IsFinite ∧ y.IsFinite ∧ y.value ≠ 0 :=
  ⟨.bits one, .bits one, finite_one, finite_one, by rw [value_one]; exact one_ne_zero⟩

theorem witness_SignedZeroRules :
    ∃ (x y : FVal) (a b : Bool) (u v : Nat), unpack x = .finite a u ∧ unpack y = .finite b v ∧ (u = 0 ∨ v = 0) :=
  ⟨.bits (withSign true 0), .bits one, true, false, 0, unitsPerOne, unpack_zero true, unpack_one, .inl rfl⟩

theorem witness_NaNRules :
    (∃ x y : FVal, x.IsNaN ∨ y.IsNaN) ∧
      (∃ (x y : FVal) (a : Bool), unpack x = .inf a ∧ unpack y = .inf a) ∧
      (∃ (x y : FVal) (a : Bool), unpack x = .inf a ∧ unpack y = .inf (!a)) ∧
      ∃ (x y : FVal) (a b : Bool), unpack x = .finite a 0 ∧ unpack y = .inf b :=
  ⟨⟨.nanResult, .nanResult, .inl rfl⟩, ⟨.bits (infBits true), .bits (infBits true), true, unpack_inf _, unpack_inf _⟩,
    ⟨.bits (infBits true), .bits (infBits false), true, unpack_inf _, unpack_inf _⟩,
    .bits (withSign true 0), .bits (infBits false), true, false, unpack_zero _, unpack_inf _⟩

theorem witness_RoundIsFloorHalfUp : (∃ x : FVal, x.IsFinite) ∧ ∃ x : FVal, ¬ x.IsFinite := by
  refine ⟨⟨.bits one, finite_one⟩, .nanResult, ?_⟩
  rintro ⟨neg, units, h⟩
  cases h

theorem witness_IntegerArithmeticIsExact :
    ∃ (x y : FVal) (m n : Int), x.IsFinite ∧ y.IsFinite ∧ x.value = m ∧ y.value = n ∧
      |m + n| ≤ 2 ^ 53 ∧ |m - n| ≤ 2 ^ 53 ∧ |m * n| ≤ 2 ^ 53 ∧
      (1 / 2 ^ 1022 ≤ |x.value| / 2 ^ 1 ∨ x.value = 0) := by
  refine ⟨.bits one, .bits one, 1, 1, finite_one, finite_one, by rw [value_one]; rfl, by rw [value_one]; rfl,
    by decide, by decide, by decide, .inl ?_⟩
  rw [value_one, abs_one]
  exact one_div_le_one_div_of_le (by norm_num) (pow_le_pow_right₀ (by norm_num) (by norm_num))

theorem witness_TwiddlesOfEachStage :
    ∃ m s j : Nat, s < m ∧ m ≤ 1024 ∧ j < 2 ^ m / 2 / 2 ^ s ∧ j ≠ 0 := ⟨3, 0, 3, by decide⟩

theorem witness_StageIndicesCoverBuffer :
    ∃ m s k j : Nat, s < m ∧ k < 2 ^ m / 2 ∧ j < 2 ^ m := ⟨1, 0, 0, 1, by decide, by decide, by decide⟩

theorem witness_StageWritesButterflies : ∀ inverse : Bool,
    ∃ (trig : Trig) (m s k : Nat) (prev : List (Cplx FVal)) (a b w : Cplx FVal)
      (idx : Nat → ButterflyIndex) (table : List (Cplx FVal)),
      (if inverse then idx = invIndex (2 ^ s) ∧ table = invTable trig m (2 ^ s)
        else idx = fwdIndex s ∧ table = fwdTable trig m s) ∧
      k < 2 ^ m / 2 ∧ prev[k / 2 ^ s * 2 ^ s + k]? = some a ∧ prev[k / 2 ^ s * 2 ^ s + k + 2 ^ s]? = some b ∧
      table[k / 2 ^ s]? = some w := by
  rintro (_ | _)
  · exact ⟨⟨libCos, libSin⟩, 1, 0, 0, [widen one, widen 0#64], _, _, _, _, _, ⟨rfl, rfl⟩, by decide, rfl, rfl, rfl⟩
  · exact ⟨⟨libCos, libSin⟩, 1, 0, 0, [widen one, widen 0#64], _, _, _, _, _, ⟨rfl, rfl⟩, by decide, rfl, rfl, rfl⟩

theorem witness_exact_engines : ∃ (m : Nat) (z : List ℂ), z.length = 2 ^ m := ⟨1, [1, 2], rfl⟩

theorem witness_FftRejectsBadLength :
    (∃ s : State, ¬ ∃ k, s.naRe = 2 ^ k) ∧ ∃ s : State, block.nMax < s.naRe := by
  refine ⟨⟨State.reset, ?_⟩, { State.reset with naRe := block.nMax + 1 }, Nat.lt_succ_self _⟩
  rintro ⟨k, hk⟩
  exact absurd hk (Nat.two_pow_pos k).ne

theorem witness_FftWritesTransform :
    ∃ (s : State) (m : Nat) (x : List F64), s.naRe = 2 ^ m ∧ 2 ^ m ≤ block.nMax ∧ x.length = 2 ^ m ∧
      Cells.Holds s.xaRe x :=
  ⟨oneElement, 0, [one], rfl, one_le, rfl, holds_of_readFrom rfl⟩

theorem witness_FftOfLengthsOneAndTwo :
    (∃ (s : State) (x : F64), s.naRe = 1 ∧ Cells.read s.xaRe 0 = some x) ∧
      ∃ (p : Params) (s : State) (x y : F64), 2 ≤ p.nMax ∧ s.naRe = 2 ∧ Cells.read s.xaRe 0 = some x ∧
        Cells.read s.xaRe 1 = some y ∧ (FVal.bits x).IsFinite ∧ (FVal.bits y).IsFinite :=
  ⟨⟨oneElement, one, rfl, rfl⟩, libParams, twoElements, one, one, by decide, rfl, rfl, rfl, finite_one, finite_one⟩

theorem witness_IfftRejectsBadLength :
    (∃ s : State, s.naRe ≠ s.naIm) ∧ (∃ s : State, ¬ ∃ k, s.naRe = 2 ^ k) ∧ ∃ s : State, block.nMax < s.naRe :=
  ⟨⟨{ State.reset with naRe := 4, naIm := 2 }, by decide⟩, witness_FftRejectsBadLength⟩

theorem witness_IfftWritesTransform :
    ∃ (s : State) (m : Nat) (re im : List F64), s.naRe = 2 ^ m ∧ s.naIm = 2 ^ m ∧ 2 ^ m ≤ block.nMax ∧
      re.length = 2 ^ m ∧ im.length = 2 ^ m ∧ Cells.Holds s.xaRe re ∧ Cells.Holds s.xaIm im :=
  ⟨oneElement, 0, [one], [one], rfl, rfl, one_le, rfl, rfl, holds_of_readFrom rfl, holds_of_readFrom rfl⟩

theorem witness_IfftOfLengthsOneAndTwo :
    (∃ (s : State) (x y : F64), s.naRe = 1 ∧ s.naIm = 1 ∧ Cells.read s.xaRe 0 = some x ∧
        Cells.read s.xaIm 0 = some y ∧ (FVal.bits x).IsFinite ∧ (FVal.bits y).IsFinite) ∧
      ∃ (p : Params) (s : State) (x0 x1 y0 y1 : F64), 2 ≤ p.nMax ∧ s.naRe = 2 ∧ s.naIm = 2 ∧
        Cells.Holds s.xaRe [x0, x1] ∧ Cells.Holds s.xaIm [y0, y1] ∧ ∀ v ∈ [x0, x1, y0, y1], (FVal.bits v).IsFinite := by
  refine ⟨⟨oneElement, one, one, rfl, rfl, rfl, rfl, finite_one, finite_one⟩, libParams, twoElements, one, one, one,
    one, by decide, rfl, rfl, holds_of_readFrom rfl, holds_of_readFrom rfl, fun v hv => ?_⟩
  have : v = one := by simpa using hv
  rw [this]
  exact finite_one

theorem witness_ConvRejectsEmptyOrTooLong :
    (∃ s : State, s.naRe + s.nbRe = 0) ∧
      ∃ s : State, s.naRe + s.nbRe ≠ 0 ∧ block.nMax < nextPow2 (s.naRe + s.nbRe) := by
  refine ⟨⟨State.reset, rfl⟩, { State.reset with naRe := block.nMax, nbRe := block.nMax }, ?_, ?_⟩
  · have := one_le
    show block.nMax + block.nMax ≠ 0
    omega
  · have := one_le
    have := le_nextPow2 (block.nMax + block.nMax)
    show block.nMax < nextPow2 (block.nMax + block.nMax)
    omega

theorem witness_ConvWritesConvolution :
    ∃ (s : State) (u v : List F64), u.length = s.naRe ∧ v.length = s.nbRe ∧ s.naRe + s.nbRe ≠ 0 ∧
      nextPow2 (s.naRe + s.nbRe) ≤ block.nMax ∧ Cells.Holds s.xaRe u ∧ Cells.Holds s.xbRe v :=
  ⟨oneElement, [one], [], rfl, rfl, by decide, one_le, holds_of_readFrom rfl, holds_of_readFrom rfl⟩

/-- `CONV` of one element and an empty sequence ends with `OK`. -/
theorem conv_oneElement_ok : ∃ t, exec .conv { oneElement with naIm := 0 } = .next t ∧ t.status = 0#32 := by
  generalize hs : ({ oneElement with naIm := 0 } : State) = s
  have hu : Cells.Holds (s.plane OperandPlane.xaRe.name) [one] := by subst hs; exact holds_of_readFrom rfl
  have hv : Cells.Holds (s.plane OperandPlane.xbRe.name) [] := fun _ h => absurd h (Nat.not_lt_zero _)
  have ha : s.naRe = [one].length := by subst hs; rfl
  have hb : s.nbRe = ([] : List F64).length := by subst hs; rfl
  show ∃ t, convWith block s = .next t ∧ t.status = 0#32
  unfold convWith
  have hn : ¬ block.nMax < nextPow2 ([one].length + ([] : List F64).length) := Nat.not_lt.2 one_le
  rw [ha, hb, if_neg (by decide), if_neg hn, withPlane_of_holds hu, withPlane_of_holds hv]
  exact ⟨_, rfl, rfl⟩

theorem witness_PaddedLengthIsLeastPowerOfTwo :
    (∃ m k : Nat, 1 ≤ m ∧ m ≤ 2 ^ k) ∧ ∃ s t : State, exec .conv s = .next t ∧ t.status = 0#32 := by
  obtain ⟨t, h⟩ := conv_oneElement_ok
  exact ⟨⟨5, 3, by decide, by decide⟩, _, t, h⟩

theorem witness_ConvOfEmptyAndOneElement :
    (∃ (s : State) (x : F64), s.naRe = 0 ∧ s.nbRe = 1 ∧ Cells.read s.xbRe 0 = some x ∧ (FVal.bits x).IsFinite) ∧
      ∃ (s : State) (x : F64), s.naRe = 1 ∧ s.nbRe = 0 ∧ Cells.read s.xaRe 0 = some x ∧ ¬ (FVal.bits x).IsFinite := by
  refine ⟨⟨{ State.reset with nbRe := 1, xbRe := cells [one] }, one, rfl, rfl, rfl, finite_one⟩,
    { State.reset with naRe := 1, xaRe := cells [infBits true] }, infBits true, rfl, rfl, rfl, ?_⟩
  rintro ⟨neg, units, h⟩
  rw [unpack_inf] at h
  cases h

theorem witness_ConvLeavesImaginaryUnspecified :
    ∃ (s t : State) (j : Nat), exec .conv s = .next t ∧ t.status = 0#32 ∧ j < block.nMax := by
  obtain ⟨t, h⟩ := conv_oneElement_ok
  exact ⟨_, t, 0, h.1, h.2, one_le⟩

theorem witness_BmulOfEmptyOperandIsZero : ∃ s : State, s.nba = 0 ∨ s.nbb = 0 := ⟨State.reset, .inl rfl⟩

theorem witness_BmulRejectsNegativeOperand :
    ∃ (s : State) (a b : Byte), s.nba ≠ 0 ∧ s.nbb ≠ 0 ∧ Cells.read s.ba 0 = some a ∧ Cells.read s.bb 0 = some b ∧
      (0x80 ≤ a.toNat ∨ 0x80 ≤ b.toNat) :=
  ⟨{ oneByteEach with ba := cells [0x80#8] }, 0x80#8, 0x7F#8, by decide, by decide, rfl, rfl, .inl (by decide)⟩

/-- Parameters with small limits. -/
def smallParams (maxTotal : Nat) : Params := { libParams with nMaxLog2 := 1, maxTotalBytes := maxTotal }

theorem witness_BmulLengthLimits :
    (∃ (p : Params) (s : State) (a b : Byte), s.nba ≠ 0 ∧ s.nbb ≠ 0 ∧ Cells.read s.ba 0 = some a ∧
        Cells.read s.bb 0 = some b ∧ a.toNat < 0x80 ∧ b.toNat < 0x80 ∧ p.maxTotalBytes < s.nba + s.nbb) ∧
      ∃ (p : Params) (s : State) (a b : Byte), s.nba ≠ 0 ∧ s.nbb ≠ 0 ∧ Cells.read s.ba 0 = some a ∧
        Cells.read s.bb 0 = some b ∧ a.toNat < 0x80 ∧ b.toNat < 0x80 ∧ ¬ p.maxTotalBytes < s.nba + s.nbb ∧
        p.nMax < nextPow2 (s.nba + s.nbb) :=
  ⟨⟨smallParams 2, { oneByteEach with nba := 2 }, 0x7F#8, 0x7F#8, by decide, by decide, rfl, rfl, by decide, by decide,
      by decide⟩,
    smallParams 3, { oneByteEach with nba := 2 }, 0x7F#8, 0x7F#8, by decide, by decide, rfl, rfl, by decide, by decide,
      by decide, by decide⟩

/-- One-byte operands round to the exact convolution (R196). -/
theorem exactRound_oneByteEach : ExactRound libParams.trig libParams.coefSigned [0x7F#8] [0x7F#8] := by
  unfold ExactRound
  decide +kernel

theorem witness_BmulWritesProductBytes :
    ∃ (p : Params) (s : State) (a b : Byte) (as bs : List Byte) (r : List Int),
      (a :: as).length = s.nba ∧ (b :: bs).length = s.nbb ∧ Cells.Holds s.ba (a :: as) ∧
      Cells.Holds s.bb (b :: bs) ∧ a.toNat < 0x80 ∧ b.toNat < 0x80 ∧ s.nba + s.nbb ≤ p.maxTotalBytes ∧
      nextPow2 (s.nba + s.nbb) ≤ p.nMax ∧
      roundAll (convolve p.trig (coefficients p.coefSigned (a :: as)) (coefficients p.coefSigned (b :: bs))) = some r :=
  ⟨libParams, oneByteEach, 0x7F#8, 0x7F#8, [], [], _, rfl, rfl, holds_of_readFrom rfl, holds_of_readFrom rfl,
    by decide, by decide, by decide, by decide, exactRound_oneByteEach⟩

/-- Parameters whose cosine is an infinity away from zero. -/
def infiniteCosine : Params := { libParams with cosElsewhere := fun _ => infBits false }

/-- Operands of two bytes and one byte. -/
def twoBytesAndOne : State :=
  { State.reset with nba := 2, nbb := 1, ba := cells [0x7F#8, 0x7F#8], bb := cells [0x7F#8] }

theorem witness_BmulRejectsNonFiniteCoefficient :
    ∃ (p : Params) (s : State) (a b : Byte) (as bs : List Byte),
      (a :: as).length = s.nba ∧ (b :: bs).length = s.nbb ∧ Cells.Holds s.ba (a :: as) ∧
      Cells.Holds s.bb (b :: bs) ∧ a.toNat < 0x80 ∧ b.toNat < 0x80 ∧ s.nba + s.nbb ≤ p.maxTotalBytes ∧
      nextPow2 (s.nba + s.nbb) ≤ p.nMax ∧
      ∃ x ∈ convolve p.trig (coefficients p.coefSigned (a :: as)) (coefficients p.coefSigned (b :: bs)),
        ¬ x.IsFinite := by
  refine ⟨infiniteCosine, twoBytesAndOne, 0x7F#8, 0x7F#8, [0x7F#8], [], rfl, rfl, holds_of_readFrom rfl, holds_of_readFrom rfl,
    by decide, by decide, by decide, by decide, .nanResult, ?_, ?_⟩
  · have h : (convolve infiniteCosine.trig (coefficients infiniteCosine.coefSigned [0x7F#8, 0x7F#8])
        (coefficients infiniteCosine.coefSigned [0x7F#8])).contains .nanResult = true := by decide +kernel
    simpa using h
  · rintro ⟨neg, units, h⟩
    cases h

theorem witness_BmulOfOneByteOperands :
    ∃ (p : Params) (s : State) (a b : Byte), 2 ≤ p.maxTotalBytes ∧ 2 ≤ p.nMax ∧ s.nba = 1 ∧ s.nbb = 1 ∧
      Cells.read s.ba 0 = some a ∧ Cells.read s.bb 0 = some b ∧ a.toNat < 0x80 ∧ b.toNat < 0x80 :=
  ⟨libParams, oneByteEach, 0x7F#8, 0x7F#8, by decide, by decide, rfl, rfl, rfl, rfl, by decide, by decide⟩

theorem witness_BmulCommutes :
    ∃ s t u : State, exec .bmul s = .next t ∧
      exec .bmul { s with ba := s.bb, nba := s.nbb, bb := s.ba, nbb := s.nba } = .next u :=
  ⟨{ oneByteEach with ba := cells [0x80#8] }, _, _, rfl, rfl⟩

theorem witness_CarriesRunUpward :
    ∃ (r v : Nat → Int) (n i : Nat), v 0 = r 0 ∧ (∀ i, v (i + 1) = r (i + 1) + Int.floor ((v i : ℚ) / 256)) ∧
      i < n := by
  refine ⟨fun i => if i = 0 then 256 else 0, fun i => if i = 0 then 256 else if i = 1 then 1 else 0, 2, 1, rfl, ?_,
    by decide⟩
  rintro (_ | _ | i) <;> norm_num

theorem witness_BmulProducts :
    ∃ (p : Params) (s : State) (a b : Byte) (as bs : List Byte),
      (a :: as).length = s.nba ∧ (b :: bs).length = s.nbb ∧ Cells.Holds s.ba (a :: as) ∧
      Cells.Holds s.bb (b :: bs) ∧ (a.toNat < 0x80 ∧ b.toNat < 0x80) ∧ p.coefSigned = true ∧
      (∀ x ∈ a :: as, x.toNat ≤ 0x7F) ∧ (∀ x ∈ b :: bs, x.toNat ≤ 0x7F) ∧ s.nba + s.nbb ≤ p.maxTotalBytes ∧
      nextPow2 (s.nba + s.nbb) ≤ p.nMax ∧ ExactRound p.trig p.coefSigned (a :: as) (b :: bs) :=
  ⟨libParams, oneByteEach, 0x7F#8, 0x7F#8, [], [], rfl, rfl, holds_of_readFrom rfl, holds_of_readFrom rfl, by decide,
    rfl, by decide, by decide, by decide, by decide, exactRound_oneByteEach⟩

/-- With unsigned coefficients an operand byte of `0x80` or more is admitted below the first one. -/
theorem witness_BmulProducts_unsigned :
    ∃ (p : Params) (s : State) (a b c : Byte),
      [a, b].length = s.nba ∧ [c].length = s.nbb ∧ Cells.Holds s.ba [a, b] ∧ Cells.Holds s.bb [c] ∧
      (a.toNat < 0x80 ∧ c.toNat < 0x80) ∧ p.coefSigned = false ∧ 0x80 ≤ b.toNat ∧ s.nba + s.nbb ≤ p.maxTotalBytes ∧
      nextPow2 (s.nba + s.nbb) ≤ p.nMax ∧ ExactRound p.trig p.coefSigned [a, b] [c] :=
  ⟨{ libParams with coefSigned := false }, { twoBytesAndOne with ba := cells [0x00#8, 0xFF#8], bb := cells [0x01#8] },
    0x00#8, 0xFF#8, 0x01#8, rfl, rfl, holds_of_readFrom rfl, holds_of_readFrom rfl, by decide, rfl, by decide,
    by decide, by decide, by unfold ExactRound; decide +kernel⟩

theorem witness_CoefficientsReverseBytes :
    ∃ (bytes : List Byte) (t : Nat) (b : Byte), t < bytes.length ∧ bytes[bytes.length - 1 - t]? = some b :=
  ⟨[0x00#8, 0xFF#8], 0, 0xFF#8, by decide, rfl⟩

theorem witness_exec_next : ∀ i : Instr, i ≠ .conv → i ≠ .fft → i ≠ .ifft →
    ∃ s t : State, exec i s = .next t ∧ t.status = 0#32 := by
  intro i
  cases i <;> intro h₁ h₂ h₃ <;> first
    | exact absurd rfl h₁
    | exact absurd rfl h₂
    | exact absurd rfl h₃
    | exact ⟨State.reset, _, rfl, rfl⟩

theorem witness_FailureChangesOnlyStatus :
    ∀ w ∈ [0x10#32, 0x11#32, 0x20#32, 0#32], ∃ s t : State, s.cmd = some w ∧ step s = .next t ∧ t.status ≠ 0#32 := by
  intro w hw
  fin_cases hw <;> exact ⟨{ State.reset with cmd := some _ }, _, rfl, rfl, by decide⟩

theorem witness_ResultsAreNeverRead :
    ∃ s s' : State, SameOperands s s' ∧ s.draws = s'.draws ∧ s ≠ s' :=
  ⟨State.reset, { State.reset with ny := 1 }, by simp [SameOperands], rfl, by decide⟩

theorem not_filled_nil {w : Nat} : ¬ Cells.Filled ([] : Cells w) 1 := by
  intro h
  obtain ⟨v, hv⟩ := h 0 (by decide)
  cases hv

theorem witness_UnwrittenOperandIsRefused :
    (∃ s : State, (∃ k, s.naRe = 2 ^ k) ∧ s.naIm = s.naRe ∧ s.naRe ≤ block.nMax ∧
        ¬ Cells.Filled s.xaRe s.naRe ∧ ¬ (Cells.Filled s.xaRe s.naRe ∧ Cells.Filled s.xaIm s.naIm)) ∧
      (∃ s : State, s.naRe + s.nbRe ≠ 0 ∧ nextPow2 (s.naRe + s.nbRe) ≤ block.nMax ∧
        ¬ (Cells.Filled s.xaRe s.naRe ∧ Cells.Filled s.xbRe s.nbRe)) ∧
      ∃ (p : Params) (s : State), s.nba ≠ 0 ∧ s.nbb ≠ 0 ∧ s.nba + s.nbb ≤ p.maxTotalBytes ∧
        nextPow2 (s.nba + s.nbb) ≤ p.nMax ∧ (∀ a, Cells.read s.ba 0 = some a → a.toNat < 0x80) ∧
        (∀ b, Cells.read s.bb 0 = some b → b.toNat < 0x80) ∧
        ¬ (Cells.Filled s.ba s.nba ∧ Cells.Filled s.bb s.nbb) :=
  ⟨⟨{ State.reset with naRe := 1, naIm := 1 }, ⟨0, rfl⟩, rfl, one_le, not_filled_nil, fun h => not_filled_nil h.1⟩,
    ⟨{ State.reset with naRe := 1 }, by decide, one_le, fun h => not_filled_nil h.1⟩,
    libParams, { State.reset with nba := 1, nbb := 1 }, by decide, by decide, by decide, by decide,
    fun _ h => (nomatch h), fun _ h => (nomatch h), fun h => not_filled_nil h.1⟩

theorem witness_StepKeepsInvariant : ∃ s t : State, s.Inv ∧ step s = .next t :=
  ⟨State.reset, State.reset,
    { canonical := rfl
      planesBelow := fun p j _ => by cases p <;> rfl
      buffersBelow := fun b j _ => by cases b <;> rfl
      planeLengths := fun p => by cases p <;> exact Nat.zero_le _
      bufferLengths := fun b => by cases b <;> exact Nat.zero_le _
      legalStatus := ⟨.ok, rfl⟩
      nyPow2 := .inl rfl
      nbyPow2 := .inl rfl
      yFilled := fun j h => absurd h (Nat.not_lt_zero j)
      byFilled := fun j h => absurd h (Nat.not_lt_zero j) }, rfl⟩

theorem witness_host_indices :
    (∃ j : Nat, j < block.nMax) ∧ (∃ j : Nat, block.nMax ≤ j) ∧ ∃ v : Nat, block.nMax < v :=
  ⟨⟨0, one_le⟩, ⟨block.nMax, le_refl _⟩, block.nMax + 1, Nat.lt_succ_self _⟩

/-- A one-element operand to write, and a source to copy whose element a host read returns. -/
theorem witness_HostWritesTakeEffect :
    (∃ v : Nat, v ≤ block.nMax) ∧ (∃ vs : List F64, vs.length ≤ block.nMax ∧ vs ≠ []) ∧
      (∃ vs : List Byte, vs.length ≤ block.nMax ∧ vs ≠ []) ∧
      (∃ (s : State) (src : PlaneName) (v : Nat → F64), 0 < s.planeLength src ∧ ∀ j, j < s.planeLength src →
        hostMove block (.readPlane src j) s = .next { s with readData := some (.real (v j)) }) ∧
      ∃ (s : State) (src : BufferName) (v : Nat → Byte), 0 < s.bufferLength src ∧ ∀ j, j < s.bufferLength src →
        hostMove block (.readByte src j) s = .next { s with readData := some (.byte (v j)) } := by
  have h0 : ¬ block.nMax ≤ 0 := Nat.not_le.2 one_le
  refine ⟨⟨0, Nat.zero_le _⟩, ⟨[one], one_le, by decide⟩, ⟨[0#8], one_le, by decide⟩,
    ⟨oneElement, .xaRe, fun _ => one, by decide, fun j hj => ?_⟩, oneByteEach, .ba, fun _ => 0x7F#8, by decide,
    fun j hj => ?_⟩ <;>
  · obtain rfl : j = 0 := Nat.lt_one_iff.1 hj
    simp only [hostMove, hostReadPlane, hostReadByte, elementRead, if_neg h0]
    rfl

theorem witness_HostReadsReturnWhatIsHeld :
    (∃ (s : State) (n : PlaneName) (j : Nat) (v : F64), j < block.nMax ∧ Cells.read (s.plane n) j = some v ∧
        n = .yRe ∧ j < s.ny) ∧
      (∃ (s : State) (n : BufferName) (j : Nat) (v : Byte), j < block.nMax ∧ Cells.read (s.buffer n) j = some v ∧
        n = .byBuf ∧ j < s.nby) ∧
      (∃ (s : State) (j : Nat), j < block.nMax ∧ s.ny ≤ j ∧ s.nby ≤ j) ∧
      ∃ (s t : State) (r : ReadableRegister), hostMove block (.readRegister r) s = .next t :=
  ⟨⟨{ State.reset with ny := 1, yRe := cells [one] }, .yRe, 0, one, one_le, rfl, rfl, by decide⟩,
    ⟨{ State.reset with nby := 1, byBuf := cells [0x7F#8] }, .byBuf, 0, 0x7F#8, one_le, rfl, rfl, by decide⟩,
    ⟨State.reset, 0, one_le, Nat.le_refl 0, Nat.le_refl 0⟩, State.reset, _, .status, rfl⟩

end Sys2Proof.Tests
end

section
/-! PROOFS. What a write leaves of a container: its bounds and what it holds. -/

namespace Sys2Proof.Machine

variable {w : Nat}

theorem Cells.below_nil (n : Nat) : Cells.Below ([] : Cells w) n := fun _ _ => rfl

/-- A write inside the capacity keeps a container inside it. -/
theorem Cells.Below.write {c : Cells w} {n j : Nat} (h : Cells.Below c n) (hj : j < n) (v : BitVec w) :
    Cells.Below (Cells.write c j v) n := fun k hk => by
  rw [Cells.read_write_of_ne c v (by omega)]
  exact h k hk

/-- A run of writes from element 0 that fits the capacity keeps a container inside it. -/
theorem Cells.Below.writeFrom {c : Cells w} {n : Nat} (h : Cells.Below c n) {vs : List (BitVec w)}
    (hvs : vs.length ≤ n) : Cells.Below (Cells.writeFrom c 0 vs) n := fun k hk => by
  rw [Cells.read_writeFrom_above vs c (by omega)]
  exact h k hk

/-- After a run of writes from element 0 the elements hold the values written. -/
theorem Cells.holds_writeFrom (c : Cells w) (vs : List (BitVec w)) : Cells.Holds (Cells.writeFrom c 0 vs) vs :=
  fun j hj => by simpa using Cells.read_writeFrom vs c 0 j hj

theorem Cells.Holds.filled {c : Cells w} {vs : List (BitVec w)} (h : Cells.Holds c vs) :
    Cells.Filled c vs.length := fun j hj => ⟨vs[j], h j hj⟩

end Sys2Proof.Machine
end

section
/-! PROOFS. The invariant of the block: it holds after reset (O56) and every step keeps it (O57). -/

namespace Sys2Proof.Machine

variable {s t : State}

/-- The invariant speaks of the containers, the length registers and `STATUS` alone. -/
theorem State.Inv.of_same (h : s.Inv) (hp : t.plane = s.plane) (hb : t.buffer = s.buffer)
    (hpl : t.planeLength = s.planeLength) (hbl : t.bufferLength = s.bufferLength) (hst : LegalStatus t.status) :
    t.Inv := by
  have hny : t.ny = s.ny := congrFun hpl .yRe
  have hnby : t.nby = s.nby := congrFun hbl .byBuf
  have hyRe : t.yRe = s.yRe := congrFun hp .yRe
  have hby : t.byBuf = s.byBuf := congrFun hb .byBuf
  exact
    { canonical := by rw [Memory.wf_iff, hp, hb, ← Memory.wf_iff]; exact h.canonical
      planesBelow := hp ▸ h.planesBelow
      buffersBelow := hb ▸ h.buffersBelow
      planeLengths := hpl ▸ h.planeLengths
      bufferLengths := hbl ▸ h.bufferLengths
      legalStatus := hst
      nyPow2 := hny ▸ h.nyPow2
      nbyPow2 := hnby ▸ h.nbyPow2
      yFilled := by rw [hyRe, hny]; exact h.yFilled
      byFilled := by rw [hby, hnby]; exact h.byFilled }

/-! ### Reset -/

theorem State.inv_reset : State.reset.Inv where
  canonical := Memory.wf_reset
  planesBelow := fun p => by cases p <;> exact Cells.below_nil _
  buffersBelow := fun b => by cases b <;> exact Cells.below_nil _
  planeLengths := fun p => by cases p <;> exact Nat.zero_le _
  bufferLengths := fun b => by cases b <;> exact Nat.zero_le _
  legalStatus := ⟨.ok, rfl⟩
  nyPow2 := .inl rfl
  nbyPow2 := .inl rfl
  yFilled := fun _ hj => absurd hj (Nat.not_lt_zero _)
  byFilled := fun _ hj => absurd hj (Nat.not_lt_zero _)

theorem State.inv_resetBlock (s : State) : (resetBlock s).Inv :=
  State.inv_reset.of_same rfl rfl rfl rfl ⟨.ok, rfl⟩

/-! ### The host's elementary changes -/

theorem planeLength_setLength (s : State) (r : OperandLength) (v : Nat) (p : PlaneName) :
    (s.setLength r v).planeLength p = v ∨ (s.setLength r v).planeLength p = s.planeLength p := by
  cases r <;> cases p <;> simp [State.setLength, State.planeLength]

theorem bufferLength_setLength (s : State) (r : OperandLength) (v : Nat) (b : BufferName) :
    (s.setLength r v).bufferLength b = v ∨ (s.setLength r v).bufferLength b = s.bufferLength b := by
  cases r <;> cases b <;> simp [State.setLength, State.bufferLength]

@[simp] theorem plane_setLength (s : State) (r : OperandLength) (v : Nat) : (s.setLength r v).plane = s.plane := by
  cases r <;> rfl

@[simp] theorem buffer_setLength (s : State) (r : OperandLength) (v : Nat) : (s.setLength r v).buffer = s.buffer := by
  cases r <;> rfl

theorem State.Inv.setLength (h : s.Inv) (r : OperandLength) {v : Nat} (hv : v ≤ block.nMax) :
    (s.setLength r v).Inv where
  canonical := by rw [Memory.wf_iff, plane_setLength, buffer_setLength, ← Memory.wf_iff]; exact h.canonical
  planesBelow := by rw [plane_setLength]; exact h.planesBelow
  buffersBelow := by rw [buffer_setLength]; exact h.buffersBelow
  planeLengths := fun p => by
    rcases planeLength_setLength s r v p with hp | hp <;> rw [hp]
    · exact hv
    · exact h.planeLengths p
  bufferLengths := fun b => by
    rcases bufferLength_setLength s r v b with hb | hb <;> rw [hb]
    · exact hv
    · exact h.bufferLengths b
  legalStatus := by simpa using h.legalStatus
  nyPow2 := by simpa using h.nyPow2
  nbyPow2 := by simpa using h.nbyPow2
  yFilled := by simpa using h.yFilled
  byFilled := by simpa using h.byFilled

theorem State.Inv.setField (h : s.Inv) (f : OperandField) (v : F64) : (s.setField f v).Inv := by
  cases f <;> exact h.of_same rfl rfl rfl rfl h.legalStatus

theorem State.Inv.writePlane (h : s.Inv) (n : OperandPlane) {j : Nat} (v : F64) (hj : j < block.nMax) :
    (s.setOperandPlane n (Cells.write (s.plane n.name) j v)).Inv where
  canonical := Memory.wf_writeOperandPlane n j v h.canonical
  planesBelow := fun p => by
    by_cases hp : p = n.name
    · subst hp
      rw [plane_setOperandPlane]
      exact (h.planesBelow _).write hj v
    · rw [plane_setOperandPlane_of_ne _ _ _ _ hp]
      exact h.planesBelow p
  buffersBelow := by simpa using h.buffersBelow
  planeLengths := by simpa using h.planeLengths
  bufferLengths := by simpa using h.bufferLengths
  legalStatus := by simpa using h.legalStatus
  nyPow2 := by simpa using h.nyPow2
  nbyPow2 := by simpa using h.nbyPow2
  yFilled := by simpa using h.yFilled
  byFilled := by simpa using h.byFilled

theorem State.Inv.writeByte (h : s.Inv) (n : OperandBuffer) {j : Nat} (v : Byte) (hj : j < block.nMax) :
    (s.setOperandBuffer n (Cells.write (s.buffer n.name) j v)).Inv where
  canonical := Memory.wf_writeOperandBuffer n j v h.canonical
  planesBelow := by simpa using h.planesBelow
  buffersBelow := fun b => by
    by_cases hb : b = n.name
    · subst hb
      rw [buffer_setOperandBuffer]
      exact (h.buffersBelow _).write hj v
    · rw [buffer_setOperandBuffer_of_ne _ _ _ _ hb]
      exact h.buffersBelow b
  planeLengths := by simpa using h.planeLengths
  bufferLengths := by simpa using h.bufferLengths
  legalStatus := by simpa using h.legalStatus
  nyPow2 := by simpa using h.nyPow2
  nbyPow2 := by simpa using h.nbyPow2
  yFilled := by simpa using h.yFilled
  byFilled := by simpa using h.byFilled

theorem State.hostStable_inv : HostStable block State.Inv where
  setLength := fun _ r _ hv h => h.setLength r hv
  setField := fun _ f v h => h.setField f v
  writePlane := fun _ n _ v hj h => h.writePlane n v hj
  writeByte := fun _ n _ v hj h => h.writeByte n v hj
  writeCmd := fun _ _ h => h.of_same rfl rfl rfl rfl h.legalStatus
  readData := fun _ _ h => h.of_same rfl rfl rfl rfl h.legalStatus
  reset := fun s _ => State.inv_resetBlock s

/-! ### The ends of a command -/

theorem State.Inv.setStatus (h : s.Inv) (c : StatusCode) : (setStatus c s).Inv :=
  h.of_same rfl rfl rfl rfl ⟨c, rfl⟩

theorem State.Inv.takeCommand (h : s.Inv) : (takeCommand s).Inv := h.of_same rfl rfl rfl rfl h.legalStatus

theorem State.Inv.writeScalarResult (h : s.Inv) (z : Cplx FVal) : (writeScalarResult block z s).Inv :=
  h.of_same rfl rfl rfl rfl h.legalStatus

/-- Result planes that a length-`n` result is written to, whatever becomes of `Y_IM` inside the capacity: the end that
`FFT`, `IFFT` and `CONV` share. -/
theorem State.Inv.planeResult (h : s.Inv) {n : Nat} {re : List F64} {im : Plane} (draws epoch : Nat)
    (hre : re.length = n) (len : ∃ k, n = 2 ^ k) (cap : n ≤ block.nMax) (hwf : Cells.wf im = true)
    (him : Cells.Below im block.nMax) :
    State.Inv { s with
      yRe := Cells.writeFrom s.yRe 0 re, yIm := im, ny := n, draws := draws, yEpoch := epoch } where
  canonical := by
    obtain ⟨hp, hb⟩ := (Memory.wf_iff s).1 h.canonical
    refine (Memory.wf_iff _).2 ⟨fun p => ?_, hb⟩
    cases p with
    | xaRe => exact hp .xaRe
    | xaIm => exact hp .xaIm
    | xbRe => exact hp .xbRe
    | yRe => exact Cells.wf_writeFrom re 0 (hp .yRe)
    | yIm => exact hwf
  planesBelow := fun p => by
    cases p with
    | xaRe => exact h.planesBelow .xaRe
    | xaIm => exact h.planesBelow .xaIm
    | xbRe => exact h.planesBelow .xbRe
    | yRe => exact (h.planesBelow .yRe).writeFrom (hre ▸ cap)
    | yIm => exact him
  buffersBelow := h.buffersBelow
  planeLengths := fun p => by
    cases p with
    | xaRe => exact h.planeLengths .xaRe
    | xaIm => exact h.planeLengths .xaIm
    | xbRe => exact h.planeLengths .xbRe
    | yRe => exact cap
    | yIm => exact cap
  bufferLengths := h.bufferLengths
  legalStatus := h.legalStatus
  nyPow2 := .inr len
  nbyPow2 := h.nbyPow2
  yFilled := hre ▸ (Cells.holds_writeFrom s.yRe re).filled
  byFilled := h.byFilled

theorem State.Inv.writeTransformResult (h : s.Inv) {w : List (Cplx FVal)} (len : ∃ k, w.length = 2 ^ k)
    (cap : w.length ≤ block.nMax) : (writeTransformResult block w s).Inv :=
  h.planeResult _ _ (by simp) len cap (Cells.wf_writeFrom _ 0 (((Memory.wf_iff s).1 h.canonical).1 .yIm))
    ((h.planesBelow .yIm).writeFrom (by simpa using cap))

theorem State.Inv.writeRealResult (h : s.Inv) {w : List FVal} (len : ∃ k, w.length = 2 ^ k)
    (cap : w.length ≤ block.nMax) : (writeRealResult block w s).Inv :=
  h.planeResult _ _ (by simp) len cap rfl (Cells.below_nil _)

theorem State.Inv.writeByteResult (h : s.Inv) {out : List Byte} (len : ∃ k, out.length = 2 ^ k)
    (cap : out.length ≤ block.nMax) : (writeByteResult out s).Inv where
  canonical := Memory.wf_writeByteResult out h.canonical
  planesBelow := h.planesBelow
  buffersBelow := fun b => by
    cases b with
    | ba => exact h.buffersBelow .ba
    | bb => exact h.buffersBelow .bb
    | byBuf => exact (h.buffersBelow .byBuf).writeFrom cap
  planeLengths := h.planeLengths
  bufferLengths := fun b => by
    cases b with
    | ba => exact h.bufferLengths .ba
    | bb => exact h.bufferLengths .bb
    | byBuf => exact cap
  legalStatus := h.legalStatus
  nyPow2 := h.nyPow2
  nbyPow2 := .inr len
  yFilled := h.yFilled
  byFilled := (Cells.holds_writeFrom s.byBuf out).filled

theorem State.Inv.exec (h : s.Inv) {i : Instr} (he : exec i s = .next t) : t.Inv := by
  cases exec_effect he with
  | failed c ht => exact ht ▸ h.setStatus c
  | scalar z ht => exact ht ▸ (h.writeScalarResult z).setStatus .ok
  | transform w len cap ht => exact ht ▸ (h.writeTransformResult len cap).setStatus .ok
  | real w len cap ht => exact ht ▸ (h.writeRealResult len cap).setStatus .ok
  | bytes out len cap ht => exact ht ▸ (h.writeByteResult len cap).setStatus .ok

/-- Settles O57: each way a step can go (`step_cases`) keeps the invariant. -/
theorem stepKeepsInvariant : Obligations.StepKeepsInvariant := by
  intro s t h hstep
  rcases step_cases hstep with
    ⟨w, i, -, -, he⟩ | ⟨w, -, -, rfl⟩ | ⟨a, rest, -, -, hm⟩ | ⟨-, -, rfl⟩
  · exact h.takeCommand.exec he
  · exact h.takeCommand.setStatus .illegalCommand
  · have hrest : State.Inv { s with script := rest } := h.of_same rfl rfl rfl rfl h.legalStatus
    exact hostMove_stable State.hostStable_inv hrest hm
  · exact h

/-- Settles O56. -/
theorem resetMeetsInvariant : Obligations.ResetMeetsInvariant := State.inv_reset

end Sys2Proof.Machine
end

section
/-! PROOFS. What a command does with its operands: it never writes one (O48), its outcome is settled by them alone
(O49), and it is refused where one it reads holds no value (O53). -/

namespace Sys2Proof.Machine

variable {s s' t t' : State}

/-! ### Operands are never written -/

theorem CommandEffect.sameOperands {p : Params} (h : CommandEffect p s t) : SameOperands s t := by
  cases h with
  | failed c ht => simp [ht, SameOperands]
  | scalar z ht => simp [ht, SameOperands]
  | transform w len cap ht => simp [ht, SameOperands]
  | real w len cap ht => simp [ht, SameOperands]
  | bytes out len cap ht => simp [ht, SameOperands]

/-- Settles O48, from the effects a command can have. -/
theorem operandsAreNeverWritten : Obligations.OperandsAreNeverWritten :=
  fun _ _ _ h => (exec_effect h).sameOperands

/-! ### Results are never read -/

theorem SameOperands.plane_name (h : SameOperands s s') (p : OperandPlane) : s.plane p.name = s'.plane p.name := by
  obtain ⟨-, -, -, -, -, -, -, hxaRe, hxaIm, hxbRe, -, -⟩ := h
  cases p with
  | xaRe => exact hxaRe
  | xaIm => exact hxaIm
  | xbRe => exact hxbRe

theorem SameOperands.buffer_name (h : SameOperands s s') (b : OperandBuffer) :
    s.buffer b.name = s'.buffer b.name := by
  obtain ⟨-, -, -, -, -, -, -, -, -, -, hba, hbb⟩ := h
  cases b with
  | ba => exact hba
  | bb => exact hbb

/-- The results of a command, each at the indices below its length. -/
def SameResult (i : Instr) (t t' : State) : Prop :=
  match i with
  | .cadd | .csub | .cmul | .crnd => t.cr = t'.cr
  | .fft | .ifft =>
    t.ny = t'.ny ∧ ∀ j, j < t.ny →
      Cells.read t.yRe j = Cells.read t'.yRe j ∧ Cells.read t.yIm j = Cells.read t'.yIm j
  | .conv => t.ny = t'.ny ∧ t.yIm = t'.yIm ∧ ∀ j, j < t.ny → Cells.read t.yRe j = Cells.read t'.yRe j
  | .bmul => t.nby = t'.nby ∧ ∀ j, j < t.nby → Cells.read t.byBuf j = Cells.read t'.byBuf j

/-- What O49 asks of the two next states of a command. -/
def SameEnd (i : Instr) (t t' : State) : Prop :=
  t.status = t'.status ∧ t.draws = t'.draws ∧ (t.status = 0#32 → SameResult i t t')

/-- Two outcomes of the same kind, with the same reason or with next states in the relation. -/
inductive OutcomesMatch (R : State → State → Prop) :
    Host.Outcome State Fault Refusal → Host.Outcome State Fault Refusal → Prop where
  | next {t t' : State} (h : R t t') : OutcomesMatch R (.next t) (.next t')
  | fault (r : Fault) : OutcomesMatch R (.fault r) (.fault r)
  | refused (r : Refusal) : OutcomesMatch R (.refused r) (.refused r)

/-- A choice made on the same condition is made alike. -/
theorem OutcomesMatch.ite {R : State → State → Prop} {a a' b b' : Host.Outcome State Fault Refusal} {c : Prop}
    [Decidable c] (ha : OutcomesMatch R a a') (hb : OutcomesMatch R b b') :
    OutcomesMatch R (if c then a else b) (if c then a' else b') := by
  split
  · exact ha
  · exact hb

theorem OutcomesMatch.withPlane {R : State → State → Prop} (h : SameOperands s s') (p : OperandPlane) (n : Nat)
    {go go' : List F64 → Host.Outcome State Fault Refusal} (hgo : ∀ vs, OutcomesMatch R (go vs) (go' vs)) :
    OutcomesMatch R (withPlane s p n go) (withPlane s' p n go') := by
  unfold Machine.withPlane
  rw [h.plane_name p]
  split
  · exact hgo _
  · exact .refused _

theorem OutcomesMatch.withBytes {R : State → State → Prop} (h : SameOperands s s') (b : OperandBuffer) (n : Nat)
    {go go' : List Byte → Host.Outcome State Fault Refusal} (hgo : ∀ vs, OutcomesMatch R (go vs) (go' vs)) :
    OutcomesMatch R (withBytes s b n go) (withBytes s' b n go') := by
  unfold Machine.withBytes
  rw [h.buffer_name b]
  split
  · exact hgo _
  · exact .refused _

theorem OutcomesMatch.withFirstByte {R : State → State → Prop} (h : SameOperands s s') (b : OperandBuffer)
    {go go' : Byte → Host.Outcome State Fault Refusal} (hgo : ∀ v, OutcomesMatch R (go v) (go' v)) :
    OutcomesMatch R (withFirstByte s b go) (withFirstByte s' b go') := by
  unfold Machine.withFirstByte
  rw [h.buffer_name b]
  split
  · exact hgo _
  · exact .refused _

/-- A failed command has no result to compare. -/
theorem outcomesMatch_raise (i : Instr) (hd : s.draws = s'.draws) {c : StatusCode} (hc : c.word ≠ 0#32) :
    OutcomesMatch (SameEnd i) (raise c s) (raise c s') := .next ⟨rfl, hd, fun h => absurd h hc⟩

/-- The elements a run of writes reaches do not depend on what the container held. -/
theorem Cells.read_writeFrom_congr {w : Nat} (c c' : Cells w) (vs : List (BitVec w)) {j : Nat} (hj : j < vs.length) :
    Cells.read (Cells.writeFrom c 0 vs) j = Cells.read (Cells.writeFrom c' 0 vs) j := by
  rw [Cells.holds_writeFrom c vs j hj, Cells.holds_writeFrom c' vs j hj]

theorem outcomesMatch_finishScalar {i : Instr} (hi : i ∈ [Instr.cadd, .csub, .cmul, .crnd])
    (hd : s.draws = s'.draws) (p : Params) (z : Cplx FVal) :
    OutcomesMatch (SameEnd i) (finishScalar p z s) (finishScalar p z s') := by
  have hcr : (writeScalarResult p z s).cr = (writeScalarResult p z s').cr := by simp [hd]
  refine .next ⟨rfl, by simp [hd], fun _ => ?_⟩
  fin_cases hi <;> exact hcr

theorem outcomesMatch_finishTransform {i : Instr} (hi : i ∈ [Instr.fft, .ifft]) (hd : s.draws = s'.draws)
    (p : Params) (w : List (Cplx FVal)) :
    OutcomesMatch (SameEnd i) (finishTransform p w s) (finishTransform p w s') := by
  have hcells : ∀ j, j < w.length →
      Cells.read (writeTransformResult p w s).yRe j = Cells.read (writeTransformResult p w s').yRe j ∧
        Cells.read (writeTransformResult p w s).yIm j = Cells.read (writeTransformResult p w s').yIm j := by
    intro j hj
    simp only [writeTransformResult_yRe, writeTransformResult_yIm, hd]
    exact ⟨Cells.read_writeFrom_congr _ _ _ (by simpa using hj),
      Cells.read_writeFrom_congr _ _ _ (by simpa using hj)⟩
  refine .next ⟨rfl, by simp [hd], fun _ => ?_⟩
  fin_cases hi <;> exact ⟨rfl, hcells⟩

theorem outcomesMatch_realResult (hd : s.draws = s'.draws) (p : Params) (w : List FVal) :
    OutcomesMatch (SameEnd .conv) (succeed (writeRealResult p w s)) (succeed (writeRealResult p w s')) := by
  refine .next ⟨rfl, by simp [hd], fun _ => ⟨rfl, rfl, fun j hj => ?_⟩⟩
  simp only [setStatus_yRe, writeRealResult_yRe, hd]
  exact Cells.read_writeFrom_congr _ _ _ (by simpa using hj)

theorem outcomesMatch_byteResult (hd : s.draws = s'.draws) (out : List Byte) :
    OutcomesMatch (SameEnd .bmul) (succeed (writeByteResult out s)) (succeed (writeByteResult out s')) :=
  .next ⟨rfl, hd, fun _ => ⟨rfl, fun _ hj => Cells.read_writeFrom_congr _ _ _ hj⟩⟩

section

variable (h : SameOperands s s') (hd : s.draws = s'.draws) (p : Params)

include h hd

theorem fftWith_outcomesMatch : OutcomesMatch (SameEnd .fft) (fftWith p s) (fftWith p s') := by
  have ⟨hnaRe, _⟩ := h
  unfold fftWith
  rw [hnaRe]
  exact .ite (outcomesMatch_raise _ hd (by decide))
    (.withPlane h _ _ fun x => outcomesMatch_finishTransform (by decide) hd p _)

theorem ifftWith_outcomesMatch : OutcomesMatch (SameEnd .ifft) (ifftWith p s) (ifftWith p s') := by
  have ⟨hnaRe, hnaIm, _⟩ := h
  unfold ifftWith
  rw [hnaRe, hnaIm]
  exact .ite (outcomesMatch_raise _ hd (by decide)) <| .ite (outcomesMatch_raise _ hd (by decide)) <|
    .withPlane h _ _ fun re => .withPlane h _ _ fun im => outcomesMatch_finishTransform (by decide) hd p _

theorem convWith_outcomesMatch : OutcomesMatch (SameEnd .conv) (convWith p s) (convWith p s') := by
  have ⟨hnaRe, _, hnbRe, _⟩ := h
  unfold convWith
  rw [hnaRe, hnbRe]
  exact .ite (outcomesMatch_raise _ hd (by decide)) <| .ite (outcomesMatch_raise _ hd (by decide)) <|
    .withPlane h _ _ fun u => .withPlane h _ _ fun v => outcomesMatch_realResult hd p _

theorem bmulWith_outcomesMatch : OutcomesMatch (SameEnd .bmul) (bmulWith p s) (bmulWith p s') := by
  have ⟨_, _, _, hnba, hnbb, _⟩ := h
  unfold bmulWith
  rw [hnba, hnbb]
  refine .ite (outcomesMatch_byteResult hd _) <|
    .withFirstByte h _ fun a0 => .withFirstByte h _ fun b0 =>
      .ite (outcomesMatch_raise _ hd (by decide)) <| .ite (outcomesMatch_raise _ hd (by decide)) <|
        .ite (outcomesMatch_raise _ hd (by decide)) <|
          .withBytes h _ _ fun a => .withBytes h _ _ fun b => ?_
  cases bigProduct p.trig p.coefSigned a b with
  | none => exact outcomesMatch_raise _ hd (by decide)
  | some out => exact outcomesMatch_byteResult hd out

theorem exec_outcomesMatch (i : Instr) : OutcomesMatch (SameEnd i) (exec i s) (exec i s') := by
  have ⟨_, _, _, _, _, hca, hcb, _⟩ := h
  cases i with
  | cadd => unfold exec execCadd; rw [hca, hcb]; exact outcomesMatch_finishScalar (by decide) hd block _
  | csub => unfold exec execCsub; rw [hca, hcb]; exact outcomesMatch_finishScalar (by decide) hd block _
  | cmul => unfold exec execCmul; rw [hca, hcb]; exact outcomesMatch_finishScalar (by decide) hd block _
  | crnd => unfold exec execCrnd; rw [hca]; exact outcomesMatch_finishScalar (by decide) hd block _
  | fft => exact fftWith_outcomesMatch h hd block
  | ifft => exact ifftWith_outcomesMatch h hd block
  | conv => exact convWith_outcomesMatch h hd block
  | bmul => exact bmulWith_outcomesMatch h hd block

end

/-- Settles O49: the two runs read the same operands, so they make the same choices and store the same values. -/
theorem resultsAreNeverRead : Obligations.ResultsAreNeverRead := by
  intro i s s' h hd
  have hmatch := exec_outcomesMatch h hd i
  generalize exec i s = o, exec i s' = o' at hmatch ⊢
  cases hmatch with
  | next hR => exact hR
  | fault r => rfl
  | refused r => rfl

/-! ### Unwritten operands -/

/-- An operand plane with an element that holds no value is refused (R38). -/
theorem withPlane_of_not_filled {p : OperandPlane} {n : Nat} (h : ¬ Cells.Filled (s.plane p.name) n)
    (go : List F64 → Host.Outcome State Fault Refusal) :
    withPlane s p n go = .refused (.unwrittenElement p.name) := by
  rcases withPlane_cases s p n go with ⟨vs, rfl, hvs, -⟩ | ⟨-, hw⟩
  · exact absurd hvs.filled h
  · exact hw

/-- An operand buffer with a byte that holds no value is refused (R38). -/
theorem withBytes_of_not_filled {b : OperandBuffer} {n : Nat} (h : ¬ Cells.Filled (s.buffer b.name) n)
    (go : List Byte → Host.Outcome State Fault Refusal) :
    withBytes s b n go = .refused (.unwrittenByte b.name) := by
  rcases withBytes_cases s b n go with ⟨vs, rfl, hvs, -⟩ | ⟨-, hw⟩
  · exact absurd hvs.filled h
  · exact hw

/-- Two planes read one after the other, one of them with an element that holds no value: one of them is named. -/
theorem withPlane_withPlane_refused {p q : OperandPlane} {n m : Nat}
    (h : ¬ (Cells.Filled (s.plane p.name) n ∧ Cells.Filled (s.plane q.name) m))
    (go : List F64 → List F64 → Host.Outcome State Fault Refusal) :
    (withPlane s p n fun u => withPlane s q m (go u)) = .refused (.unwrittenElement p.name) ∨
      (withPlane s p n fun u => withPlane s q m (go u)) = .refused (.unwrittenElement q.name) := by
  rcases withPlane_cases s p n fun u => withPlane s q m (go u) with ⟨u, rfl, hu, hw⟩ | ⟨-, hw⟩
  · right
    rw [hw]
    exact withPlane_of_not_filled (fun hq => h ⟨hu.filled, hq⟩) _
  · exact .inl hw

/-- Two byte buffers read one after the other, one of them with a byte that holds no value: one of them is named. -/
theorem withBytes_withBytes_refused {b c : OperandBuffer} {n m : Nat}
    (h : ¬ (Cells.Filled (s.buffer b.name) n ∧ Cells.Filled (s.buffer c.name) m))
    (go : List Byte → List Byte → Host.Outcome State Fault Refusal) :
    (withBytes s b n fun u => withBytes s c m (go u)) = .refused (.unwrittenByte b.name) ∨
      (withBytes s b n fun u => withBytes s c m (go u)) = .refused (.unwrittenByte c.name) := by
  rcases withBytes_cases s b n fun u => withBytes s c m (go u) with ⟨u, rfl, hu, hw⟩ | ⟨-, hw⟩
  · right
    rw [hw]
    exact withBytes_of_not_filled (fun hc => h ⟨hu.filled, hc⟩) _
  · exact .inl hw

/-- The length check of a transform passes for a power of two inside the capacity (R121, R141). -/
theorem lengthCheck_passes {n : Nat} {p : Params} (hpow : ∃ k, n = 2 ^ k) (hcap : n ≤ p.nMax) :
    ¬ ((!isPow2 n || decide (p.nMax < n)) = true) := by
  simp [(isPow2_iff n).2 hpow, hcap]

theorem fftWith_refused {p : Params} (hpow : ∃ k, s.naRe = 2 ^ k) (hcap : s.naRe ≤ p.nMax)
    (h : ¬ Cells.Filled s.xaRe s.naRe) : fftWith p s = .refused (.unwrittenElement .xaRe) := by
  unfold fftWith
  rw [if_neg (lengthCheck_passes hpow hcap)]
  exact withPlane_of_not_filled (p := .xaRe) h _

theorem ifftWith_refused {p : Params} (hpow : ∃ k, s.naRe = 2 ^ k) (hlen : s.naIm = s.naRe)
    (hcap : s.naRe ≤ p.nMax) (h : ¬ (Cells.Filled s.xaRe s.naRe ∧ Cells.Filled s.xaIm s.naIm)) :
    ifftWith p s = .refused (.unwrittenElement .xaRe) ∨ ifftWith p s = .refused (.unwrittenElement .xaIm) := by
  unfold ifftWith
  rw [if_neg (not_not_intro hlen.symm), if_neg (lengthCheck_passes hpow hcap)]
  exact withPlane_withPlane_refused (p := .xaRe) (q := .xaIm) (hlen ▸ h) _

theorem convWith_refused {p : Params} (hne : s.naRe + s.nbRe ≠ 0) (hcap : nextPow2 (s.naRe + s.nbRe) ≤ p.nMax)
    (h : ¬ (Cells.Filled s.xaRe s.naRe ∧ Cells.Filled s.xbRe s.nbRe)) :
    convWith p s = .refused (.unwrittenElement .xaRe) ∨ convWith p s = .refused (.unwrittenElement .xbRe) := by
  unfold convWith
  rw [if_neg hne, if_neg (Nat.not_lt.2 hcap)]
  exact withPlane_withPlane_refused (p := .xaRe) (q := .xbRe) h _

theorem negativeByte_eq_false {b : Byte} (h : b.toNat < 0x80) : negativeByte b = false :=
  decide_eq_false (Nat.not_le.2 h)

theorem bmulWith_refused {p : Params} (ha : s.nba ≠ 0) (hb : s.nbb ≠ 0) (htotal : s.nba + s.nbb ≤ p.maxTotalBytes)
    (hcap : nextPow2 (s.nba + s.nbb) ≤ p.nMax) (hposA : ∀ a, Cells.read s.ba 0 = some a → a.toNat < 0x80)
    (hposB : ∀ b, Cells.read s.bb 0 = some b → b.toNat < 0x80)
    (h : ¬ (Cells.Filled s.ba s.nba ∧ Cells.Filled s.bb s.nbb)) :
    bmulWith p s = .refused (.unwrittenByte .ba) ∨ bmulWith p s = .refused (.unwrittenByte .bb) := by
  unfold bmulWith
  rw [if_neg (by simp [ha, hb])]
  rcases withFirstByte_cases s .ba _ with ⟨a0, ha0, hw⟩ | ⟨-, hw⟩ <;> rw [hw]
  · rcases withFirstByte_cases s .bb _ with ⟨b0, hb0, hw⟩ | ⟨-, hw⟩ <;> rw [hw]
    · rw [if_neg (by simp [negativeByte_eq_false (hposA a0 ha0), negativeByte_eq_false (hposB b0 hb0)]),
        if_neg (Nat.not_lt.2 htotal), if_neg (Nat.not_lt.2 hcap)]
      exact withBytes_withBytes_refused (b := .ba) (c := .bb) h _
    · exact .inr rfl
  · exact .inl rfl

/-- Settles O53, command by command. -/
theorem unwrittenOperandIsRefused : Obligations.UnwrittenOperandIsRefused :=
  ⟨fun _ => fftWith_refused, fun _ => ifftWith_refused, fun _ => convWith_refused,
    fun _ _ => bmulWith_refused, fun _ => rfl⟩

end Sys2Proof.Machine
end

section
/-! PROOFS. The host port: what a host read finds (O59), what a host write leaves (O58), the wait for a command and its
run (O4, O5), and what the reset move leaves (O54). -/

namespace Sys2Proof.Machine

/-! ### What a host read of an element finds -/

section

variable {w nMax length j : Nat} {c : Cells w} {free : Option (Nat → BitVec w)} {v : BitVec w}

/-- A host read that finds a value is inside the capacity (R54). -/
theorem lt_of_elementRead_eq_value (h : elementRead nMax c free length j = .value v) : j < nMax := by
  unfold elementRead at h
  split at h
  · cases h
  · omega

/-- An element that holds a value reads as it, in a result container below its length (R29, R30). -/
theorem elementRead_of_held (hj : j < nMax) (hv : Cells.read c j = some v) (hlen : free.isSome → j < length) :
    elementRead nMax c free length j = .value v := by
  unfold elementRead
  rw [if_neg (Nat.not_le.2 hj), hv]
  cases free with
  | none => rfl
  | some f => exact if_neg (Nat.not_le.2 (hlen rfl))

/-- An element of a result container at or above its length reads as its free value (R29, R30). -/
theorem elementRead_of_length_le {f : Nat → BitVec w} (hj : j < nMax) (hlen : length ≤ j) :
    elementRead nMax c (some f) length j = .value (f j) := by
  unfold elementRead
  rw [if_neg (Nat.not_le.2 hj)]
  cases Cells.read c j with
  | none => rfl
  | some v => exact if_pos hlen

/-- What a read of another element finds is not touched by a write. -/
theorem elementRead_write_of_ne {k : Nat} (h : k ≠ j) (v : BitVec w) :
    elementRead nMax (Cells.write c j v) free length k = elementRead nMax c free length k := by
  unfold elementRead
  rw [Cells.read_write_of_ne c v h]

end

variable {p : Params} {s t : State}

/-- A host read of element `j` of the plane finds the value. -/
def PlaneReads (p : Params) (s : State) (n : PlaneName) (j : Nat) (v : F64) : Prop :=
  elementRead p.nMax (s.plane n) (unspecifiedElement p s n) (s.planeLength n) j = .value v

/-- A host read of byte `j` of the buffer finds the value. -/
def ByteReads (p : Params) (s : State) (n : BufferName) (j : Nat) (v : Byte) : Prop :=
  elementRead p.nMax (s.buffer n) (unspecifiedByte p s n) (s.bufferLength n) j = .value v

theorem PlaneReads.hostReadPlane_eq {n : PlaneName} {j : Nat} {v : F64} (h : PlaneReads p s n j v)
    (go : F64 → Host.Outcome State Fault Refusal) : hostReadPlane p s n j go = go v := by
  unfold hostReadPlane
  rw [h]

theorem ByteReads.hostReadByte_eq {n : BufferName} {j : Nat} {v : Byte} (h : ByteReads p s n j v)
    (go : Byte → Host.Outcome State Fault Refusal) : hostReadByte p s n j go = go v := by
  unfold hostReadByte
  rw [h]

/-- Everything a host read of an element that answers a next state can do: find a value and keep it for the host. -/
theorem hostMove_readPlane_next {n : PlaneName} {j : Nat} (h : hostMove p (.readPlane n j) s = .next t) :
    ∃ v, PlaneReads p s n j v ∧ t = { s with readData := some (.real v) } := by
  simp only [hostMove, hostReadPlane] at h
  split at h
  · rename_i v hv
    exact ⟨v, hv, (Host.Outcome.next.inj h).symm⟩
  · cases h
  · cases h

/-- Everything a host read of a byte that answers a next state can do. -/
theorem hostMove_readByte_next {n : BufferName} {j : Nat} (h : hostMove p (.readByte n j) s = .next t) :
    ∃ v, ByteReads p s n j v ∧ t = { s with readData := some (.byte v) } := by
  simp only [hostMove, hostReadByte] at h
  split at h
  · rename_i v hv
    exact ⟨v, hv, (Host.Outcome.next.inj h).symm⟩
  · cases h
  · cases h

theorem hostMove_readPlane_iff {n : PlaneName} {j : Nat} {v : F64} :
    hostMove p (.readPlane n j) s = .next { s with readData := some (.real v) } ↔ PlaneReads p s n j v := by
  refine ⟨fun h => ?_, fun h => h.hostReadPlane_eq _⟩
  obtain ⟨u, hu, heq⟩ := hostMove_readPlane_next h
  cases congrArg State.readData heq
  exact hu

theorem hostMove_readByte_iff {n : BufferName} {j : Nat} {v : Byte} :
    hostMove p (.readByte n j) s = .next { s with readData := some (.byte v) } ↔ ByteReads p s n j v := by
  refine ⟨fun h => ?_, fun h => h.hostReadByte_eq _⟩
  obtain ⟨u, hu, heq⟩ := hostMove_readByte_next h
  cases congrArg State.readData heq
  exact hu

theorem planeReads_of_held {n : PlaneName} {j : Nat} {v : F64} (hj : j < p.nMax)
    (hv : Cells.read (s.plane n) j = some v) (hlen : n = .yRe ∨ n = .yIm → j < s.ny) : PlaneReads p s n j v := by
  refine elementRead_of_held hj hv fun hfree => ?_
  cases n with
  | xaRe => cases hfree
  | xaIm => cases hfree
  | xbRe => cases hfree
  | yRe => exact hlen (.inl rfl)
  | yIm => exact hlen (.inr rfl)

theorem byteReads_of_held {n : BufferName} {j : Nat} {v : Byte} (hj : j < p.nMax)
    (hv : Cells.read (s.buffer n) j = some v) (hlen : n = .byBuf → j < s.nby) : ByteReads p s n j v := by
  refine elementRead_of_held hj hv fun hfree => ?_
  cases n with
  | ba => cases hfree
  | bb => cases hfree
  | byBuf => exact hlen rfl

/-! ### Host reads have no side effect and are idempotent -/

/-- A host read reads nothing of what the host's last read returned. -/
theorem PlaneReads.readData {n : PlaneName} {j : Nat} {v : F64} (h : PlaneReads p s n j v) (d : Option HostDatum) :
    PlaneReads p { s with readData := d } n j v := by
  cases n <;> exact h

theorem ByteReads.readData {n : BufferName} {j : Nat} {v : Byte} (h : ByteReads p s n j v) (d : Option HostDatum) :
    ByteReads p { s with readData := d } n j v := by
  cases n <;> exact h

theorem register_readData (s : State) (d : Option HostDatum) (r : ReadableRegister) :
    State.register { s with readData := d } r = s.register r := by
  cases r <;> rfl

theorem hostMove_read_idempotent {a : HostAction}
    (ha : (∃ r, a = .readRegister r) ∨ (∃ n j, a = .readPlane n j) ∨ (∃ n j, a = .readByte n j))
    (h : hostMove p a s = .next t) : t = { s with readData := t.readData } ∧ hostMove p a t = .next t := by
  rcases ha with ⟨r, rfl⟩ | ⟨n, j, rfl⟩ | ⟨n, j, rfl⟩
  · obtain rfl := Host.Outcome.next.inj h
    exact ⟨rfl, by simp only [hostMove, answerHost, register_readData]⟩
  · obtain ⟨v, hv, rfl⟩ := hostMove_readPlane_next h
    exact ⟨rfl, hostMove_readPlane_iff.2 (hv.readData _)⟩
  · obtain ⟨v, hv, rfl⟩ := hostMove_readByte_next h
    exact ⟨rfl, hostMove_readByte_iff.2 (hv.readData _)⟩

theorem hostMove_readRegister (s : State) : ∀ r ∈ [(ReadableRegister.status, HostDatum.word s.status),
    (.naRe, .length s.naRe), (.naIm, .length s.naIm), (.nbRe, .length s.nbRe), (.ny, .length s.ny),
    (.nba, .length s.nba), (.nbb, .length s.nbb), (.nby, .length s.nby), (.caRe, .real s.ca.re),
    (.caIm, .real s.ca.im), (.cbRe, .real s.cb.re), (.cbIm, .real s.cb.im), (.crRe, .real s.cr.re),
    (.crIm, .real s.cr.im)], hostMove p (.readRegister r.1) s = .next { s with readData := some r.2 } := by
  simp [hostMove, answerHost, State.register]

/-- Settles O59. -/
theorem hostReadsReturnWhatIsHeld : Obligations.HostReadsReturnWhatIsHeld :=
  ⟨hostMove_readRegister,
    fun _ _ _ _ hj hv hlen => hostMove_readPlane_iff.2 (planeReads_of_held hj hv hlen),
    fun _ _ _ _ hj hv hlen => hostMove_readByte_iff.2 (byteReads_of_held hj hv hlen),
    fun _ _ hj hlen => ⟨hostMove_readPlane_iff.2 (elementRead_of_length_le hj hlen),
      hostMove_readPlane_iff.2 (elementRead_of_length_le hj hlen)⟩,
    fun _ _ hj hlen => hostMove_readByte_iff.2 (elementRead_of_length_le hj hlen),
    fun _ _ _ => hostMove_read_idempotent⟩

/-! ### Updates of one operand container -/

@[simp] theorem setOperandPlane_plane_name (s : State) (n : OperandPlane) :
    s.setOperandPlane n (s.plane n.name) = s := by
  cases n <;> rfl

@[simp] theorem setOperandPlane_setOperandPlane (s : State) (n : OperandPlane) (c d : Plane) :
    (s.setOperandPlane n c).setOperandPlane n d = s.setOperandPlane n d := by
  cases n <;> rfl

@[simp] theorem setOperandBuffer_buffer_name (s : State) (n : OperandBuffer) :
    s.setOperandBuffer n (s.buffer n.name) = s := by
  cases n <;> rfl

@[simp] theorem setOperandBuffer_setOperandBuffer (s : State) (n : OperandBuffer) (c d : Buffer) :
    (s.setOperandBuffer n c).setOperandBuffer n d = s.setOperandBuffer n d := by
  cases n <;> rfl

theorem onlyOperandPlaneChanged_setOperandPlane (s : State) (n : OperandPlane) (c : Plane) :
    OnlyOperandPlaneChanged n s (s.setOperandPlane n c) :=
  ⟨by cases n <;> rfl, plane_setOperandPlane_of_ne s n c⟩

theorem onlyOperandBufferChanged_setOperandBuffer (s : State) (n : OperandBuffer) (c : Buffer) :
    OnlyOperandBufferChanged n s (s.setOperandBuffer n c) :=
  ⟨by cases n <;> rfl, buffer_setOperandBuffer_of_ne s n c⟩

@[simp] theorem unspecifiedElement_setOperandPlane (p : Params) (s : State) (n : OperandPlane) (c : Plane)
    (q : PlaneName) : unspecifiedElement p (s.setOperandPlane n c) q = unspecifiedElement p s q := by
  cases q <;> simp [unspecifiedElement]

@[simp] theorem unspecifiedByte_setOperandBuffer (p : Params) (s : State) (n : OperandBuffer) (c : Buffer)
    (q : BufferName) : unspecifiedByte p (s.setOperandBuffer n c) q = unspecifiedByte p s q := by
  cases q <;> simp [unspecifiedByte]

/-- A write of an operand element leaves what a read of an element of another index finds, in every plane. -/
theorem PlaneReads.write_of_ne {q : PlaneName} {j k : Nat} {u : F64} (h : PlaneReads p s q k u) (hk : k ≠ j)
    (n : OperandPlane) (v : F64) :
    PlaneReads p (s.setOperandPlane n (Cells.write (s.plane n.name) j v)) q k u := by
  unfold PlaneReads at h ⊢
  rw [unspecifiedElement_setOperandPlane, planeLength_setOperandPlane]
  by_cases hq : q = n.name
  · subst hq
    rw [plane_setOperandPlane, elementRead_write_of_ne hk, h]
  · rw [plane_setOperandPlane_of_ne _ _ _ _ hq, h]

/-- A write of an operand byte leaves what a read of a byte of another index finds, in every buffer. -/
theorem ByteReads.write_of_ne {q : BufferName} {j k : Nat} {u : Byte} (h : ByteReads p s q k u) (hk : k ≠ j)
    (n : OperandBuffer) (v : Byte) :
    ByteReads p (s.setOperandBuffer n (Cells.write (s.buffer n.name) j v)) q k u := by
  unfold ByteReads at h ⊢
  rw [unspecifiedByte_setOperandBuffer, bufferLength_setOperandBuffer]
  by_cases hq : q = n.name
  · subst hq
    rw [buffer_setOperandBuffer, elementRead_write_of_ne hk, h]
  · rw [buffer_setOperandBuffer_of_ne _ _ _ _ hq, h]

/-! ### The writing moves in closed form -/

theorem hostWritePlane_eq {j : Nat} (hj : j < p.nMax) (s : State) (n : OperandPlane) (v : F64)
    (go : State → Host.Outcome State Fault Refusal) :
    hostWritePlane p s n j v go = go (s.setOperandPlane n (Cells.write (s.plane n.name) j v)) :=
  if_neg (Nat.not_le.2 hj)

theorem hostWriteByte_eq {j : Nat} (hj : j < p.nMax) (s : State) (n : OperandBuffer) (v : Byte)
    (go : State → Host.Outcome State Fault Refusal) :
    hostWriteByte p s n j v go = go (s.setOperandBuffer n (Cells.write (s.buffer n.name) j v)) :=
  if_neg (Nat.not_le.2 hj)

theorem hostSetPlane_eq (n : OperandPlane) (vs : List F64) (j : Nat) (s : State) (h : j + vs.length ≤ p.nMax) :
    hostSetPlane p n j vs s = .next (s.setOperandPlane n (Cells.writeFrom (s.plane n.name) j vs)) := by
  induction vs generalizing j s with
  | nil => simp [hostSetPlane, Cells.writeFrom]
  | cons v vs ih =>
    rw [List.length_cons] at h
    rw [hostSetPlane, hostWritePlane_eq (by omega), ih _ _ (by omega)]
    simp [Cells.writeFrom]

theorem hostSetBuffer_eq (n : OperandBuffer) (vs : List Byte) (j : Nat) (s : State) (h : j + vs.length ≤ p.nMax) :
    hostSetBuffer p n j vs s = .next (s.setOperandBuffer n (Cells.writeFrom (s.buffer n.name) j vs)) := by
  induction vs generalizing j s with
  | nil => simp [hostSetBuffer, Cells.writeFrom]
  | cons v vs ih =>
    rw [List.length_cons] at h
    rw [hostSetBuffer, hostWriteByte_eq (by omega), ih _ _ (by omega)]
    simp [Cells.writeFrom]

/-- `COPY` writes what the reads of the source found before it began: each of its writes lies below the elements it has
still to read, so a copy of a plane onto itself is no exception. -/
theorem hostCopyPlane_eq (dst : OperandPlane) (src : PlaneName) (v : Nat → F64) (count j : Nat) (s : State)
    (h : ∀ k, j ≤ k → k < j + count → PlaneReads p s src k (v k)) :
    hostCopyPlane p dst src j count s =
      .next (s.setOperandPlane dst (Cells.writeFrom (s.plane dst.name) j ((List.range' j count).map v))) := by
  induction count generalizing j s with
  | zero => simp [hostCopyPlane, Cells.writeFrom]
  | succ count ih =>
    have hread : PlaneReads p s src j (v j) := h j le_rfl (by omega)
    have hrest : ∀ k, j + 1 ≤ k → k < j + 1 + count →
        PlaneReads p (s.setOperandPlane dst (Cells.write (s.plane dst.name) j (v j))) src k (v k) :=
      fun k hk hk' => (h k (by omega) (by omega)).write_of_ne (by omega) dst (v j)
    rw [hostCopyPlane, hread.hostReadPlane_eq, hostWritePlane_eq (lt_of_elementRead_eq_value hread), ih _ _ hrest]
    simp [Cells.writeFrom, List.range'_succ]

theorem hostCopyBuffer_eq (dst : OperandBuffer) (src : BufferName) (v : Nat → Byte) (count j : Nat) (s : State)
    (h : ∀ k, j ≤ k → k < j + count → ByteReads p s src k (v k)) :
    hostCopyBuffer p dst src j count s =
      .next (s.setOperandBuffer dst (Cells.writeFrom (s.buffer dst.name) j ((List.range' j count).map v))) := by
  induction count generalizing j s with
  | zero => simp [hostCopyBuffer, Cells.writeFrom]
  | succ count ih =>
    have hread : ByteReads p s src j (v j) := h j le_rfl (by omega)
    have hrest : ∀ k, j + 1 ≤ k → k < j + 1 + count →
        ByteReads p (s.setOperandBuffer dst (Cells.write (s.buffer dst.name) j (v j))) src k (v k) :=
      fun k hk hk' => (h k (by omega) (by omega)).write_of_ne (by omega) dst (v j)
    rw [hostCopyBuffer, hread.hostReadByte_eq, hostWriteByte_eq (lt_of_elementRead_eq_value hread), ih _ _ hrest]
    simp [Cells.writeFrom, List.range'_succ]

/-! ### What each writing move leaves -/

theorem writePlane_effect (s : State) (n : OperandPlane) (j : Nat) (v : F64) (hj : j < p.nMax) :
    ∃ t, hostMove p (.writePlane n j v) s = .next t ∧
      hostMove p (.readPlane n.name j) t = .next { t with readData := some (.real v) } ∧
      (∀ k, k ≠ j → Cells.read (t.plane n.name) k = Cells.read (s.plane n.name) k) ∧
      OnlyOperandPlaneChanged n s t := by
  refine ⟨_, hostWritePlane_eq hj s n v _, hostMove_readPlane_iff.2 (planeReads_of_held hj (by simp) ?_), ?_,
    onlyOperandPlaneChanged_setOperandPlane s n _⟩
  · intro hresult
    cases n <;> simp [OperandPlane.name] at hresult
  · intro k hk
    rw [plane_setOperandPlane, Cells.read_write_of_ne _ _ hk]

theorem writeByte_effect (s : State) (n : OperandBuffer) (j : Nat) (v : Byte) (hj : j < p.nMax) :
    ∃ t, hostMove p (.writeByte n j v) s = .next t ∧
      hostMove p (.readByte n.name j) t = .next { t with readData := some (.byte v) } ∧
      (∀ k, k ≠ j → Cells.read (t.buffer n.name) k = Cells.read (s.buffer n.name) k) ∧
      OnlyOperandBufferChanged n s t := by
  refine ⟨_, hostWriteByte_eq hj s n v _, hostMove_readByte_iff.2 (byteReads_of_held hj (by simp) ?_), ?_,
    onlyOperandBufferChanged_setOperandBuffer s n _⟩
  · intro hresult
    cases n <;> cases hresult
  · intro k hk
    rw [buffer_setOperandBuffer, Cells.read_write_of_ne _ _ hk]

theorem hostMove_setLength (r : OperandLength) {v : Nat} (hv : v ≤ p.nMax) (s : State) :
    hostMove p (.setLength r v) s = .next (s.setLength r v) := if_neg (Nat.not_lt.2 hv)

/-- An operand plane after a run of writes from element 0: the values, the other elements, and the frame. -/
theorem setOperandPlane_writeFrom_effect (s : State) (n : OperandPlane) (vs : List F64) :
    Cells.Holds ((s.setOperandPlane n (Cells.writeFrom (s.plane n.name) 0 vs)).plane n.name) vs ∧
      (∀ k, vs.length ≤ k →
        Cells.read ((s.setOperandPlane n (Cells.writeFrom (s.plane n.name) 0 vs)).plane n.name) k =
          Cells.read (s.plane n.name) k) ∧
      OnlyOperandPlaneChanged n s (s.setOperandPlane n (Cells.writeFrom (s.plane n.name) 0 vs)) := by
  rw [plane_setOperandPlane]
  exact ⟨Cells.holds_writeFrom _ vs, fun k hk => Cells.read_writeFrom_above vs _ (by omega),
    onlyOperandPlaneChanged_setOperandPlane s n _⟩

/-- An operand buffer after a run of writes from byte 0: the values, the other bytes, and the frame. -/
theorem setOperandBuffer_writeFrom_effect (s : State) (n : OperandBuffer) (vs : List Byte) :
    Cells.Holds ((s.setOperandBuffer n (Cells.writeFrom (s.buffer n.name) 0 vs)).buffer n.name) vs ∧
      (∀ k, vs.length ≤ k →
        Cells.read ((s.setOperandBuffer n (Cells.writeFrom (s.buffer n.name) 0 vs)).buffer n.name) k =
          Cells.read (s.buffer n.name) k) ∧
      OnlyOperandBufferChanged n s (s.setOperandBuffer n (Cells.writeFrom (s.buffer n.name) 0 vs)) := by
  rw [buffer_setOperandBuffer]
  exact ⟨Cells.holds_writeFrom _ vs, fun k hk => Cells.read_writeFrom_above vs _ (by omega),
    onlyOperandBufferChanged_setOperandBuffer s n _⟩

theorem setPlane_effect (s : State) (n : OperandPlane) (vs : List F64) (h : vs.length ≤ p.nMax) :
    ∃ t, hostMove p (.setPlane n vs) s = .next t ∧ Cells.Holds (t.plane n.name) vs ∧
      (∀ k, vs.length ≤ k → Cells.read (t.plane n.name) k = Cells.read (s.plane n.name) k) ∧
      OnlyOperandPlaneChanged n s t :=
  ⟨_, hostSetPlane_eq n vs 0 s (by omega), setOperandPlane_writeFrom_effect s n vs⟩

theorem setBuffer_effect (s : State) (n : OperandBuffer) (vs : List Byte) (h : vs.length ≤ p.nMax) :
    ∃ t, hostMove p (.setBuffer n vs) s = .next t ∧ Cells.Holds (t.buffer n.name) vs ∧
      (∀ k, vs.length ≤ k → Cells.read (t.buffer n.name) k = Cells.read (s.buffer n.name) k) ∧
      OnlyOperandBufferChanged n s t :=
  ⟨_, hostSetBuffer_eq n vs 0 s (by omega), setOperandBuffer_writeFrom_effect s n vs⟩

/-- A container that holds the first `count` values of a sequence reads as them. -/
theorem Cells.Holds.read_range' {w count : Nat} {c : Cells w} {v : Nat → BitVec w}
    (h : Cells.Holds c ((List.range' 0 count).map v)) {j : Nat} (hj : j < count) : Cells.read c j = some (v j) := by
  rw [h j (by simpa using hj)]
  simp

theorem copyPlane_effect (s : State) (dst : OperandPlane) (src : PlaneName) (v : Nat → F64)
    (h : ∀ j, j < s.planeLength src →
      hostMove p (.readPlane src j) s = .next { s with readData := some (.real (v j)) }) :
    ∃ t, hostMove p (.copyPlane dst src) s = .next t ∧
      (∀ j, j < s.planeLength src → Cells.read (t.plane dst.name) j = some (v j)) ∧
      (∀ k, s.planeLength src ≤ k → Cells.read (t.plane dst.name) k = Cells.read (s.plane dst.name) k) ∧
      OnlyOperandPlaneChanged dst s t := by
  have hcopy := hostCopyPlane_eq dst src v (s.planeLength src) 0 s
    fun k _ hk => hostMove_readPlane_iff.1 (h k (by omega))
  obtain ⟨hholds, hothers, hframe⟩ :=
    setOperandPlane_writeFrom_effect s dst ((List.range' 0 (s.planeLength src)).map v)
  exact ⟨_, hcopy, fun _ hj => hholds.read_range' hj, fun k hk => hothers k (by simpa using hk), hframe⟩

theorem copyBuffer_effect (s : State) (dst : OperandBuffer) (src : BufferName) (v : Nat → Byte)
    (h : ∀ j, j < s.bufferLength src →
      hostMove p (.readByte src j) s = .next { s with readData := some (.byte (v j)) }) :
    ∃ t, hostMove p (.copyBuffer dst src) s = .next t ∧
      (∀ j, j < s.bufferLength src → Cells.read (t.buffer dst.name) j = some (v j)) ∧
      (∀ k, s.bufferLength src ≤ k → Cells.read (t.buffer dst.name) k = Cells.read (s.buffer dst.name) k) ∧
      OnlyOperandBufferChanged dst s t := by
  have hcopy := hostCopyBuffer_eq dst src v (s.bufferLength src) 0 s
    fun k _ hk => hostMove_readByte_iff.1 (h k (by omega))
  obtain ⟨hholds, hothers, hframe⟩ :=
    setOperandBuffer_writeFrom_effect s dst ((List.range' 0 (s.bufferLength src)).map v)
  exact ⟨_, hcopy, fun _ hj => hholds.read_range' hj, fun k hk => hothers k (by simpa using hk), hframe⟩

/-- Settles O58, move by move. -/
theorem hostWritesTakeEffect : Obligations.HostWritesTakeEffect := by
  refine ⟨writePlane_effect, writeByte_effect, fun s v hv => ?_, fun s v => ⟨rfl, rfl, rfl, rfl⟩, setPlane_effect,
    setBuffer_effect, copyPlane_effect, copyBuffer_effect⟩
  exact ⟨hostMove_setLength .naRe hv s, hostMove_setLength .naIm hv s, hostMove_setLength .nbRe hv s,
    hostMove_setLength .nba hv s, hostMove_setLength .nbb hv s⟩

/-! ### The step and reset -/

/-- Settles O4. -/
theorem stepRunsDecodedCommand : Obligations.StepRunsDecodedCommand := by
  intro s w i hcmd hdecode
  simp only [step, hcmd, hdecode]
  rfl

theorem step_of_script_cons {a : HostAction} {rest : List HostAction} (hcmd : s.cmd = none)
    (hscript : s.script = a :: rest) : step s = hostMove block a { s with script := rest } := by
  simp only [step, awaitCommand, hcmd, hscript]

theorem step_of_script_nil (hcmd : s.cmd = none) (hscript : s.script = []) : step s = .next s := by
  simp only [step, awaitCommand, hcmd, hscript]

/-- Settles O5. -/
theorem blockWaitsForTheHost : Obligations.BlockWaitsForTheHost :=
  ⟨fun _ hcmd => ⟨fun _ _ => step_of_script_cons hcmd, step_of_script_nil hcmd⟩, fun _ _ => rfl⟩

theorem isAsAfterReset_reset : IsAsAfterReset State.reset := by
  refine ⟨rfl, fun p => ?_, fun b => ?_, fun p j => ?_, fun b j => ?_, rfl⟩
  · cases p <;> rfl
  · cases b <;> rfl
  · cases p <;> rfl
  · cases b <;> rfl

/-- The reset move leaves the block's own state as the start has it: it differs in the model's own fields alone. -/
theorem isAsAfterReset_resetBlock (s : State) : IsAsAfterReset (resetBlock s) := isAsAfterReset_reset

/-- Settles O54. -/
theorem resetLeavesSpecifiedState : Obligations.ResetLeavesSpecifiedState :=
  ⟨isAsAfterReset_reset, fun s => ⟨resetBlock s, rfl, isAsAfterReset_resetBlock s, rfl⟩⟩

end Sys2Proof.Machine
end

section
/-! PROOFS. The index ranges: the host stops at `N_MAX` (O60), and a transform stage reads each element of its buffer
once (O19). -/

namespace Sys2Proof.Machine

/-! ### The host's accesses beyond the capacity -/

section

variable {p : Params}

/-- A host read at or above the capacity finds nothing, whatever the container holds (R54). -/
theorem elementRead_of_capacity_le {w nMax length j : Nat} {c : Cells w} {free : Option (Nat → BitVec w)}
    (hj : nMax ≤ j) : elementRead nMax c free length j = .outside := if_pos hj

theorem hostMove_readPlane_of_capacity_le (s : State) (n : PlaneName) {j : Nat} (hj : p.nMax ≤ j) :
    hostMove p (.readPlane n j) s = .refused (.noSuchElement n j) := by
  rw [hostMove, hostReadPlane, elementRead_of_capacity_le hj]

theorem hostMove_readByte_of_capacity_le (s : State) (n : BufferName) {j : Nat} (hj : p.nMax ≤ j) :
    hostMove p (.readByte n j) s = .refused (.noSuchByte n j) := by
  rw [hostMove, hostReadByte, elementRead_of_capacity_le hj]

theorem hostMove_writePlane_of_capacity_le (s : State) (n : OperandPlane) {j : Nat} (v : F64) (hj : p.nMax ≤ j) :
    hostMove p (.writePlane n j v) s = .refused (.noSuchElement n.name j) := if_pos hj

theorem hostMove_writeByte_of_capacity_le (s : State) (n : OperandBuffer) {j : Nat} (v : Byte) (hj : p.nMax ≤ j) :
    hostMove p (.writeByte n j v) s = .refused (.noSuchByte n.name j) := if_pos hj

theorem hostMove_setLength_of_capacity_lt (s : State) (r : OperandLength) {v : Nat} (hv : p.nMax < v) :
    hostMove p (.setLength r v) s = .refused (.lengthAboveCapacity r v) := if_pos hv

end

/-- Settles O60, move by move. -/
theorem hostStopsBeyondCapacity : Obligations.HostStopsBeyondCapacity :=
  ⟨fun s n _ v => hostMove_writePlane_of_capacity_le s n v, fun s n _ => hostMove_readPlane_of_capacity_le s n,
    fun s n _ v => hostMove_writeByte_of_capacity_le s n v, fun s n _ => hostMove_readByte_of_capacity_le s n,
    fun s r _ => hostMove_setLength_of_capacity_lt s r⟩

/-! ### The elements a stage reads

With `g = 2^s`, butterfly `k = g * q + i` (`i < g`) reads the elements `g * (2 * q) + i` and `g * (2 * q + 1) + i`: the
quotient of an element's index by `g` tells by its parity which of the two it is, and by its half the butterfly's `q`. -/

theorem fwdIndex_index (s k : Nat) : (fwdIndex s k).index = k / 2 ^ s := Nat.shiftRight_eq_div_pow k s

theorem fwdIndex_from0 (s k : Nat) : (fwdIndex s k).from0 = k / 2 ^ s * 2 ^ s + k := by
  rw [fwdIndex, Nat.shiftLeft_eq, Nat.shiftRight_eq_div_pow]

theorem fwdIndex_from1 (s k : Nat) : (fwdIndex s k).from1 = k / 2 ^ s * 2 ^ s + k + 2 ^ s :=
  congrArg (· + 2 ^ s) (fwdIndex_from0 s k)

/-- The element butterfly `r.1` of stage `s` reads: `from1` if `r.2`, else `from0`. -/
def stageElement (s : Nat) (r : Nat × Bool) : Nat :=
  if r.2 then (fwdIndex s r.1).from1 else (fwdIndex s r.1).from0

/-- Which butterfly of stage `s` reads element `j`, and as which of its two elements. -/
def stageReader (s j : Nat) : Nat × Bool := (2 ^ s * (j / 2 ^ s / 2) + j % 2 ^ s, j / 2 ^ s % 2 == 1)

theorem stageElement_eq (s : Nat) (r : Nat × Bool) :
    stageElement s r = 2 ^ s * (2 * (r.1 / 2 ^ s) + r.2.toNat) + r.1 % 2 ^ s := by
  have hk : 2 ^ s * (r.1 / 2 ^ s) + r.1 % 2 ^ s = r.1 := Nat.div_add_mod _ _
  obtain ⟨k, b⟩ := r
  cases b with
  | false =>
    calc (fwdIndex s k).from0 = k / 2 ^ s * 2 ^ s + k := fwdIndex_from0 s k
      _ = 2 ^ s * (2 * (k / 2 ^ s) + 0) + k % 2 ^ s := by linarith
  | true =>
    calc (fwdIndex s k).from1 = k / 2 ^ s * 2 ^ s + k + 2 ^ s := fwdIndex_from1 s k
      _ = 2 ^ s * (2 * (k / 2 ^ s) + 1) + k % 2 ^ s := by linarith

/-- An index written as a quotient and a remainder by `2^s` has that quotient and that remainder. -/
theorem two_pow_mul_add_div_mod (s q k : Nat) :
    (2 ^ s * q + k % 2 ^ s) / 2 ^ s = q ∧ (2 ^ s * q + k % 2 ^ s) % 2 ^ s = k % 2 ^ s :=
  (Nat.div_mod_unique (Nat.two_pow_pos s)).2 ⟨Nat.add_comm _ _, Nat.mod_lt _ (Nat.two_pow_pos s)⟩

theorem stageReader_stageElement (s : Nat) (r : Nat × Bool) : stageReader s (stageElement s r) = r := by
  obtain ⟨k, b⟩ := r
  obtain ⟨hdiv, hmod⟩ := two_pow_mul_add_div_mod s (2 * (k / 2 ^ s) + b.toNat) k
  have hb := b.toNat_lt
  have hhalf : (2 * (k / 2 ^ s) + b.toNat) / 2 = k / 2 ^ s := by omega
  have hparity : (2 * (k / 2 ^ s) + b.toNat) % 2 = b.toNat := by omega
  rw [stageElement_eq, stageReader, hdiv, hmod, hhalf, hparity, Nat.div_add_mod]
  cases b <;> rfl

theorem stageElement_stageReader (s j : Nat) : stageElement s (stageReader s j) = j := by
  obtain ⟨hdiv, hmod⟩ := two_pow_mul_add_div_mod s (j / 2 ^ s / 2) j
  have hparity : (j / 2 ^ s % 2 == 1).toNat = j / 2 ^ s % 2 := by
    rcases Nat.mod_two_eq_zero_or_one (j / 2 ^ s) with h | h <;> rw [h] <;> rfl
  rw [stageElement_eq, stageReader, hdiv, hmod, hparity, Nat.div_add_mod, Nat.div_add_mod]

/-! ### The ranges of a length-`2^m` transform's stage -/

/-- In stage `s < m` the `2^m / 2` butterflies fall into `2^m / 2 / 2^s` groups of `2^s`. -/
theorem half_length_eq {m s : Nat} (hs : s < m) : 2 ^ m / 2 = 2 ^ m / 2 / 2 ^ s * 2 ^ s := by
  refine (Nat.div_mul_cancel ?_).symm
  rw [← Nat.pow_sub_one (by omega) (by omega)]
  exact Nat.pow_dvd_pow 2 (by omega)

theorem length_eq_two_mul_half {m s : Nat} (hs : s < m) : 2 ^ m = 2 * (2 ^ m / 2) :=
  (Nat.mul_div_cancel' (dvd_pow_self 2 (by omega))).symm

theorem fwdIndex_index_lt {m s k : Nat} (hs : s < m) (hk : k < 2 ^ m / 2) :
    (fwdIndex s k).index < 2 ^ m / 2 / 2 ^ s := by
  rw [fwdIndex_index, Nat.div_lt_iff_lt_mul (Nat.two_pow_pos s), ← half_length_eq hs]
  exact hk

theorem fwdIndex_from0_lt_from1 (s k : Nat) : (fwdIndex s k).from0 < (fwdIndex s k).from1 :=
  Nat.lt_add_of_pos_right (Nat.two_pow_pos s)

theorem stageElement_lt {m s : Nat} (hs : s < m) {r : Nat × Bool} (hr : r.1 < 2 ^ m / 2) :
    stageElement s r < 2 ^ m := by
  have hindex := fwdIndex_index_lt hs hr
  rw [fwdIndex_index] at hindex
  have hb := r.2.toNat_lt
  calc stageElement s r = 2 ^ s * (2 * (r.1 / 2 ^ s) + r.2.toNat) + r.1 % 2 ^ s := stageElement_eq s r
    _ < 2 * (2 ^ m / 2 / 2 ^ s) * 2 ^ s :=
        Nat.mul_add_lt_mul_of_lt_of_lt (by omega) (Nat.mod_lt _ (Nat.two_pow_pos s))
    _ = 2 ^ m := by rw [Nat.mul_assoc, ← half_length_eq hs, ← length_eq_two_mul_half hs]

theorem stageReader_lt {m s j : Nat} (hs : s < m) (hj : j < 2 ^ m) : (stageReader s j).1 < 2 ^ m / 2 := by
  have hgroup : j / 2 ^ s / 2 < 2 ^ m / 2 / 2 ^ s := by
    rw [Nat.div_right_comm, Nat.div_lt_iff_lt_mul (Nat.two_pow_pos s), ← half_length_eq hs]
    have := length_eq_two_mul_half hs
    omega
  calc (stageReader s j).1 < 2 ^ m / 2 / 2 ^ s * 2 ^ s :=
        Nat.mul_add_lt_mul_of_lt_of_lt hgroup (Nat.mod_lt _ (Nat.two_pow_pos s))
    _ = 2 ^ m / 2 := (half_length_eq hs).symm

/-- Settles O19: the one butterfly that reads element `j` is `stageReader s j`. -/
theorem stageIndicesCoverBuffer : Obligations.StageIndicesCoverBuffer := by
  intro m s hs
  refine ⟨fun k hk => ⟨fwdIndex_from0_lt_from1 s k, stageElement_lt hs (r := (k, true)) hk, fwdIndex_index_lt hs hk⟩,
    fun j hj => ⟨stageReader s j, ⟨stageReader_lt hs hj, (stageElement_stageReader s j).symm⟩, ?_⟩⟩
  rintro r ⟨-, hread⟩
  calc r = stageReader s (stageElement s r) := (stageReader_stageElement s r).symm
    _ = stageReader s j := congrArg (stageReader s) hread.symm

end Sys2Proof.Machine
end

section
/-! PROOFS. The encoding: decode and encode agree (O2, O1), which words are illegal, and what such a word does (O3). -/

namespace Sys2Proof

/-! ### Decode and encode -/

/-- The mask is all ones, so it drops no bit of the word (R70). -/
@[simp] theorem and_decodeMask (w : Word) : w &&& decodeMask = w := BitVec.and_allOnes

/-- The opcode map and `encode` give each command the same word. -/
theorem eq_encode_of_mem_opcodeMap : ∀ row ∈ opcodeMap, row.1 = encode row.2 := by decide

@[simp] theorem decode_encode (i : Instr) : decode (encode i) = some i := by cases i <;> decide

theorem eq_encode_of_decode {w : Word} {i : Instr} (h : decode w = some i) : w = encode i := by
  obtain ⟨row, hfind, rfl⟩ := Option.map_eq_some_iff.1 h
  have hmatch : w &&& decodeMask = row.1 := by simpa using List.find?_some hfind
  calc w = w &&& decodeMask := (and_decodeMask w).symm
    _ = row.1 := hmatch
    _ = encode row.2 := eq_encode_of_mem_opcodeMap row (List.mem_of_find?_eq_some hfind)

/-- Settles O2: a decoded word is the matching row's, and every row's word is its command's encoding. -/
theorem decodeInvertsEncode : Obligations.DecodeInvertsEncode :=
  fun _ i => ⟨eq_encode_of_decode, fun h => h ▸ decode_encode i⟩

/-- Settles O1: the eight words are the encodings of the eight commands. -/
theorem commandWordsDecode : Obligations.CommandWordsDecode :=
  ⟨decode_encode .cadd, decode_encode .csub, decode_encode .cmul, decode_encode .crnd, decode_encode .fft,
    decode_encode .ifft, decode_encode .conv, decode_encode .bmul, rfl⟩

/-! ### The illegal words -/

/-- A word is its two fields, `rsvd` above `opcode` (R70). -/
theorem rsvd_append_opcode (w : Word) : w.rsvd ++ w.opcode = w :=
  (BitVec.extractLsb'_append_extractLsb'_eq_extractLsb' rfl).trans BitVec.extractLsb'_eq_self

@[simp] theorem rsvd_encode (i : Instr) : (encode i).rsvd = 0#24 := BitVec.extractLsb'_append_eq_left

@[simp] theorem opcode_encode (i : Instr) : (encode i).opcode = i.opcode := BitVec.extractLsb'_append_eq_right

theorem eq_encode_iff {w : Word} {i : Instr} : w = encode i ↔ w.rsvd = 0#24 ∧ w.opcode = i.opcode := by
  constructor
  · rintro rfl
    exact ⟨rsvd_encode i, opcode_encode i⟩
  · rintro ⟨hrsvd, hopcode⟩
    rw [← rsvd_append_opcode w, hrsvd, hopcode, encode]

theorem opcode_mem_knownOpcodes (i : Instr) : i.opcode ∈ Word.knownOpcodes := by cases i <;> decide

theorem knownOpcodes_eq_map_opcode : Word.knownOpcodes = (opcodeMap.map Prod.snd).map Instr.opcode := rfl

theorem mem_knownOpcodes_iff {b : Byte} : b ∈ Word.knownOpcodes ↔ ∃ i : Instr, b = i.opcode := by
  constructor
  · intro hb
    obtain ⟨i, -, hi⟩ := List.mem_map.1 (knownOpcodes_eq_map_opcode ▸ hb)
    exact ⟨i, hi.symm⟩
  · rintro ⟨i, rfl⟩
    exact opcode_mem_knownOpcodes i

/-- R73: the illegal words are those that fail the check of `rsvd` or that of `opcode`. -/
theorem decode_eq_none_iff {w : Word} : decode w = none ↔ w.rsvd ≠ 0#24 ∨ w.opcode ∉ Word.knownOpcodes := by
  calc decode w = none ↔ ¬∃ i, decode w = some i := by simp [Option.eq_none_iff_forall_ne_some]
    _ ↔ ¬∃ i : Instr, w.rsvd = 0#24 ∧ w.opcode = i.opcode := by simp only [decodeInvertsEncode w, eq_encode_iff]
    _ ↔ ¬(w.rsvd = 0#24 ∧ w.opcode ∈ Word.knownOpcodes) := by rw [exists_and_left, mem_knownOpcodes_iff]
    _ ↔ w.rsvd ≠ 0#24 ∨ w.opcode ∉ Word.knownOpcodes := not_and_or

/-- R73: a cleared register is not a command, for no opcode is zero. -/
theorem decode_zero : decode 0#32 = none := decode_eq_none_iff.2 (.inr (by decide))

namespace Machine

theorem step_of_illegal {s : State} {w : Word} (hcmd : s.cmd = some w) (hdecode : decode w = none) :
    step s = .next (setStatus .illegalCommand (takeCommand s)) := by
  simp only [step, hcmd, hdecode]
  rfl

end Machine

/-- Settles O3. -/
theorem illegalWordsChangeOnlyStatus : Obligations.IllegalWordsChangeOnlyStatus :=
  ⟨fun _ => decode_eq_none_iff, decode_zero, fun _ _ => Machine.step_of_illegal⟩

end Sys2Proof
end

section
/-! PROOFS. Rounding to the nearest `f64`: the magnitudes in rising order, and that `roundToF64` takes the nearest one
(R105). -/

namespace Sys2Proof.Machine

/-! ### Magnitudes -/

/-- The units of `2^-1074` that magnitude bits stand for, the exponent going on past infinity's. -/
def magnitudeUnits (m : Nat) : Nat := finiteUnits (m / 2 ^ 52) (m % 2 ^ 52)

theorem unpack_withSign (neg : Bool) {m : Nat} (h : m < infMagnitude) :
    unpack (.bits (withSign neg m)) = .finite neg (magnitudeUnits m) := unpackBits_withSign neg m h

theorem withSign_signBit (b : F64) : withSign (signBit b) (b.toNat % 2 ^ 63) = b := by
  have hlt : b.toNat < 2 ^ 64 := b.isLt
  refine BitVec.eq_of_toNat_eq ?_
  rw [toNat_withSign _ _ (Nat.mod_lt _ (by decide)), signBit_eq]
  by_cases h : 2 ^ 63 ≤ b.toNat <;> simp only [h, decide_true, decide_false, if_true, Bool.false_eq_true, if_false] <;>
    omega

/-- Every `f64` is a sign over a finite magnitude, an infinity or a NaN (R77). -/
theorem bits_cases (b : F64) :
    (∃ neg, ∃ m < infMagnitude, b = withSign neg m) ∨ (∃ neg, b = infBits neg) ∨ unpackBits b = .nan := by
  obtain ⟨neg, m, hm, rfl⟩ : ∃ neg, ∃ m < 2 ^ 63, b = withSign neg m :=
    ⟨signBit b, b.toNat % 2 ^ 63, Nat.mod_lt _ (by decide), (withSign_signBit b).symm⟩
  obtain h | h | h : m < infMagnitude ∨ m = infMagnitude ∨ infMagnitude < m := Nat.lt_trichotomy _ _
  · exact .inl ⟨neg, m, h, rfl⟩
  · exact .inr (.inl ⟨neg, by rw [h, infBits]⟩)
  · refine .inr (.inr ?_)
    unfold infMagnitude at h
    rw [unpackBits, exponentField_withSign neg m hm, fractionField_withSign neg m hm, if_pos (by omega),
      if_neg (by omega)]

/-- A finite value is a sign over a magnitude below infinity's. -/
theorem exists_withSign_of_finite {x : FVal} {neg : Bool} {u : Nat} (h : unpack x = .finite neg u) :
    ∃ m < infMagnitude, x = .bits (withSign neg m) ∧ u = magnitudeUnits m := by
  cases x with
  | nanResult => cases h
  | bits b =>
    rcases bits_cases b with ⟨s, m, hm, rfl⟩ | ⟨s, rfl⟩ | hnan
    · rw [unpack_withSign s hm] at h
      cases h
      exact ⟨m, hm, rfl, rfl⟩
    · rw [unpack_bits, unpackBits_infBits] at h; cases h
    · rw [unpack_bits, hnan] at h; cases h

theorem eq_infBits_of_unpack {x : FVal} {neg : Bool} (h : unpack x = .inf neg) : x = .bits (infBits neg) := by
  cases x with
  | nanResult => cases h
  | bits b =>
    rw [unpack_bits] at h
    rcases bits_cases b with ⟨s, m, hm, rfl⟩ | ⟨s, rfl⟩ | hnan
    · rw [unpackBits_withSign s m hm] at h; cases h
    · rw [unpackBits_infBits] at h; cases h; rfl
    · rw [hnan] at h; cases h

theorem magnitudeUnits_of_le {n : Nat} (h : n ≤ 2 ^ 53) : magnitudeUnits n = n := by
  have hcases : n / 2 ^ 52 = 0 ∨ n / 2 ^ 52 = 1 ∨ n = 2 ^ 53 := by omega
  rcases hcases with he | he | rfl
  · rw [magnitudeUnits, he, finiteUnits, if_pos rfl]; omega
  · rw [magnitudeUnits, he, finiteUnits, if_neg (by decide)]; omega
  · decide

/-- Raising the exponent field of a normal number by `t` multiplies it by `2^t`. -/
theorem magnitudeUnits_add (t : Nat) {n : Nat} (h : 2 ^ 52 ≤ n) :
    magnitudeUnits (t * 2 ^ 52 + n) = magnitudeUnits n * 2 ^ t := by
  have hdiv : (t * 2 ^ 52 + n) / 2 ^ 52 = t + n / 2 ^ 52 := by omega
  have hmod : (t * 2 ^ 52 + n) % 2 ^ 52 = n % 2 ^ 52 := by omega
  obtain ⟨e, he⟩ : ∃ e, n / 2 ^ 52 = e + 1 := ⟨n / 2 ^ 52 - 1, by omega⟩
  rw [magnitudeUnits, magnitudeUnits, hdiv, hmod, he, finiteUnits, finiteUnits, if_neg (by omega), if_neg (by omega),
    show t + (e + 1) - 1 = e + t by omega, Nat.add_sub_cancel, pow_add, mul_assoc]

/-- The significand `n` at the last place `2^t`: the sum that `roundMagnitude` forms is its encoding. -/
theorem magnitudeUnits_significand {t n : Nat} (hn : n ≤ 2 ^ 53) (h : t = 0 ∨ 2 ^ 52 ≤ n) :
    magnitudeUnits (t * 2 ^ 52 + n) = n * 2 ^ t := by
  rcases h with rfl | h
  · rw [Nat.zero_mul, Nat.zero_add, magnitudeUnits_of_le hn, pow_zero, mul_one]
  · rw [magnitudeUnits_add t h, magnitudeUnits_of_le hn]

theorem magnitudeUnits_strictMono : StrictMono magnitudeUnits := by
  refine strictMono_nat_of_lt_succ fun m => ?_
  obtain ⟨t, n, rfl, hn, h⟩ : ∃ t n, m = t * 2 ^ 52 + n ∧ n < 2 ^ 53 ∧ (t = 0 ∨ 2 ^ 52 ≤ n) :=
    ⟨m / 2 ^ 52 - 1, m - (m / 2 ^ 52 - 1) * 2 ^ 52, by omega, by omega, by omega⟩
  rw [Nat.add_assoc, magnitudeUnits_significand hn.le h, magnitudeUnits_significand hn (by omega)]
  exact Nat.mul_lt_mul_of_pos_right (Nat.lt_succ_self n) (Nat.two_pow_pos t)

/-- The real number that magnitude bits stand for. -/
def magnitudeValue (m : Nat) : ℚ := magnitudeUnits m / 2 ^ 1074

theorem magnitudeValue_strictMono : StrictMono magnitudeValue := fun _ _ h =>
  div_lt_div_of_pos_right (Nat.cast_lt.2 (magnitudeUnits_strictMono h)) (pow_pos two_pos _)

@[simp] theorem magnitudeValue_zero : magnitudeValue 0 = 0 := by
  rw [magnitudeValue, magnitudeUnits_of_le (Nat.zero_le _), Nat.cast_zero, zero_div]

theorem magnitudeValue_nonneg (m : Nat) : 0 ≤ magnitudeValue m := by unfold magnitudeValue; positivity

theorem magnitudeValue_add (t : Nat) {n : Nat} (h : 2 ^ 52 ≤ n) :
    magnitudeValue (t * 2 ^ 52 + n) = magnitudeValue n * 2 ^ t := by
  rw [magnitudeValue, magnitudeUnits_add t h, Nat.cast_mul, Nat.cast_pow, Nat.cast_ofNat, mul_div_right_comm,
    magnitudeValue]

/-! ### The nearest element of a rising sequence -/

/-- Element `r` is as near to `a` as any, and `r` is even if another one is as near. -/
def IsNearestEven (u : Nat → ℚ) (a : ℚ) (r : Nat) : Prop :=
  ∀ k, |a - u r| ≤ |a - u k| ∧ (k ≠ r → |a - u k| = |a - u r| → r % 2 = 0)

section

variable {u : Nat → ℚ} {a : ℚ} {r m : Nat} (hu : StrictMono u)
include hu

/-- Between two neighbours the nearer one is nearest of all, and the even one where they are equally near. -/
theorem isNearestEven_of_between (hl : u m ≤ a) (hr : a < u (m + 1))
    (h : r = m ∧ 2 * a < u m + u (m + 1) ∨ r = m + 1 ∧ u m + u (m + 1) < 2 * a ∨
      r = m + m % 2 ∧ 2 * a = u m + u (m + 1)) : IsNearestEven u a r := by
  have hm : |a - u m| = a - u m := abs_of_nonneg (sub_nonneg.2 hl)
  have hm1 : |a - u (m + 1)| = u (m + 1) - a := abs_sub_comm a _ ▸ abs_of_pos (sub_pos.2 hr)
  have hnear : |a - u r| ≤ a - u m ∧ |a - u r| ≤ u (m + 1) - a ∧
      (r % 2 = 0 ∨ r = m ∧ a - u m < u (m + 1) - a ∨ r = m + 1 ∧ u (m + 1) - a < a - u m) := by
    rcases h with ⟨rfl, h⟩ | ⟨rfl, h⟩ | ⟨hrm, h⟩
    · exact ⟨hm.le, by linarith, .inr (.inl ⟨rfl, by linarith⟩)⟩
    · exact ⟨by linarith, hm1.le, .inr (.inr ⟨rfl, by linarith⟩)⟩
    · obtain rfl | rfl : r = m ∨ r = m + 1 := by omega
      · exact ⟨hm.le, by linarith, .inl (by omega)⟩
      · exact ⟨by linarith, hm1.le, .inl (by omega)⟩
  obtain ⟨hleft, hright, hparity⟩ := hnear
  intro k
  rcases le_or_gt k m with hk | hk
  · have huk : u k ≤ u m := hu.monotone hk
    rw [abs_of_nonneg (by linarith : 0 ≤ a - u k)]
    refine ⟨by linarith, fun hne heq => ?_⟩
    rcases hparity with h | ⟨rfl, -⟩ | ⟨rfl, h⟩
    · exact h
    · linarith [hu (lt_of_le_of_ne hk hne)]
    · linarith
  · have huk : u (m + 1) ≤ u k := hu.monotone hk
    rw [abs_sub_comm a (u k), abs_of_pos (by linarith : 0 < u k - a)]
    refine ⟨by linarith, fun hne heq => ?_⟩
    rcases hparity with h | ⟨rfl, h⟩ | ⟨rfl, -⟩
    · exact h
    · linarith
    · linarith [hu (lt_of_le_of_ne hk (Ne.symm hne))]

/-- The nearest element lies at or below `k`, an odd place, if and only if `a` lies below the middle between `k` and
`k + 1`. -/
theorem IsNearestEven.le_iff {k : Nat} (h : IsNearestEven u a r) (hk : k % 2 = 1) :
    r ≤ k ↔ 2 * a < u k + u (k + 1) := by
  have hstep : u k < u (k + 1) := hu (Nat.lt_succ_self k)
  constructor
  · intro hrk
    have hur : u r ≤ u k := hu.monotone hrk
    by_contra! hmid
    obtain ⟨hle, htie⟩ := h (k + 1)
    rw [abs_of_nonneg (by linarith : 0 ≤ a - u r)] at hle htie
    rcases le_or_gt (u (k + 1)) a with ha | ha
    · rw [abs_of_nonneg (by linarith : 0 ≤ a - u (k + 1))] at hle
      linarith
    · rw [abs_sub_comm, abs_of_pos (by linarith : 0 < u (k + 1) - a)] at hle htie
      obtain rfl : r = k := hu.injective (by linarith)
      have := htie (by omega) (by linarith)
      omega
  · intro hmid
    by_contra! hrk
    have hur : u (k + 1) ≤ u r := hu.monotone hrk
    obtain ⟨hle, -⟩ := h k
    rw [abs_sub_comm, abs_of_pos (by linarith : 0 < u r - a)] at hle
    rcases le_or_gt (u k) a with ha | ha
    · rw [abs_of_nonneg (by linarith : 0 ≤ a - u k)] at hle
      linarith
    · rw [abs_sub_comm, abs_of_pos (by linarith : 0 < u k - a)] at hle
      linarith

end

/-! ### What `roundMagnitude` rounds to -/

/-- The magnitude bits that `roundMagnitude` forms before it caps them at infinity's. -/
def uncappedMagnitude (num den : Nat) : Nat :=
  lastPlace (num / den) * 2 ^ 52 + divNearestEven num (den * 2 ^ lastPlace (num / den))

theorem roundMagnitude_eq (num den : Nat) : roundMagnitude num den = min (uncappedMagnitude num den) infMagnitude :=
  rfl

/-- The three answers of `divNearestEven`, by the place of `num / den` between the two integers next to it. -/
theorem divNearestEven_cases (num den : Nat) :
    divNearestEven num den = num / den ∧ 2 * num < (2 * (num / den) + 1) * den ∨
      divNearestEven num den = num / den + 1 ∧ (2 * (num / den) + 1) * den < 2 * num ∨
      divNearestEven num den = num / den + num / den % 2 ∧ 2 * num = (2 * (num / den) + 1) * den := by
  have hdm : den * (num / den) + num % den = num := Nat.div_add_mod num den
  have hexp : (2 * (num / den) + 1) * den = 2 * (den * (num / den)) + den := by ring
  unfold divNearestEven
  dsimp only
  split
  · exact .inl ⟨rfl, by omega⟩
  · split
    · exact .inr (.inl ⟨rfl, by omega⟩)
    · exact .inr (.inr ⟨rfl, by omega⟩)

/-- The integer part of the significand has at most 53 bits, and exactly 53 above the subnormal range. -/
theorem significand_bounds (v : Nat) :
    v / 2 ^ lastPlace v < 2 ^ 53 ∧ (lastPlace v = 0 ∨ 2 ^ 52 ≤ v / 2 ^ lastPlace v) := by
  have hpos : 0 < 2 ^ lastPlace v := Nat.two_pow_pos _
  rw [Nat.div_lt_iff_lt_mul hpos, Nat.le_div_iff_mul_le hpos, ← pow_add, ← pow_add]
  have hlt : v < 2 ^ (v.log2 + 1) := Nat.lt_log2_self
  refine ⟨hlt.trans_le (Nat.pow_le_pow_right two_pos (by unfold lastPlace; omega)), ?_⟩
  rcases Nat.eq_zero_or_pos (lastPlace v) with h | h
  · exact .inl h
  · have hlog : 52 + lastPlace v = v.log2 := by unfold lastPlace at h ⊢; omega
    exact .inr (hlog ▸ Nat.log2_self_le (by rintro rfl; simp [lastPlace] at h))

/-- Rounding a quotient to an integer picks the nearest element of a sequence that rises there in steps of `w`. -/
theorem isNearestEven_divNearestEven {u : Nat → ℚ} (hu : StrictMono u) {w : ℚ} (hw : 0 < w) {num den base : Nat}
    (hden : 0 < den) (hbase : base % 2 = 0) (h0 : u (base + num / den) = (num / den : Nat) * w)
    (h1 : u (base + num / den + 1) = ((num / den : Nat) + 1) * w) :
    IsNearestEven u (num / den * w) (base + divNearestEven num den) := by
  have hdenq : (0 : ℚ) < den := Nat.cast_pos.2 hden
  have hlow := Nat.mul_div_le num den
  have hhigh := Nat.lt_mul_div_succ num hden
  have hcases := divNearestEven_cases num den
  generalize num / den = q at h0 h1 hlow hhigh hcases
  obtain ⟨x, hx⟩ : ∃ x : ℚ, x = num / den := ⟨_, rfl⟩
  have hxd : den * x = num := by rw [hx, mul_div_cancel₀ _ hdenq.ne']
  have cancel : ∀ {a b : ℚ}, den * a < den * b → a * w < b * w := fun h =>
    mul_lt_mul_of_pos_right (lt_of_mul_lt_mul_left h hdenq.le) hw
  rw [← hx]
  refine isNearestEven_of_between (m := base + q) hu ?_ ?_ ?_
  · rw [h0]
    exact mul_le_mul_of_nonneg_right (le_of_mul_le_mul_left (by rw [hxd]; exact_mod_cast hlow) hdenq) hw.le
  · rw [h1]
    exact cancel (by rw [hxd]; exact_mod_cast hhigh)
  have hsum : u (base + q) + u (base + q + 1) = (2 * q + 1) * w := by rw [h0, h1]; ring
  rw [hsum, ← mul_assoc]
  rcases hcases with ⟨he, h⟩ | ⟨he, h⟩ | ⟨he, h⟩
  · exact .inl ⟨by rw [he], cancel (by rw [mul_left_comm, hxd, mul_comm (den : ℚ)]; exact_mod_cast h)⟩
  · exact .inr (.inl ⟨by rw [he, Nat.add_assoc],
      cancel (by rw [mul_left_comm (den : ℚ) 2 x, hxd, mul_comm (den : ℚ)]; exact_mod_cast h)⟩)
  · refine .inr (.inr ⟨by rw [he]; omega, congrArg (· * w) (mul_left_cancel₀ hdenq.ne' ?_)⟩)
    rw [mul_left_comm, hxd, mul_comm (den : ℚ)]
    exact_mod_cast h

/-- The value of `num / den` units of `2^-1074`. -/
def unitsQuotient (num den : Nat) : ℚ := num / den / 2 ^ 1074

theorem isNearestEven_uncappedMagnitude (num : Nat) {den : Nat} (hden : 0 < den) :
    IsNearestEven magnitudeValue (unitsQuotient num den) (uncappedMagnitude num den) := by
  obtain ⟨hq, hq'⟩ := significand_bounds (num / den)
  unfold uncappedMagnitude
  generalize lastPlace (num / den) = t at hq hq' ⊢
  rw [Nat.div_div_eq_div_mul] at hq hq'
  have hval : unitsQuotient num den = num / (den * 2 ^ t : Nat) * (2 ^ t / 2 ^ 1074) := by
    rw [unitsQuotient, Nat.cast_mul, Nat.cast_pow, Nat.cast_ofNat, ← mul_div_assoc, ← div_div,
      div_mul_cancel₀ _ (pow_ne_zero t two_ne_zero)]
  rw [hval]
  refine isNearestEven_divNearestEven magnitudeValue_strictMono (by positivity)
    (Nat.mul_pos hden (Nat.two_pow_pos t)) (by omega) ?_ ?_
  · rw [magnitudeValue, magnitudeUnits_significand hq.le hq', Nat.cast_mul, Nat.cast_pow, Nat.cast_ofNat, mul_div_assoc]
  · rw [magnitudeValue, Nat.add_assoc, magnitudeUnits_significand hq (by omega), Nat.cast_mul, Nat.cast_pow,
      Nat.cast_ofNat, mul_div_assoc, Nat.cast_succ]

end Sys2Proof.Machine
end

section
/-! PROOFS. The arithmetic is correctly rounded: sums and differences (O11), products (O12) and quotients (O13) of
finite values. -/

namespace Sys2Proof.Machine

/-! ### Signed values -/

/-- A magnitude with a sign. -/
def signedValue (neg : Bool) (x : ℚ) : ℚ := if neg then -x else x

@[simp] theorem signedValue_false (x : ℚ) : signedValue false x = x := rfl

@[simp] theorem signedValue_true (x : ℚ) : signedValue true x = -x := rfl

@[simp] theorem signedValue_zero (neg : Bool) : signedValue neg 0 = 0 := by cases neg <;> simp

@[simp] theorem abs_signedValue (neg : Bool) (x : ℚ) : |signedValue neg x| = |x| := by cases neg <;> simp

theorem signedValue_not (neg : Bool) (x : ℚ) : signedValue (!neg) x = -signedValue neg x := by cases neg <;> simp

theorem signedValue_xor_mul (a b : Bool) (x y : ℚ) :
    signedValue (a ^^ b) (x * y) = signedValue a x * signedValue b y := by
  cases a <;> cases b <;> simp

theorem signedValue_xor_div (a b : Bool) (x y : ℚ) :
    signedValue (a ^^ b) (x / y) = signedValue a x / signedValue b y := by
  cases a <;> cases b <;> simp [neg_div, div_neg]

theorem signedValue_div (neg : Bool) (x y : ℚ) : signedValue neg (x / y) = signedValue neg x / y := by
  cases neg <;> simp [neg_div]

/-- The distance of two signed magnitudes: their difference under one sign, their sum under two. -/
theorem abs_signedValue_sub_signedValue (a b : Bool) {x y : ℚ} (hx : 0 ≤ x) (hy : 0 ≤ y) :
    |signedValue a x - signedValue b y| = if a = b then |x - y| else x + y := by
  have hadd : |x + y| = x + y := abs_of_nonneg (add_nonneg hx hy)
  cases a <;> cases b
  · rfl
  · simp [hadd]
  · rw [signedValue_true, signedValue_false, if_neg (by decide), abs_sub_comm, sub_neg_eq_add, add_comm, hadd]
  · simp only [signedValue_true, if_true]
    rw [neg_sub_neg, abs_sub_comm]

theorem decide_signedValue_neg (neg : Bool) {x : ℚ} (hx : 0 < x) : decide (signedValue neg x < 0) = neg := by
  cases neg
  · exact decide_eq_false (not_lt.2 hx.le)
  · exact decide_eq_true (neg_neg_of_pos hx)

theorem cast_signedUnits (neg : Bool) (u : Nat) : (signedUnits neg u : ℚ) = signedValue neg u := by
  cases neg <;> simp [signedUnits, signedValue]

theorem value_of_finite {x : FVal} {neg : Bool} {u : Nat} (h : unpack x = .finite neg u) :
    x.value = signedValue neg (u / 2 ^ 1074) := by
  unfold FVal.value
  rw [h, signedValue_div, ← cast_signedUnits]

theorem value_withSign (neg : Bool) {m : Nat} (h : m < infMagnitude) :
    (FVal.bits (withSign neg m)).value = signedValue neg (magnitudeValue m) := value_of_finite (unpack_withSign neg h)

theorem isFinite_withSign (neg : Bool) {m : Nat} (h : m < infMagnitude) : (FVal.bits (withSign neg m)).IsFinite :=
  ⟨neg, _, unpack_withSign neg h⟩

theorem exists_withSign {x : FVal} (h : x.IsFinite) : ∃ neg, ∃ m < infMagnitude, x = .bits (withSign neg m) := by
  obtain ⟨neg, u, hu⟩ := h
  obtain ⟨m, hm, hx, -⟩ := exists_withSign_of_finite hu
  exact ⟨neg, m, hm, hx⟩

theorem evenFraction_withSign (neg : Bool) {m : Nat} (h : m < infMagnitude) :
    (FVal.bits (withSign neg m)).EvenFraction ↔ m % 2 = 0 := by
  have h63 : m < 2 ^ 63 := h.trans infMagnitude_lt
  change (withSign neg m).toNat.testBit 0 = false ↔ _
  rw [toNat_withSign neg m h63, Nat.testBit_zero, decide_eq_false_iff_not]
  cases neg <;> simp
  omega

theorem msb_withSign (neg : Bool) {m : Nat} (h : m < infMagnitude) : (withSign neg m).msb = neg := by
  rw [BitVec.msb_eq_getLsbD_last]
  exact signBit_withSign neg m (h.trans infMagnitude_lt)

/-! ### The bound of the finite results -/

/-- The largest `f64` and half its last place more: the bound of R105. -/
def overflowBound : ℚ := 2 ^ 1024 - 2 ^ 970

theorem overflowBound_eq : overflowBound = 2 ^ 1024 - 2 ^ 970 := rfl

theorem overflowBound_pos : 0 < overflowBound := sub_pos.2 (pow_lt_pow_right₀ one_lt_two (by decide))

/-- The bound is the middle between the largest finite magnitude and infinity's. -/
theorem magnitudeValue_max_add_inf :
    magnitudeValue (infMagnitude - 1) + magnitudeValue infMagnitude = 2 * overflowBound := by
  have hmax : infMagnitude - 1 = 2045 * 2 ^ 52 + (2 ^ 53 - 1) := by decide
  have hinf : infMagnitude = 2045 * 2 ^ 52 + 2 ^ 53 := by decide
  have hpow : (2 : ℚ) ^ 2045 = 2 * 2 ^ 970 * 2 ^ 1074 := by rw [← pow_succ', ← pow_add]
  have hpow' : (2 : ℚ) ^ 1024 = 2 ^ 54 * 2 ^ 970 := by rw [← pow_add]
  rw [magnitudeValue, magnitudeValue, hmax, magnitudeUnits_significand (by decide) (by decide), hinf,
    magnitudeUnits_significand (by decide) (by decide), overflowBound, hpow', ← add_div,
    div_eq_iff (pow_ne_zero _ two_ne_zero), Nat.cast_mul, Nat.cast_mul, Nat.cast_pow 2 2045, Nat.cast_ofNat, hpow]
  generalize (2 : ℚ) ^ 970 = a
  generalize (2 : ℚ) ^ 1074 = b
  norm_num
  ring

theorem uncappedMagnitude_lt_iff (num : Nat) {den : Nat} (hden : 0 < den) :
    uncappedMagnitude num den < infMagnitude ↔ unitsQuotient num den < overflowBound := by
  have h := (isNearestEven_uncappedMagnitude num hden).le_iff magnitudeValue_strictMono
    (k := infMagnitude - 1) (by decide)
  rw [show infMagnitude - 1 + 1 = infMagnitude by decide, magnitudeValue_max_add_inf,
    mul_lt_mul_iff_right₀ two_pos] at h
  rw [← h]
  exact (Nat.le_sub_one_iff_lt (by decide)).symm

theorem magnitudeValue_lt {m : Nat} (h : m < infMagnitude) : magnitudeValue m < overflowBound := by
  have hmax : magnitudeValue m ≤ magnitudeValue (infMagnitude - 1) :=
    magnitudeValue_strictMono.monotone (Nat.le_sub_one_of_lt h)
  have hstep : magnitudeValue (infMagnitude - 1) < magnitudeValue infMagnitude := magnitudeValue_strictMono (by decide)
  linarith [magnitudeValue_max_add_inf]

theorem roundToF64_of_lt (neg : Bool) {num den : Nat} (h : uncappedMagnitude num den < infMagnitude) :
    roundToF64 neg num den = .bits (withSign neg (uncappedMagnitude num den)) := by
  rw [roundToF64, roundMagnitude_eq, min_eq_left h.le]

theorem roundToF64_of_le (neg : Bool) {num den : Nat} (h : infMagnitude ≤ uncappedMagnitude num den) :
    roundToF64 neg num den = .bits (infBits neg) := by
  rw [roundToF64, roundMagnitude_eq, min_eq_right h, infBits]

/-! ### One rounding -/

/-- The nearest magnitude under the right sign is nearest among all finite values, and even where it is not alone. -/
theorem IsNearestEven.nearest_signedValue {a : ℚ} {r : Nat} (h : IsNearestEven magnitudeValue a r) (ha : 0 ≤ a)
    (neg neg' : Bool) (k : Nat) :
    |signedValue neg a - signedValue neg (magnitudeValue r)| ≤
        |signedValue neg a - signedValue neg' (magnitudeValue k)| ∧
      (signedValue neg' (magnitudeValue k) ≠ signedValue neg (magnitudeValue r) →
        |signedValue neg a - signedValue neg' (magnitudeValue k)| =
            |signedValue neg a - signedValue neg (magnitudeValue r)| →
          r % 2 = 0) := by
  rw [abs_signedValue_sub_signedValue neg neg ha (magnitudeValue_nonneg r), if_pos rfl,
    abs_signedValue_sub_signedValue neg neg' ha (magnitudeValue_nonneg k)]
  by_cases hsign : neg = neg'
  · subst hsign
    rw [if_pos rfl]
    exact ⟨(h k).1, fun hne => (h k).2 (by rintro rfl; exact hne rfl)⟩
  · rw [if_neg hsign]
    have hk := magnitudeValue_nonneg k
    obtain ⟨hzero, htie⟩ := h 0
    rw [magnitudeValue_zero, sub_zero, abs_of_nonneg ha] at hzero htie
    refine ⟨by linarith, fun hne heq => ?_⟩
    have hk0 : magnitudeValue k = 0 := by linarith
    refine htie ?_ (by linarith)
    rintro rfl
    simp [hk0] at hne

/-- `roundToF64` rounds the signed quotient as R105 says. -/
theorem roundsTo_roundToF64 (neg : Bool) (num : Nat) {den : Nat} (hden : 0 < den) :
    RoundsTo (signedValue neg (unitsQuotient num den)) (roundToF64 neg num den) := by
  have hnear := isNearestEven_uncappedMagnitude num hden
  have hlt := uncappedMagnitude_lt_iff num hden
  have ha : 0 ≤ unitsQuotient num den := by unfold unitsQuotient; positivity
  unfold RoundsTo
  rw [← overflowBound_eq, abs_signedValue, abs_of_nonneg ha]
  split
  · rename_i hbound
    have hm := hlt.2 hbound
    rw [roundToF64_of_lt neg hm, value_withSign neg hm, evenFraction_withSign neg hm]
    refine ⟨isFinite_withSign neg hm, fun z hz => ?_, ?_, fun hq => ⟨_, rfl, ?_⟩⟩
    · obtain ⟨neg', k, hk, rfl⟩ := exists_withSign hz
      rw [value_withSign neg' hk]
      exact (hnear.nearest_signedValue ha neg neg' k).1
    · rintro ⟨z, hz, hne, heq⟩
      obtain ⟨neg', k, hk, rfl⟩ := exists_withSign hz
      rw [value_withSign neg' hk] at hne heq
      exact (hnear.nearest_signedValue ha neg neg' k).2 hne heq
    · have hpos : 0 < unitsQuotient num den := ha.lt_of_ne (by rintro h; rw [← h, signedValue_zero] at hq; exact hq rfl)
      rw [msb_withSign neg hm, decide_signedValue_neg neg hpos]
  · rename_i hbound
    have hpos : 0 < unitsQuotient num den := overflowBound_pos.trans_le (not_lt.1 hbound)
    rw [roundToF64_of_le neg (not_lt.1 fun h => hbound (hlt.1 h)), decide_signedValue_neg neg hpos]

/-! ### The operations -/

theorem roundsTo_addFinite (na : Bool) (a : Nat) (nb : Bool) (b : Nat) :
    RoundsTo (signedValue na (a / 2 ^ 1074) + signedValue nb (b / 2 ^ 1074)) (addFinite na a nb b) := by
  unfold addFinite
  obtain ⟨sum, hsum⟩ : ∃ sum, sum = signedUnits na a + signedUnits nb b := ⟨_, rfl⟩
  have hvalue : signedValue na (a / 2 ^ 1074) + signedValue nb (b / 2 ^ 1074) = (sum : ℚ) / 2 ^ 1074 := by
    rw [hsum, Int.cast_add, cast_signedUnits, cast_signedUnits, signedValue_div, signedValue_div, add_div]
  have hsign : signedValue (if sum = 0 then na && nb else decide (sum < 0)) sum.natAbs = sum := by
    obtain h | h | h := lt_trichotomy sum 0
    · rw [if_neg h.ne, decide_eq_true h, signedValue_true, Nat.cast_natAbs, abs_of_neg h, Int.cast_neg, neg_neg]
    · simp [h]
    · rw [if_neg h.ne', decide_eq_false h.not_gt, signedValue_false, Nat.cast_natAbs, abs_of_pos h]
  rw [hvalue, ← hsum, ← hsign, ← signedValue_div, ← div_one (sum.natAbs : ℚ), ← Nat.cast_one]
  exact roundsTo_roundToF64 _ _ one_pos

theorem isFinite_fneg {x : FVal} (h : x.IsFinite) : (fneg x).IsFinite := by
  obtain ⟨neg, u, hu⟩ := h
  exact ⟨!neg, u, by rw [unpack_fneg, hu]⟩

theorem value_fneg {x : FVal} (h : x.IsFinite) : (fneg x).value = -x.value := by
  obtain ⟨neg, u, hu⟩ := h
  have hn : unpack (fneg x) = .finite (!neg) u := by rw [unpack_fneg, hu]
  rw [value_of_finite hn, value_of_finite hu, signedValue_not]

theorem roundsTo_fadd {x y : FVal} (hx : x.IsFinite) (hy : y.IsFinite) : RoundsTo (x.value + y.value) (fadd x y) := by
  obtain ⟨na, a, ha⟩ := hx
  obtain ⟨nb, b, hb⟩ := hy
  rw [fadd_of_finite ha hb, value_of_finite ha, value_of_finite hb]
  exact roundsTo_addFinite na a nb b

theorem roundsTo_fsub {x y : FVal} (hx : x.IsFinite) (hy : y.IsFinite) : RoundsTo (x.value - y.value) (fsub x y) := by
  rw [sub_eq_add_neg, ← value_fneg hy]
  exact roundsTo_fadd hx (isFinite_fneg hy)

/-- Settles O11: one rounding of the exact sum, and `fsub` is `fadd` of the negated operand. -/
theorem sumIsCorrectlyRounded : Obligations.SumIsCorrectlyRounded :=
  fun _ _ hx hy => ⟨roundsTo_fadd hx hy, roundsTo_fsub hx hy⟩

theorem cast_unitsPerOne : (unitsPerOne : ℚ) = 2 ^ 1074 := by rw [unitsPerOne, Nat.cast_pow, Nat.cast_ofNat]

theorem unitsPerOne_pos : 0 < unitsPerOne := by unfold unitsPerOne; positivity

/-- Settles O12: the product of the units is in units of `2^-1074 * 2^-1074`. -/
theorem productIsCorrectlyRounded : Obligations.ProductIsCorrectlyRounded := by
  rintro x y ⟨na, a, ha⟩ ⟨nb, b, hb⟩
  have hvalue : x.value * y.value = signedValue (na ^^ nb) (unitsQuotient (a * b) unitsPerOne) := by
    rw [value_of_finite ha, value_of_finite hb, ← signedValue_xor_mul, unitsQuotient, cast_unitsPerOne, Nat.cast_mul,
      div_mul_div_comm, div_div]
  rw [hvalue, fmul_of_finite ha hb]
  exact roundsTo_roundToF64 _ _ unitsPerOne_pos

/-- Settles O13: the quotient of the units is a number of ones. -/
theorem quotientIsCorrectlyRounded : Obligations.QuotientIsCorrectlyRounded := by
  rintro x y ⟨na, a, ha⟩ ⟨nb, b, hb⟩ hy
  have hb0 : b ≠ 0 := by
    rintro rfl
    rw [value_of_finite hb] at hy
    simp at hy
  have hvalue : x.value / y.value = signedValue (na ^^ nb) (unitsQuotient (a * unitsPerOne) b) := by
    have hb0' : (b : ℚ) ≠ 0 := Nat.cast_ne_zero.2 hb0
    rw [value_of_finite ha, value_of_finite hb, ← signedValue_xor_div, unitsQuotient, Nat.cast_mul, cast_unitsPerOne]
    field_simp
  rw [hvalue, fdiv_of_finite ha hb hb0]
  exact roundsTo_roundToF64 _ _ (Nat.pos_of_ne_zero hb0)

end Sys2Proof.Machine
end

section
/-! PROOFS. Where the arithmetic is exact or fixed by rule: zeros (O14), NaN (O15), rounding to an integer (O16) and
integer arithmetic (O17). -/

namespace Sys2Proof.Machine

/-! ### Results that need no rounding -/

/-- The rational is the value of some finite `f64`. -/
def Representable (q : ℚ) : Prop := ∃ z : FVal, z.IsFinite ∧ z.value = q

theorem representable_signedValue (neg : Bool) {m : Nat} (h : m < infMagnitude) :
    Representable (signedValue neg (magnitudeValue m)) := ⟨_, isFinite_withSign neg h, value_withSign neg h⟩

theorem representable_zero : Representable 0 := by
  simpa using representable_signedValue false (m := 0) (by decide)

theorem Representable.signedValue {x : ℚ} (h : Representable x) (neg : Bool) : Representable (signedValue neg x) := by
  cases neg with
  | false => exact h
  | true =>
    obtain ⟨z, hz, rfl⟩ := h
    exact ⟨fneg z, isFinite_fneg hz, value_fneg hz⟩

theorem abs_value_lt {x : FVal} (h : x.IsFinite) : |x.value| < overflowBound := by
  obtain ⟨neg, m, hm, rfl⟩ := exists_withSign h
  rw [value_withSign neg hm, abs_signedValue, abs_of_nonneg (magnitudeValue_nonneg m)]
  exact magnitudeValue_lt hm

/-- Below the bound of R105 a rounded result is finite. -/
theorem isFinite_of_roundsTo {q : ℚ} {r : FVal} (h : RoundsTo q r) (hq : |q| < overflowBound) : r.IsFinite := by
  unfold RoundsTo at h
  rw [← overflowBound_eq, if_pos hq] at h
  exact h.1

/-- From the bound of R105 on it is an infinity. -/
theorem eq_infBits_of_roundsTo {q : ℚ} {r : FVal} (h : RoundsTo q r) (hq : overflowBound ≤ |q|) :
    r = .bits (infBits (decide (q < 0))) := by
  unfold RoundsTo at h
  rwa [← overflowBound_eq, if_neg (not_lt.2 hq)] at h

/-- A representable result is not changed by rounding. -/
theorem Representable.exact {q : ℚ} {r : FVal} (hq : Representable q) (h : RoundsTo q r) :
    r.IsFinite ∧ r.value = q := by
  obtain ⟨z, hz, rfl⟩ := hq
  unfold RoundsTo at h
  rw [← overflowBound_eq, if_pos (abs_value_lt hz)] at h
  obtain ⟨hr, hnear, -⟩ := h
  have hdist := hnear z hz
  rw [sub_self, abs_zero] at hdist
  exact ⟨hr, (sub_eq_zero.1 (abs_nonpos_iff.1 hdist)).symm⟩

/-- A quotient that is a magnitude's number of units is rounded to that magnitude. -/
theorem roundToF64_of_exact (neg : Bool) {num den m : Nat} (hden : 0 < den) (hm : m < infMagnitude)
    (h : num = magnitudeUnits m * den) : roundToF64 neg num den = .bits (withSign neg m) := by
  have hq : unitsQuotient num den = magnitudeValue m := by
    rw [unitsQuotient, magnitudeValue, h, Nat.cast_mul, mul_div_cancel_right₀ _ (Nat.cast_ne_zero.2 hden.ne')]
  have hr : uncappedMagnitude num den = m := by
    obtain ⟨hle, -⟩ := isNearestEven_uncappedMagnitude num hden m
    rw [hq, sub_self, abs_zero] at hle
    exact (magnitudeValue_strictMono.injective (sub_eq_zero.1 (abs_nonpos_iff.1 hle))).symm
  rw [roundToF64_of_lt neg (by rw [hr]; exact hm), hr]

theorem magnitudeUnits_zero : magnitudeUnits 0 = 0 := magnitudeUnits_of_le (Nat.zero_le _)

/-- An exact zero is a zero of the sign given. -/
theorem roundToF64_zero (neg : Bool) {den : Nat} (hden : 0 < den) : roundToF64 neg 0 den = .bits (withSign neg 0) :=
  roundToF64_of_exact neg hden (by decide) (by rw [magnitudeUnits_zero, Nat.zero_mul])

/-! ### Zeros (O14) -/

theorem plusZero_eq : plusZero = .bits (withSign false 0) := rfl

theorem addFinite_opposite (neg : Bool) (u : Nat) : addFinite neg u (!neg) u = plusZero := by
  have hsum : signedUnits neg u + signedUnits (!neg) u = 0 := by cases neg <;> simp [signedUnits]
  have hsign : (neg && !neg) = false := by cases neg <;> rfl
  simp only [addFinite, hsum, if_true, hsign]
  exact roundToF64_zero false one_pos

theorem unpack_withSign_zero (neg : Bool) : unpack (.bits (withSign neg 0)) = .finite neg 0 := by
  rw [unpack_withSign neg (by decide), magnitudeUnits_zero]

theorem fsub_self {x : FVal} (h : x.IsFinite) : fsub x x = plusZero := by
  obtain ⟨neg, u, hu⟩ := h
  have hn : unpack (fneg x) = .finite (!neg) u := by rw [unpack_fneg, hu]
  rw [fsub, fadd_of_finite hu hn, addFinite_opposite]

theorem fadd_zeros (a b : Bool) :
    fadd (.bits (withSign a 0)) (.bits (withSign b 0)) = .bits (withSign (a && b) 0) := by
  have hsum : signedUnits a 0 + signedUnits b 0 = 0 := by cases a <;> cases b <;> rfl
  rw [fadd_of_finite (unpack_withSign_zero a) (unpack_withSign_zero b)]
  simp only [addFinite, hsum, if_true]
  exact roundToF64_zero _ one_pos

theorem fmul_of_zero {x y : FVal} {a b : Bool} {u v : Nat} (hx : unpack x = .finite a u) (hy : unpack y = .finite b v)
    (h : u = 0 ∨ v = 0) : fmul x y = .bits (withSign (a ^^ b) 0) := by
  rw [fmul_of_finite hx hy, Nat.mul_eq_zero.2 h]
  exact roundToF64_zero _ unitsPerOne_pos

/-- Settles O14. -/
theorem signedZeroRules : Obligations.SignedZeroRules := by
  refine ⟨fun _ => fsub_self, fadd_zeros, fun _ _ _ _ _ _ => fmul_of_zero, by decide, ?_⟩
  rw [value_withSign true (by decide), value_withSign false (by decide), magnitudeValue_zero, signedValue_zero,
    signedValue_zero]

/-! ### NaN and invalid operations (O15) -/

theorem unpack_fneg_of_nan {x : FVal} (h : unpack x = .nan) : unpack (fneg x) = .nan := by rw [unpack_fneg, h]

theorem fdiv_of_nan_left {x : FVal} (y : FVal) (h : unpack x = .nan) : fdiv x y = .nanResult := by
  unfold fdiv; rw [h]

theorem fdiv_of_nan_right (x : FVal) {y : FVal} (h : unpack y = .nan) : fdiv x y = .nanResult := by
  unfold fdiv; rw [h]; cases unpack x <;> rfl

theorem fadd_of_opposite_infinities {x y : FVal} {a : Bool} (hx : unpack x = .inf a) (hy : unpack y = .inf (!a)) :
    fadd x y = .nanResult := by
  unfold fadd; rw [hx, hy]; exact if_neg (by cases a <;> decide)

theorem fsub_of_equal_infinities {x y : FVal} {a : Bool} (hx : unpack x = .inf a) (hy : unpack y = .inf a) :
    fsub x y = .nanResult :=
  fadd_of_opposite_infinities hx (by rw [unpack_fneg, hy])

theorem fmul_of_zero_of_inf {x y : FVal} {a b : Bool} (hx : unpack x = .finite a 0) (hy : unpack y = .inf b) :
    fmul x y = .nanResult := by
  unfold fmul; rw [hx, hy]; exact if_pos rfl

theorem nan_of_nan_operand {x y : FVal} (h : x.IsNaN ∨ y.IsNaN) :
    fadd x y = .nanResult ∧ fsub x y = .nanResult ∧ fmul x y = .nanResult ∧ fdiv x y = .nanResult := by
  rcases h with h | h
  · exact ⟨fadd_of_nan_left _ h, fadd_of_nan_left _ h, fmul_of_nan_left _ h, fdiv_of_nan_left _ h⟩
  · exact ⟨fadd_of_nan_right _ h, fadd_of_nan_right _ (unpack_fneg_of_nan h), fmul_of_nan_right _ h,
      fdiv_of_nan_right _ h⟩

/-- Settles O15. -/
theorem naNRules : Obligations.NaNRules :=
  ⟨fun _ _ => nan_of_nan_operand, fun _ _ _ => fsub_of_equal_infinities, fun _ _ _ => fadd_of_opposite_infinities,
    fun x y _ _ hx hy => ⟨fmul_of_zero_of_inf hx hy, by rw [fmul_comm]; exact fmul_of_zero_of_inf hx hy⟩,
    fun k => isNaNBits_nanDraw block k⟩

/-! ### Integers as `f64` -/

/-- Twice a magnitude is a magnitude: a shift below the normal range, the next exponent in it. -/
theorem exists_magnitudeUnits_double (m : Nat) : ∃ m', magnitudeUnits m' = magnitudeUnits m * 2 := by
  rcases Nat.lt_or_ge m (2 ^ 52) with h | h
  · exact ⟨m * 2, by rw [magnitudeUnits_of_le (by omega), magnitudeUnits_of_le (by omega)]⟩
  · exact ⟨1 * 2 ^ 52 + m, magnitudeUnits_add 1 h⟩

theorem exists_magnitudeUnits {n : Nat} (hn : n ≤ 2 ^ 53) (t : Nat) : ∃ m, magnitudeUnits m = n * 2 ^ t := by
  induction t with
  | zero => exact ⟨n, by rw [magnitudeUnits_of_le hn, pow_zero, mul_one]⟩
  | succ t ih =>
    obtain ⟨m, hm⟩ := ih
    obtain ⟨m', hm'⟩ := exists_magnitudeUnits_double m
    exact ⟨m', by rw [hm', hm, pow_succ, mul_assoc]⟩

theorem magnitudeValue_inf : magnitudeValue infMagnitude = 2 ^ 1024 := by
  have hinf : infMagnitude = 2046 * 2 ^ 52 + 2 ^ 52 := by decide
  rw [magnitudeValue, hinf, magnitudeUnits_significand (by decide) (by decide), ← pow_add, Nat.cast_pow, Nat.cast_ofNat,
    div_eq_iff (pow_ne_zero _ two_ne_zero), ← pow_add]

/-- A number `n * 2^t` in range with `n` of at most 53 bits is representable. -/
theorem representable_natCast_mul_two_pow {n : Nat} (hn : n ≤ 2 ^ 53) {t : Nat} (ht : (n : ℚ) * 2 ^ t < 2 ^ 1024) :
    Representable (n * 2 ^ t) := by
  obtain ⟨m, hm⟩ := exists_magnitudeUnits hn (t + 1074)
  have hvalue : magnitudeValue m = n * 2 ^ t := by
    rw [magnitudeValue, hm, Nat.cast_mul, Nat.cast_pow, Nat.cast_ofNat, pow_add, ← mul_assoc,
      mul_div_cancel_right₀ _ (pow_ne_zero _ two_ne_zero)]
  have hlt : m < infMagnitude := magnitudeValue_strictMono.lt_iff_lt.1 (by rwa [hvalue, magnitudeValue_inf])
  exact hvalue ▸ representable_signedValue false hlt

theorem signedValue_natAbs (n : Int) : signedValue (decide (n < 0)) n.natAbs = n := by
  rw [Nat.cast_natAbs]
  by_cases h : n < 0
  · rw [decide_eq_true h, signedValue_true, abs_of_neg h, Int.cast_neg, neg_neg]
  · rw [decide_eq_false h, signedValue_false, abs_of_nonneg (not_lt.1 h)]

theorem representable_intCast {n : Int} (h : |n| ≤ 2 ^ 53) : Representable n := by
  have hn : n.natAbs ≤ 2 ^ 53 := by rw [Int.abs_eq_natAbs] at h; omega
  have hlt : (n.natAbs : ℚ) * 2 ^ 0 < 2 ^ 1024 := by
    calc (n.natAbs : ℚ) * 2 ^ 0 ≤ 2 ^ 53 := by rw [pow_zero, mul_one]; exact_mod_cast hn
      _ < 2 ^ 1024 := pow_lt_pow_right₀ one_lt_two (by decide)
  have habs := representable_natCast_mul_two_pow hn hlt
  rw [pow_zero, mul_one] at habs
  exact signedValue_natAbs n ▸ habs.signedValue _

theorem representable_two_pow {k : Nat} (h : k ≤ 1023) : Representable (2 ^ k) := by
  have hlt : ((1 : Nat) : ℚ) * 2 ^ k < 2 ^ 1024 := by
    rw [Nat.cast_one, one_mul]; exact pow_lt_pow_right₀ one_lt_two (by omega)
  simpa using representable_natCast_mul_two_pow (by decide) hlt

theorem roundsTo_i2f (n : Int) : RoundsTo n (i2f n) := by
  have hvalue : signedValue (decide (n < 0)) (unitsQuotient (n.natAbs * unitsPerOne) 1) = n := by
    rw [unitsQuotient, Nat.cast_mul, cast_unitsPerOne, Nat.cast_one, div_one,
      mul_div_cancel_right₀ _ (pow_ne_zero _ two_ne_zero), signedValue_natAbs]
  have h := roundsTo_roundToF64 (decide (n < 0)) (n.natAbs * unitsPerOne) one_pos
  rwa [hvalue] at h

theorem value_i2f {n : Int} (h : |n| ≤ 2 ^ 53) : (i2f n).IsFinite ∧ (i2f n).value = n :=
  (representable_intCast h).exact (roundsTo_i2f n)

theorem value_i2f_two_pow {k : Nat} (h : k ≤ 1023) : (i2f (2 ^ k)).IsFinite ∧ (i2f (2 ^ k)).value = 2 ^ k := by
  have hr := roundsTo_i2f (2 ^ k)
  rw [Int.cast_pow, Int.cast_ofNat] at hr
  exact (representable_two_pow h).exact hr

theorem i2f_zero : i2f 0 = plusZero := by
  rw [i2f, Int.natAbs_zero, Nat.zero_mul]
  exact roundToF64_zero false one_pos

/-! ### Rounding to an integer (O16) -/

theorem floorHalfUp_eq {x : FVal} {neg : Bool} {u : Nat} (h : unpack x = .finite neg u) :
    floorHalfUp neg u = ⌊x.value + 1 / 2⌋ := by
  have hpow : (2 : ℚ) ^ 1074 ≠ 0 := pow_ne_zero _ two_ne_zero
  have hvalue : x.value + 1 / 2 =
      ((2 * signedUnits neg u + unitsPerOne : Int) : ℚ) / ((2 * unitsPerOne : Nat) : ℚ) := by
    rw [value_of_finite h, signedValue_div, ← cast_signedUnits]
    push_cast
    rw [cast_unitsPerOne]
    generalize (2 : ℚ) ^ 1074 = p at hpow
    field_simp
  rw [hvalue, Rat.floor_intCast_div_natCast, floorHalfUp, Nat.cast_mul, Nat.cast_ofNat]

theorem fround_of_finite {x : FVal} (h : x.IsFinite) : fround x = i2f ⌊x.value + 1 / 2⌋ := by
  obtain ⟨neg, u, hu⟩ := h
  unfold fround
  rw [hu]
  exact congrArg i2f (floorHalfUp_eq hu)

theorem roundInt_of_finite {x : FVal} (h : x.IsFinite) : roundInt x = some ⌊x.value + 1 / 2⌋ := by
  obtain ⟨neg, u, hu⟩ := h
  unfold roundInt
  rw [hu]
  exact congrArg some (floorHalfUp_eq hu)

theorem magnitudeValue_two_pow (t : Nat) : magnitudeValue (t * 2 ^ 52 + 2 ^ 52) = 2 ^ t / 2 ^ 1022 := by
  have hpow : (2 : ℚ) ^ 1074 = 2 ^ 52 * 2 ^ 1022 := by rw [← pow_add]
  rw [magnitudeValue_add t le_rfl, magnitudeValue, magnitudeUnits_of_le (by decide), hpow, Nat.cast_pow, Nat.cast_ofNat,
    ← div_div, div_self (pow_ne_zero _ two_ne_zero), div_mul_eq_mul_div, one_mul]

/-- A magnitude of `2^(t - 1022)` or more is `2^t` times a normal one. -/
theorem exists_normal_of_le {m t : Nat} (h : 2 ^ t / 2 ^ 1022 ≤ magnitudeValue m) :
    ∃ n, 2 ^ 52 ≤ n ∧ m = t * 2 ^ 52 + n := by
  rw [← magnitudeValue_two_pow, magnitudeValue_strictMono.le_iff_le] at h
  exact ⟨m - t * 2 ^ 52, by omega, by omega⟩

/-- From `2^52` on every `f64` is an integer, and `i2f` gives it back, bit for bit. -/
theorem eq_i2f_of_large {x : FVal} (h : x.IsFinite) (hx : 2 ^ 52 ≤ |x.value|) : ∃ n : Int, x.value = n ∧ i2f n = x := by
  obtain ⟨neg, m, hm, rfl⟩ := exists_withSign h
  rw [value_withSign neg hm, abs_signedValue, abs_of_nonneg (magnitudeValue_nonneg m)] at hx
  have hpow : (2 : ℚ) ^ 52 = 2 ^ 1074 / 2 ^ 1022 := by
    rw [eq_div_iff (pow_ne_zero _ two_ne_zero), ← pow_add]
  obtain ⟨n, hn, hmn⟩ := exists_normal_of_le (hpow ▸ hx)
  have hunits : magnitudeUnits m = magnitudeUnits n * unitsPerOne := by
    rw [hmn, magnitudeUnits_add 1074 hn, unitsPerOne]
  have hvalue : magnitudeValue m = magnitudeUnits n := by
    rw [magnitudeValue, hunits, Nat.cast_mul, cast_unitsPerOne, mul_div_cancel_right₀ _ (pow_ne_zero _ two_ne_zero)]
  have hpos : 0 < magnitudeUnits n := magnitudeUnits_zero ▸ magnitudeUnits_strictMono (by omega)
  have hneg : decide (signedUnits neg (magnitudeUnits n) < 0) = neg := by cases neg <;> simp [signedUnits]; omega
  have habs : (signedUnits neg (magnitudeUnits n)).natAbs = magnitudeUnits n := by cases neg <;> simp [signedUnits]
  refine ⟨signedUnits neg (magnitudeUnits n), by rw [value_withSign neg hm, hvalue, cast_signedUnits], ?_⟩
  rw [i2f, hneg, habs]
  exact roundToF64_of_exact neg one_pos hm (by rw [hunits, mul_one])

theorem isRounded_fround_of_finite {x : FVal} (h : x.IsFinite) :
    (fround x).IsFinite ∧ (fround x).value = ⌊x.value + 1 / 2⌋ ∧ (⌊x.value + 1 / 2⌋ = 0 → fround x = plusZero) ∧
      (2 ^ 52 ≤ |x.value| → fround x = x) := by
  rw [fround_of_finite h]
  rcases le_or_gt (2 ^ 52) |x.value| with hlarge | hsmall
  · obtain ⟨n, hn, hx⟩ := eq_i2f_of_large h hlarge
    have hfloor : ⌊x.value + 1 / 2⌋ = n := by rw [hn, Int.floor_eq_iff]; constructor <;> linarith
    rw [hfloor, hx]
    exact ⟨h, hn, fun hn0 => by rw [← hx, hn0, i2f_zero], fun _ => rfl⟩
  · have hfloor : |⌊x.value + 1 / 2⌋| ≤ 2 ^ 53 := by
      obtain ⟨hl, hr⟩ := abs_lt.1 hsmall
      have h1 : -2 ^ 53 ≤ ⌊x.value + 1 / 2⌋ := Int.le_floor.2 (by push_cast; linarith)
      have h2 : ⌊x.value + 1 / 2⌋ < 2 ^ 53 := Int.floor_lt.2 (by push_cast; linarith)
      exact abs_le.2 ⟨h1, h2.le⟩
    obtain ⟨hfin, hval⟩ := value_i2f hfloor
    exact ⟨hfin, hval, fun h0 => by rw [h0, i2f_zero], fun hle => absurd hsmall (not_lt.2 hle)⟩

theorem fround_of_nan {x : FVal} (h : unpack x = .nan) : fround x = .nanResult := by unfold fround; rw [h]

theorem isRounded_fround (x : FVal) : IsRounded x (fround x) := by
  refine ⟨isRounded_fround_of_finite, fround_of_nan, fun neg h => ?_⟩
  rw [eq_infBits_of_unpack h, fround, unpack_bits, unpackBits_infBits]

theorem roundInt_of_not_finite {x : FVal} (h : ¬ x.IsFinite) : roundInt x = none := by
  unfold roundInt
  split
  · rfl
  · rfl
  · exact absurd ⟨_, _, ‹_›⟩ h

/-- Settles O16. -/
theorem roundIsFloorHalfUp : Obligations.RoundIsFloorHalfUp :=
  fun x => ⟨isRounded_fround x, roundInt_of_finite, roundInt_of_not_finite⟩

/-! ### Exact arithmetic (O17) -/

theorem unpack_i2f_one : unpack (i2f 1) = .finite false unitsPerOne := by decide +kernel

/-- Multiplication by one gives the operand back, bit for bit. -/
theorem fmul_one_left {x : FVal} (h : x.IsFinite) : fmul (i2f 1) x = x := by
  obtain ⟨neg, m, hm, rfl⟩ := exists_withSign h
  rw [fmul_of_finite unpack_i2f_one (unpack_withSign neg hm), Bool.false_xor]
  exact roundToF64_of_exact neg unitsPerOne_pos hm (mul_comm _ _)

/-- A value that stays in the normal range, or is zero, can be divided by `2^k` exactly. -/
theorem representable_div_two_pow {x : FVal} (h : x.IsFinite) {k : Nat}
    (hk : x.value = 0 ∨ 1 / 2 ^ 1022 ≤ |x.value| / 2 ^ k) : Representable (x.value / 2 ^ k) := by
  rcases hk with h0 | hk
  · rw [h0, zero_div]; exact representable_zero
  obtain ⟨neg, m, hm, rfl⟩ := exists_withSign h
  rw [value_withSign neg hm, abs_signedValue, abs_of_nonneg (magnitudeValue_nonneg m), le_div_iff₀ (by positivity),
    one_div_mul_eq_div] at hk
  obtain ⟨n, hn, hmn⟩ := exists_normal_of_le hk
  have hvalue : magnitudeValue m / 2 ^ k = magnitudeValue n := by
    rw [hmn, magnitudeValue_add k hn, mul_div_cancel_right₀ _ (pow_ne_zero _ two_ne_zero)]
  rw [value_withSign neg hm, ← signedValue_div, hvalue]
  exact representable_signedValue neg (by omega)

theorem fdiv_two_pow {x : FVal} (h : x.IsFinite) {k : Nat} (hk : k ≤ 1023)
    (hx : x.value = 0 ∨ 1 / 2 ^ 1022 ≤ |x.value| / 2 ^ k) :
    (fdiv x (i2f (2 ^ k))).IsFinite ∧ (fdiv x (i2f (2 ^ k))).value = x.value / 2 ^ k := by
  obtain ⟨hfin, hval⟩ := value_i2f_two_pow hk
  have hround := quotientIsCorrectlyRounded x _ h hfin (by rw [hval]; exact pow_ne_zero _ two_ne_zero)
  rw [hval] at hround
  exact (representable_div_two_pow h hx).exact hround

/-- Settles O17: an exact result that is representable is not changed by rounding. -/
theorem integerArithmeticIsExact : Obligations.IntegerArithmeticIsExact := by
  refine ⟨fun x y m n hx hy hm hn => ⟨fun h => ?_, fun h => ?_, fun h => ?_⟩,
    fun x hx => ⟨fmul_one_left hx, fun k hk => fdiv_two_pow hx hk⟩⟩
  · rw [← Int.cast_add]
    exact (representable_intCast h).exact (by rw [Int.cast_add, ← hm, ← hn]; exact roundsTo_fadd hx hy)
  · rw [← Int.cast_sub]
    exact (representable_intCast h).exact (by rw [Int.cast_sub, ← hm, ← hn]; exact roundsTo_fsub hx hy)
  · rw [← Int.cast_mul]
    exact (representable_intCast h).exact
      (by rw [Int.cast_mul, ← hm, ← hn]; exact productIsCorrectlyRounded x y hx hy)

end Sys2Proof.Machine
end

section
/-! PROOFS. The scalar commands: `CADD` (O6), `CSUB` (O7), `CMUL` (O8), `CRND` (O9), and that none of them fails
(O10). -/

namespace Sys2Proof.Machine

/-- What every scalar command does with the value it computes (R110). -/
theorem finishScalar_effect (p : Params) (z : Cplx FVal) (s : State) :
    ∃ t, finishScalar p z s = .next t ∧ z.Agrees t.cr ∧ t.status = 0#32 ∧ OnlyScalarResultChanged s t :=
  ⟨_, rfl, ⟨agrees_drawNaN p _ z.re, agrees_drawNaN p _ z.im⟩, rfl, rfl⟩

/-- Settles O6. -/
theorem caddWritesSum : Obligations.CaddWritesSum :=
  ⟨decode_encode .cadd, fun s => finishScalar_effect block (cplxAdd (liftComplex s.ca) (liftComplex s.cb)) s⟩

/-- Settles O7. -/
theorem csubWritesDifference : Obligations.CsubWritesDifference :=
  ⟨decode_encode .csub, fun s => finishScalar_effect block (cplxSub (liftComplex s.ca) (liftComplex s.cb)) s⟩

theorem cplxMul_comm (a b : Cplx FVal) : cplxMul a b = cplxMul b a := by
  unfold cplxMul
  rw [fmul_comm a.re b.re, fmul_comm a.im b.im, fmul_comm a.re b.im, fmul_comm a.im b.re, fadd_comm]

/-- Settles O8. -/
theorem cmulWritesProduct : Obligations.CmulWritesProduct :=
  ⟨decode_encode .cmul, fun s => finishScalar_effect block (cplxMul (liftComplex s.ca) (liftComplex s.cb)) s,
    cplxMul_comm⟩

/-- Settles O9: the rounded fields are `fround` of the fields of `CA`. -/
theorem crndWritesRounded : Obligations.CrndWritesRounded := by
  refine ⟨decode_encode .crnd, fun s => ?_⟩
  obtain ⟨t, hexec, hrest⟩ := finishScalar_effect block (cplxRound (liftComplex s.ca)) s
  exact ⟨t, _, _, hexec, isRounded_fround _, isRounded_fround _, hrest⟩

/-- A scalar command computes one value from `CA` and `CB` alone. -/
theorem exec_scalar {i : Instr} (hi : i ∈ [Instr.cadd, .csub, .cmul, .crnd]) :
    ∃ f : Cplx F64 → Cplx F64 → Cplx FVal, ∀ s, exec i s = finishScalar block (f s.ca s.cb) s := by
  fin_cases hi
  · exact ⟨fun a b => cplxAdd (liftComplex a) (liftComplex b), fun _ => rfl⟩
  · exact ⟨fun a b => cplxSub (liftComplex a) (liftComplex b), fun _ => rfl⟩
  · exact ⟨fun a b => cplxMul (liftComplex a) (liftComplex b), fun _ => rfl⟩
  · exact ⟨fun a _ => cplxRound (liftComplex a), fun _ => rfl⟩

theorem cr_of_finishScalar {p : Params} {z : Cplx FVal} {s t : State} (h : finishScalar p z s = .next t) :
    t.cr = ⟨(drawNaN p s.draws z.re).1, (drawNaN p (drawNaN p s.draws z.re).2 z.im).1⟩ := by
  cases h; rfl

/-- Settles O10. -/
theorem scalarCommandsNeverFail : Obligations.ScalarCommandsNeverFail := by
  intro i hi s
  obtain ⟨f, hf⟩ := exec_scalar hi
  constructor
  · obtain ⟨t, hexec, -, hrest⟩ := finishScalar_effect block (f s.ca s.cb) s
    exact ⟨t, (hf s).trans hexec, hrest⟩
  · intro s' t t' hca hcb hdraws ht ht'
    rw [hf] at ht ht'
    rw [cr_of_finishScalar ht, cr_of_finishScalar ht', hca, hcb, hdraws]

end Sys2Proof.Machine
end

section
/-! PROOFS. The twiddle tables of a stage (O18). -/

namespace Sys2Proof.Machine

/-! ### `COS` and `SIN` at the zeros -/

theorem trig_cos_withSign_zero (p : Params) (neg : Bool) : p.trig.cos (withSign neg 0) = 0x3FF0000000000000#64 :=
  if_pos (by cases neg <;> decide)

theorem trig_sin_withSign_zero (p : Params) (neg : Bool) : p.trig.sin (withSign neg 0) = withSign neg 0 :=
  if_pos (by cases neg <;> decide)

/-! ### A table -/

/-- The indices of a table are natural numbers, read as integers by `i2f`. -/
theorem twiddleTable_eq (trig : Trig) (theta : FVal) (cnt : Nat) :
    twiddleTable trig theta cnt = (List.range cnt).map fun j : Nat =>
      ⟨applyTrig trig.cos (fmul theta (i2f j)), applyTrig trig.sin (fmul theta (i2f j))⟩ := by
  simp [twiddleTable, ← List.map_eq_flatMap]

@[simp] theorem length_twiddleTable (trig : Trig) (theta : FVal) (cnt : Nat) :
    (twiddleTable trig theta cnt).length = cnt := by simp [twiddleTable_eq]

theorem getElem?_twiddleTable (trig : Trig) {theta : FVal} {cnt j : Nat} {ang : F64} (hj : j < cnt)
    (h : fmul theta (i2f j) = .bits ang) :
    (twiddleTable trig theta cnt)[j]? = some ⟨.bits (trig.cos ang), .bits (trig.sin ang)⟩ := by
  simp [twiddleTable_eq, hj, h, applyTrig]

/-- Entry 0 of a table at a finite angle is 1.0 and a zero with the angle's sign. -/
theorem getElem?_twiddleTable_zero (p : Params) {theta : FVal} {neg : Bool} {u cnt : Nat}
    (htheta : unpack theta = .finite neg u) (hcnt : 0 < cnt) :
    (twiddleTable p.trig theta cnt)[0]? = some ⟨.bits 0x3FF0000000000000#64, .bits (withSign neg 0)⟩ := by
  have hzero : unpack (i2f (0 : Nat)) = .finite false 0 := by
    rw [Nat.cast_zero, i2f_zero, plusZero_eq]; exact unpack_withSign_zero false
  have hang : fmul theta (i2f (0 : Nat)) = .bits (withSign neg 0) := by
    rw [fmul_of_zero htheta hzero (.inr rfl), Bool.xor_false]
  rw [getElem?_twiddleTable p.trig hcnt hang, trig_cos_withSign_zero, trig_sin_withSign_zero]

/-! ### The angle of a stage -/

theorem unpack_roundToF64_of_isFinite {neg : Bool} {num den : Nat} (h : (roundToF64 neg num den).IsFinite) :
    ∃ u, unpack (roundToF64 neg num den) = .finite neg u := by
  obtain hu | ⟨-, hinf⟩ := unpack_roundToF64 neg num den
  · exact hu
  · obtain ⟨s, v, hv⟩ := h
    rw [hinf] at hv
    cases hv

theorem unpack_pi64 : ∃ u, unpack pi64 = .finite false u :=
  ⟨_, unpack_withSign false (m := 0x400921FB54442D18) (by decide)⟩

theorem i2f_two_pow_of_large {k : Nat} (h : 1024 ≤ k) : i2f (2 ^ k) = .bits (infBits false) := by
  have hpos : (0 : ℚ) < 2 ^ k := by positivity
  have hbound : overflowBound ≤ 2 ^ k := by
    calc overflowBound ≤ 2 ^ 1024 := sub_le_self _ (by positivity)
      _ ≤ 2 ^ k := pow_le_pow_right₀ one_le_two h
  have hround := roundsTo_i2f (2 ^ k)
  rw [Int.cast_pow, Int.cast_ofNat] at hround
  rw [eq_infBits_of_roundsTo hround (hbound.trans (le_abs_self _)), decide_eq_false hpos.not_gt]

theorem unpack_i2f_of_nonneg {n : Int} (hn : 0 ≤ n) (h : (i2f n).IsFinite) :
    ∃ u, unpack (i2f n) = .finite false u := by
  rw [i2f, decide_eq_false hn.not_gt] at h ⊢
  exact unpack_roundToF64_of_isFinite h

theorem fdiv_of_finite_of_inf {x y : FVal} {na b : Bool} {a : Nat} (hx : unpack x = .finite na a)
    (hy : unpack y = .inf b) : fdiv x y = .bits (withSign (na ^^ b) 0) := by
  unfold fdiv; rw [hx, hy]

/-- `PI64` over a power of two is finite and not negative: a zero where the power is too large for an `f64`. -/
theorem unpack_theta (k : Nat) : ∃ u, unpack (fdiv pi64 (i2f (2 ^ k))) = .finite false u := by
  obtain ⟨a, ha⟩ := unpack_pi64
  have hpi : pi64.IsFinite := ⟨_, _, ha⟩
  rcases Nat.lt_or_ge k 1024 with hk | hk
  · obtain ⟨hfin, hval⟩ := value_i2f_two_pow (Nat.le_of_lt_succ hk)
    have hne : (i2f (2 ^ k)).value ≠ 0 := by rw [hval]; positivity
    have hquot : (fdiv pi64 (i2f (2 ^ k))).IsFinite := by
      refine isFinite_of_roundsTo (quotientIsCorrectlyRounded _ _ hpi hfin hne) ?_
      rw [hval, abs_div, abs_of_pos (by positivity : (0 : ℚ) < 2 ^ k)]
      exact (div_le_self (abs_nonneg _) (one_le_pow₀ one_le_two)).trans_lt (abs_value_lt hpi)
    obtain ⟨b, hb⟩ := unpack_i2f_of_nonneg (by positivity) hfin
    have hb0 : b ≠ 0 := by
      rintro rfl
      simp [value_of_finite hb] at hne
    rw [fdiv_of_finite ha hb hb0] at hquot ⊢
    exact unpack_roundToF64_of_isFinite hquot
  · have hinf : unpack (i2f (2 ^ k)) = .inf false := by rw [i2f_two_pow_of_large hk]; exact unpackBits_infBits false
    exact ⟨0, by rw [fdiv_of_finite_of_inf ha hinf]; exact unpack_withSign_zero false⟩

theorem unpack_fneg_theta (k : Nat) : ∃ u, unpack (fneg (fdiv pi64 (i2f (2 ^ k)))) = .finite true u := by
  obtain ⟨u, hu⟩ := unpack_theta k
  exact ⟨u, by rw [unpack_fneg, hu]; rfl⟩

theorem exists_bits_of_isFinite {x : FVal} (h : x.IsFinite) : ∃ b, x = .bits b := by
  obtain ⟨neg, m, -, hx⟩ := exists_withSign h
  exact ⟨_, hx⟩

theorem exists_bits_fmul {x y : FVal} (hx : x.IsFinite) (hy : y.IsFinite) : ∃ b, fmul x y = .bits b := by
  obtain ⟨na, a, ha⟩ := hx
  obtain ⟨nb, b, hb⟩ := hy
  exact ⟨_, fmul_of_finite ha hb⟩

theorem isFinite_i2f {j k : Nat} (hj : j < 2 ^ k) (hk : k ≤ 1023) : (i2f j).IsFinite := by
  refine isFinite_of_roundsTo (roundsTo_i2f j) ?_
  obtain ⟨hfin, hval⟩ := value_i2f_two_pow hk
  have hlt : (j : ℚ) < 2 ^ k := by exact_mod_cast hj
  calc |((j : Int) : ℚ)| = j := by rw [Int.cast_natCast, Nat.abs_cast]
    _ < 2 ^ k := hlt
    _ ≤ |(i2f (2 ^ k)).value| := by rw [hval]; exact le_abs_self _
    _ < overflowBound := abs_value_lt hfin

theorem half_length_div {m s : Nat} (h : s < m) : 2 ^ m / 2 / 2 ^ s = 2 ^ (m - 1 - s) := by
  obtain ⟨d, rfl⟩ : ∃ d, m = d + s + 1 := ⟨m - 1 - s, by omega⟩
  rw [pow_succ, Nat.mul_div_cancel _ two_pos, pow_add, Nat.mul_div_cancel _ (Nat.two_pow_pos s)]
  congr 1
  omega

/-- Every entry of both tables of a stage, where the length of a table is an `f64`. -/
theorem twiddle_entries (trig : Trig) {k j : Nat} (hk : k ≤ 1023) (hj : j < 2 ^ k) : ∃ theta ang ang' : F64,
    fdiv pi64 (i2f (2 ^ k)) = .bits theta ∧ fmul (.bits theta) (i2f j) = .bits ang ∧
      (twiddleTable trig (fdiv pi64 (i2f (2 ^ k))) (2 ^ k))[j]? = some ⟨.bits (trig.cos ang), .bits (trig.sin ang)⟩ ∧
      fmul (.bits (theta ^^^ 0x8000000000000000#64)) (i2f j) = .bits ang' ∧
      (twiddleTable trig (fneg (fdiv pi64 (i2f (2 ^ k)))) (2 ^ k))[j]? =
        some ⟨.bits (trig.cos ang'), .bits (trig.sin ang')⟩ := by
  obtain ⟨u, hu⟩ := unpack_theta k
  have hfin : (fdiv pi64 (i2f (2 ^ k))).IsFinite := ⟨_, _, hu⟩
  have hjfin := isFinite_i2f hj hk
  obtain ⟨ang, hang⟩ := exists_bits_fmul hfin hjfin
  obtain ⟨ang', hang'⟩ := exists_bits_fmul (isFinite_fneg hfin) hjfin
  have hfwd := getElem?_twiddleTable trig hj hang
  have hinv := getElem?_twiddleTable trig hj hang'
  obtain ⟨theta, htheta⟩ := exists_bits_of_isFinite hfin
  rw [htheta] at hang hang' hfwd hinv ⊢
  exact ⟨theta, ang, ang', rfl, hang, hfwd, hang', hinv⟩

/-- Settles O18: the length of a table is a power of two, so its angle is finite. -/
theorem twiddlesOfEachStage : Obligations.TwiddlesOfEachStage := by
  intro p
  refine ⟨⟨trig_cos_withSign_zero p false, trig_cos_withSign_zero p true, trig_sin_withSign_zero p false,
    trig_sin_withSign_zero p true⟩, fun m s hs => ?_⟩
  dsimp only [fwdTable, invTable]
  rw [half_length_div hs, Nat.cast_pow, Nat.cast_ofNat]
  obtain ⟨u, hu⟩ := unpack_theta (m - 1 - s)
  obtain ⟨v, hv⟩ := unpack_fneg_theta (m - 1 - s)
  exact ⟨length_twiddleTable .., length_twiddleTable .., getElem?_twiddleTable_zero p hu (Nat.two_pow_pos _),
    getElem?_twiddleTable_zero p hv (Nat.two_pow_pos _), fun hm j hj => twiddle_entries p.trig (by omega) hj⟩

end Sys2Proof.Machine
end

section
/-! PROOFS. A stage of a transform engine: what each of its butterflies writes (O21), and that over exact complex
numbers the forward stages compute the Fourier transform (O22). -/

namespace Sys2Proof.Machine

/-! ### One stage -/

/-- The group size `2^s` gives the inverse butterflies the indices of forward stage `s` (R144). -/
theorem invIndex_two_pow (s : Nat) : invIndex (2 ^ s) = fwdIndex s := by
  funext k
  rw [invIndex, fwdIndex, Nat.shiftLeft_eq, Nat.shiftRight_eq_div_pow]

section

variable {α : Type} (bfly : α → α → α → α × α) (z : α) (idx : Nat → ButterflyIndex) (h : Nat) (tw prev : List α)

/-- What butterfly `k` of a stage computes from the twiddles `tw` and the buffer `prev`. -/
def stageButterfly (k : Nat) : α × α :=
  bfly (prev.getD (idx k).from0 z) (prev.getD (idx k).from1 z) (tw.getD (idx k).index z)

/-- The lower half of `next` holds the butterflies' first results, the upper half their second (R126). -/
theorem stagePass_eq : stagePass bfly z idx h tw prev =
    (List.range h).map (fun k => (stageButterfly bfly z idx tw prev k).1) ++
      (List.range h).map fun k => (stageButterfly bfly z idx tw prev k).2 := by
  simp only [stagePass, List.map_map]
  rfl

variable {h} {k : Nat} (hk : k < h)

include hk

theorem getElem?_stagePass_lower : (stagePass bfly z idx h tw prev)[k]? =
    some (stageButterfly bfly z idx tw prev k).1 := by
  rw [stagePass_eq, List.getElem?_append_left (by simpa using hk)]
  simp [hk]

theorem getElem?_stagePass_upper : (stagePass bfly z idx h tw prev)[k + h]? =
    some (stageButterfly bfly z idx tw prev k).2 := by
  rw [stagePass_eq, List.getElem?_append_right (by simp)]
  simp [hk]

end

/-- Settles O21: both engines' butterflies read by `fwdIndex`, and `butterfly` is R126 by definition. -/
theorem stageWritesButterflies : Obligations.StageWritesButterflies := by
  intro trig m s k prev a b w idx table hengine hk ha hb hw
  obtain rfl : idx = fwdIndex s := by
    rcases hengine with ⟨hidx, -⟩ | ⟨hidx, -⟩
    · exact hidx
    · exact hidx.trans (invIndex_two_pow s)
  have hbfly : stageButterfly butterfly zeroElement (fwdIndex s) table prev k = butterfly a b w := by
    rw [stageButterfly, fwdIndex_from0, fwdIndex_from1, fwdIndex_index]
    simp only [List.getD_eq_getElem?_getD, ha, hb, hw, Option.getD_some]
  refine ⟨?_, ?_⟩
  · rw [getElem?_stagePass_lower _ _ _ _ _ hk, hbfly]; rfl
  · rw [getElem?_stagePass_upper _ _ _ _ _ hk, hbfly]; rfl

/-! ### The radix-2 step of the Fourier sum -/

/-- The Fourier sum of length `2^d` at frequency `q`; `c` is `2πi` for the plus sign and `-2πi` for the minus sign. -/
noncomputable def fourierSum (c : ℂ) (d : Nat) (f : Nat → ℂ) (q : Nat) : ℂ :=
  ∑ u ∈ Finset.range (2 ^ d), f u * Complex.exp (c * q * u / 2 ^ d)

@[simp] theorem fourierSum_zero (c : ℂ) (f : Nat → ℂ) : fourierSum c 0 f 0 = f 0 := by simp [fourierSum]

theorem sum_range_two_mul (f : Nat → ℂ) (n : Nat) : ∑ i ∈ Finset.range (2 * n), f i =
    ∑ i ∈ Finset.range n, f (2 * i) + ∑ i ∈ Finset.range n, f (2 * i + 1) := by
  induction n with
  | zero => simp
  | succ n ih =>
    rw [Nat.mul_succ, Finset.sum_range_succ, Finset.sum_range_succ, ih, Finset.sum_range_succ, Finset.sum_range_succ]
    ring

/-- The sum of twice the length is made of the sums over the even and over the odd elements. -/
theorem fourierSum_succ (c : ℂ) (d : Nat) (f : Nat → ℂ) (q : Nat) : fourierSum c (d + 1) f q =
    fourierSum c d (fun u => f (2 * u)) q +
      Complex.exp (c * q / 2 ^ (d + 1)) * fourierSum c d (fun u => f (2 * u + 1)) q := by
  rw [fourierSum, pow_succ', sum_range_two_mul, fourierSum, fourierSum, Finset.mul_sum]
  congr 1
  · refine Finset.sum_congr rfl fun u _ => ?_
    congr 2
    push_cast
    field_simp
    ring
  · refine Finset.sum_congr rfl fun u _ => ?_
    rw [mul_left_comm, ← Complex.exp_add]
    congr 2
    push_cast
    field_simp
    ring

section

variable {c : ℂ} (hc : Complex.exp (c / 2) = -1)

include hc

/-- The sum is periodic in the frequency. -/
theorem fourierSum_add_length (d : Nat) (f : Nat → ℂ) (q : Nat) :
    fourierSum c d f (q + 2 ^ d) = fourierSum c d f q := by
  refine Finset.sum_congr rfl fun u _ => ?_
  have hperiod : Complex.exp (u * c) = 1 := by
    rw [Complex.exp_nat_mul, ← add_halves c, Complex.exp_add, hc]
    simp
  have hangle : c * (q + 2 ^ d : ℕ) * u / 2 ^ d = c * q * u / 2 ^ d + u * c := by
    push_cast
    field_simp
  rw [hangle, Complex.exp_add, hperiod, mul_one]

/-- Half a period on, the odd elements' part has the opposite sign. -/
theorem fourierSum_succ_add_half (d : Nat) (f : Nat → ℂ) (q : Nat) : fourierSum c (d + 1) f (q + 2 ^ d) =
    fourierSum c d (fun u => f (2 * u)) q -
      Complex.exp (c * q / 2 ^ (d + 1)) * fourierSum c d (fun u => f (2 * u + 1)) q := by
  have hangle : c * (q + 2 ^ d : ℕ) / 2 ^ (d + 1) = c * q / 2 ^ (d + 1) + c / 2 := by
    push_cast
    field_simp
    ring
  rw [fourierSum_succ, fourierSum_add_length hc, fourierSum_add_length hc, hangle, Complex.exp_add, hc]
  ring

end

/-! ### What the buffer holds between two stages

Before stage `s - 1` element `2^s * q + i` (`i < 2^s`) of the buffer is the Fourier sum at frequency `q` of the elements
`i, 2^s + i, 2 * 2^s + i, ...` of the input. -/

/-- Element `j` of the buffer between stage `s` and stage `s - 1` of a length-`2^(s + d)` transform of `f`. -/
noncomputable def partialSpectrumAt (c : ℂ) (f : Nat → ℂ) (s d j : Nat) : ℂ :=
  fourierSum c d (fun u => f (2 ^ s * u + j % 2 ^ s)) (j / 2 ^ s)

/-- The buffer between stage `s` and stage `s - 1`. -/
noncomputable def partialSpectrum (c : ℂ) (f : Nat → ℂ) (s d : Nat) : List ℂ :=
  (List.range (2 ^ (s + d))).map (partialSpectrumAt c f s d)

theorem partialSpectrumAt_mul_add (c : ℂ) (f : Nat → ℂ) {s i : Nat} (hi : i < 2 ^ s) (d q : Nat) :
    partialSpectrumAt c f s d (2 ^ s * q + i) = fourierSum c d (fun u => f (2 ^ s * u + i)) q := by
  obtain ⟨hdiv, hmod⟩ := (Nat.div_mod_unique (Nat.two_pow_pos s)).2 ⟨Nat.add_comm i (2 ^ s * q), hi⟩
  rw [partialSpectrumAt, hdiv, hmod]

theorem getD_partialSpectrum (c : ℂ) (f : Nat → ℂ) {s d j : Nat} (hj : j < 2 ^ (s + d)) :
    (partialSpectrum c f s d).getD j 0 = partialSpectrumAt c f s d j := by
  simp [partialSpectrum, List.getD_eq_getElem?_getD, hj]

/-- Before the first stage the buffer is the input. -/
theorem partialSpectrum_input (c : ℂ) {m : Nat} {z : List ℂ} (hz : z.length = 2 ^ m) :
    partialSpectrum c (fun t => z.getD t 0) m 0 = z := by
  refine List.ext_getElem (by simp [partialSpectrum, hz]) fun j hj hj' => ?_
  have hlt : j < 2 ^ m := by omega
  simp [partialSpectrum, partialSpectrumAt, Nat.mod_eq_of_lt hlt, Nat.div_eq_of_lt hlt, hj']

/-- After the last stage it is the whole transform, in natural order. -/
theorem partialSpectrum_output (c : ℂ) (f : Nat → ℂ) (m : Nat) :
    partialSpectrum c f 0 m = (List.range (2 ^ m)).map (fourierSum c m f) := by
  simp [partialSpectrum, partialSpectrumAt, Nat.mod_one]

/-- A table of stage `s` of a length-`2^(s + d + 1)` transform: entry `q` is `exp(c * q / 2^(d + 1))`. -/
def IsRootTable (c : ℂ) (d : Nat) (tw : List ℂ) : Prop :=
  ∀ q, q < 2 ^ d → tw.getD q 0 = Complex.exp (c * q / 2 ^ (d + 1))

section

variable {s d k : Nat} (hk : k < 2 ^ (s + d))

include hk

theorem div_lt_of_lt_two_pow_add : k / 2 ^ s < 2 ^ d := by
  rw [Nat.div_lt_iff_lt_mul (Nat.two_pow_pos s), ← pow_add, Nat.add_comm d]
  exact hk

/-- The element a butterfly of stage `s` reads, in the buffer that stage reads: the even elements' sum at `from0`, the
odd elements' at `from1`. -/
theorem getD_partialSpectrum_stageElement (c : ℂ) (f : Nat → ℂ) (b : Bool) :
    (partialSpectrum c f (s + 1) d).getD (stageElement s (k, b)) 0 =
      fourierSum c d (fun u => f (2 ^ s * (2 * u + b.toNat) + k % 2 ^ s)) (k / 2 ^ s) := by
  have hi : k % 2 ^ s < 2 ^ s := Nat.mod_lt _ (Nat.two_pow_pos s)
  have hoffset : 2 ^ s * b.toNat + k % 2 ^ s < 2 ^ (s + 1) := by
    rw [pow_succ']
    exact Nat.mul_add_lt_mul_of_lt_of_lt b.toNat_lt hi
  have hlt : stageElement s (k, b) < 2 ^ (s + 1 + d) :=
    stageElement_lt (by omega) (by rwa [Nat.add_right_comm, pow_succ, Nat.mul_div_cancel _ two_pos])
  have helement : stageElement s (k, b) = 2 ^ (s + 1) * (k / 2 ^ s) + (2 ^ s * b.toNat + k % 2 ^ s) := by
    rw [stageElement_eq]
    ring
  rw [getD_partialSpectrum c f hlt, helement, partialSpectrumAt_mul_add c f hoffset]
  congr 1
  funext u
  congr 1
  ring

/-- A butterfly of stage `s` computes the two sums of twice the length that its two elements are the halves of. -/
theorem stageButterfly_partialSpectrum {c : ℂ} (hc : Complex.exp (c / 2) = -1) (f : Nat → ℂ) {tw : List ℂ}
    (htw : IsRootTable c d tw) :
    stageButterfly exactButterfly 0 (fwdIndex s) tw (partialSpectrum c f (s + 1) d) k =
      (partialSpectrumAt c f s (d + 1) k, partialSpectrumAt c f s (d + 1) (2 ^ (s + d) + k)) := by
  have heven := getD_partialSpectrum_stageElement hk c f false
  have hodd := getD_partialSpectrum_stageElement hk c f true
  have hdiv : (2 ^ (s + d) + k) / 2 ^ s = k / 2 ^ s + 2 ^ d := by
    rw [pow_add, Nat.mul_add_div (Nat.two_pow_pos s), Nat.add_comm]
  have hmod : (2 ^ (s + d) + k) % 2 ^ s = k % 2 ^ s := by rw [pow_add, Nat.mul_add_mod]
  rw [partialSpectrumAt, partialSpectrumAt, hdiv, hmod, fourierSum_succ, fourierSum_succ_add_half hc,
    ← htw _ (div_lt_of_lt_two_pow_add hk)]
  rw [← fwdIndex_index] at heven hodd ⊢
  exact congrArg₂ (exactButterfly · · _) heven hodd

end

/-- A partial spectrum in the two halves that a stage writes. -/
theorem partialSpectrum_halves (c : ℂ) (f : Nat → ℂ) (s d : Nat) : partialSpectrum c f s (d + 1) =
    (List.range (2 ^ (s + d))).map (partialSpectrumAt c f s (d + 1)) ++
      (List.range (2 ^ (s + d))).map fun k => partialSpectrumAt c f s (d + 1) (2 ^ (s + d) + k) := by
  rw [partialSpectrum, ← Nat.add_assoc, pow_succ, Nat.mul_two, List.range_add, List.map_append, List.map_map]
  rfl

/-- Stage `s` takes the buffer from one partial spectrum to the next. -/
theorem stagePass_partialSpectrum {c : ℂ} (hc : Complex.exp (c / 2) = -1) (f : Nat → ℂ) {s d : Nat} {tw : List ℂ}
    (htw : IsRootTable c d tw) :
    stagePass exactButterfly 0 (fwdIndex s) (2 ^ (s + d)) tw (partialSpectrum c f (s + 1) d) =
      partialSpectrum c f s (d + 1) := by
  rw [stagePass_eq, partialSpectrum_halves]
  refine congrArg₂ (· ++ ·) (List.map_congr_left fun k hk => ?_) (List.map_congr_left fun k hk => ?_)
  · rw [stageButterfly_partialSpectrum (List.mem_range.1 hk) hc f htw]
  · rw [stageButterfly_partialSpectrum (List.mem_range.1 hk) hc f htw]

/-- The stages `s - 1 ... 0` finish the transform that the buffer holds in part. -/
theorem stagesFrom_partialSpectrum {c : ℂ} (hc : Complex.exp (c / 2) = -1) (f : Nat → ℂ) {table : Nat → List ℂ}
    {s d m : Nat} (hm : s + d = m) (htw : ∀ s d, s + d + 1 = m → IsRootTable c d (table s)) :
    stagesFrom (fun s => stagePass exactButterfly 0 (fwdIndex s) (2 ^ m / 2) (table s)) s (partialSpectrum c f s d) =
      partialSpectrum c f 0 m := by
  induction s generalizing d with
  | zero => rw [stagesFrom, ← hm, Nat.zero_add]
  | succ s ih =>
    have hhalf : 2 ^ m / 2 = 2 ^ (s + d) := by
      rw [← hm, Nat.add_right_comm, pow_succ, Nat.mul_div_cancel _ two_pos]
    rw [stagesFrom, hhalf, stagePass_partialSpectrum hc f (htw s d (by omega)), ← hhalf]
    exact ih (by omega)

/-- The schedule with tables of exact roots computes the Fourier sum with `c` in the exponent. -/
theorem fwdEngine_eq_fourierSum {c : ℂ} (hc : Complex.exp (c / 2) = -1) {table : Nat → List ℂ} {m : Nat} {z : List ℂ}
    (hz : z.length = 2 ^ m) (htw : ∀ s d, s + d + 1 = m → IsRootTable c d (table s)) :
    fwdEngine exactButterfly 0 table m z = (List.range (2 ^ m)).map (fourierSum c m fun t => z.getD t 0) := by
  have hstages := stagesFrom_partialSpectrum hc (fun t => z.getD t 0) (Nat.add_zero m) htw
  rw [partialSpectrum_input c hz, partialSpectrum_output] at hstages
  rw [fwdEngine, prev_runStages, DoubleBuffer.prev_start, hstages]

/-- Where a list of reals or complex numbers is expected, Lean maps the cast over `List.range n`; the function that
follows can take it over. -/
theorem map_castRange {α β : Type} [NatCast α] (g : α → β) (n : Nat) :
    List.map g (do let a ← List.range n; pure (a : α)) = (List.range n).map fun a : Nat => g a := by
  simp [← List.map_eq_flatMap]

/-- The exact forward table of stage `s` has the roots with the plus sign (R124). -/
theorem isRootTable_exactFwdTable {m s d : Nat} (hm : s + d + 1 = m) :
    IsRootTable (2 * Real.pi * Complex.I) d (exactFwdTable m s) := by
  intro q hq
  have hcnt : 2 ^ m / 2 / 2 ^ s = 2 ^ d := by
    rw [half_length_div (by omega)]
    congr 1
    omega
  have hentry : (exactFwdTable m s).getD q 0 = Complex.exp (Complex.I * (Real.pi * q / (2 ^ d : ℕ))) := by
    rw [exactFwdTable, hcnt, map_castRange]
    simp [List.getD_eq_getElem?_getD, hq]
  rw [hentry]
  congr 1
  push_cast
  field_simp
  ring

/-- Settles O22: with the plus sign `c = 2πi`, and half of it is a half turn. -/
theorem forwardEngineComputesDft : Obligations.ForwardEngineComputesDft := by
  intro m z hz
  have hc : Complex.exp (2 * Real.pi * Complex.I / 2) = -1 := by
    rw [mul_assoc, mul_div_cancel_left₀ _ two_ne_zero, Complex.exp_pi_mul_I]
  rw [fwdEngine_eq_fourierSum hc hz fun s d => isRootTable_exactFwdTable, map_castRange]
  rfl

end Sys2Proof.Machine
end

section
/-! PROOFS. `FFT`: a bad length is rejected (O25), a good one writes the transform (O26), and the lengths 1 and 2
(O27). -/

namespace Sys2Proof.Machine

/-! ### The two ends of the command -/

/-- The length check of a transform fails exactly for a length that is no power of two or exceeds the capacity
(R121, R141). -/
theorem lengthCheck_iff (p : Params) (n : Nat) :
    (!isPow2 n || decide (p.nMax < n)) = true ↔ (¬ ∃ k, n = 2 ^ k) ∨ p.nMax < n := by
  rw [Bool.or_eq_true, Bool.not_eq_true', decide_eq_true_eq, ← Bool.not_eq_true, isPow2_iff]

/-- Settles O25: the check comes before any element is read. -/
theorem fftRejectsBadLength : Obligations.FftRejectsBadLength := by
  intro s hbad
  calc exec .fft s = fftWith block s := rfl
    _ = raise .invalidLength s := if_pos ((lengthCheck_iff block s.naRe).2 hbad)
    _ = .next { s with status := 1#32 } := rfl

/-- What a transform does with the values it computes (R120, R140). -/
theorem finishTransform_effect (p : Params) (w : List (Cplx FVal)) (s : State) :
    ∃ t, finishTransform p w s = .next t ∧ Cells.HoldsComputed t.yRe (w.map Cplx.re) ∧
      Cells.HoldsComputed t.yIm (w.map Cplx.im) ∧ t.ny = w.length ∧ t.status = 0#32 ∧ OnlyPlaneResultChanged s t ∧
        ∀ j, w.length ≤ j → Cells.read t.yRe j = Cells.read s.yRe j ∧ Cells.read t.yIm j = Cells.read s.yIm j := by
  refine ⟨_, rfl, holdsComputed_writeFrom p s.yRe _ _, holdsComputed_writeFrom p s.yIm _ _, rfl, rfl, rfl,
    fun j hj => ⟨?_, ?_⟩⟩
  · exact Cells.read_writeFrom_above _ _ (by simpa using hj)
  · exact Cells.read_writeFrom_above _ _ (by simpa using hj)

/-- `FFT` of a legal length whose elements are written (R120). -/
theorem fftWith_of_holds {p : Params} {s : State} {m : Nat} {x : List F64} (hlen : s.naRe = 2 ^ m)
    (hcap : 2 ^ m ≤ p.nMax) (hx : x.length = 2 ^ m) (hheld : Cells.Holds s.xaRe x) :
    fftWith p s = finishTransform p (fwdTransform p.trig m (x.map widen)) s := by
  rw [fftWith, hlen, if_neg (lengthCheck_passes ⟨m, rfl⟩ hcap), Nat.log2_two_pow, ← hx]
  exact withPlane_of_holds (p := .xaRe) hheld _

/-- Settles O26: the checks pass, the transform keeps the length, and its two planes are stored. -/
theorem fftWritesTransform : Obligations.FftWritesTransform := by
  intro s m x hlen hcap hx hheld w
  have hw : w.length = 2 ^ m := length_fwdTransform _ _ _ (by rw [List.length_map, hx])
  obtain ⟨t, ht, hre, him, hny, hrest⟩ := finishTransform_effect block w s
  rw [hw] at hny hrest
  exact ⟨t, (fftWith_of_holds hlen hcap hx hheld).trans ht, hw, hre, him, hny, hrest⟩

/-! ### Lengths 1 and 2 (R130) -/

theorem Cells.holds_singleton {w : Nat} {c : Cells w} {v : BitVec w} (h : Cells.read c 0 = some v) :
    Cells.Holds c [v] := by
  intro j hj
  obtain rfl : j = 0 := by simpa using hj
  exact h

theorem Cells.holds_pair {w : Nat} {c : Cells w} {u v : BitVec w} (hu : Cells.read c 0 = some u)
    (hv : Cells.read c 1 = some v) : Cells.Holds c [u, v] := by
  intro j hj
  obtain rfl | rfl : j = 0 ∨ j = 1 := Nat.le_one_iff_eq_zero_or_eq_one.1 (Nat.le_of_lt_succ hj)
  · exact hu
  · exact hv

theorem i2f_one : i2f 1 = .bits 0x3FF0000000000000#64 := by decide +kernel

theorem unpack_plusZero : unpack plusZero = .finite false 0 := unpack_withSign_zero false

theorem fneg_plusZero : fneg plusZero = .bits (withSign true 0) := by decide

/-- Taking `+0.0` away gives the operand back, the sign of a zero included. -/
theorem fsub_plusZero {x : FVal} (h : x.IsFinite) : fsub x plusZero = x := by
  obtain ⟨neg, m, hm, rfl⟩ := exists_withSign h
  have hsum : signedUnits neg (magnitudeUnits m) + signedUnits true 0 = signedUnits neg (magnitudeUnits m) := by
    simp [signedUnits]
  have hsign : (if signedUnits neg (magnitudeUnits m) = 0 then neg && true
      else decide (signedUnits neg (magnitudeUnits m) < 0)) = neg := by
    cases neg <;> simp [signedUnits]
    omega
  have habs : (signedUnits neg (magnitudeUnits m)).natAbs = magnitudeUnits m * 1 := by
    cases neg <;> simp [signedUnits]
  rw [fsub, fneg_plusZero, fadd_of_finite (unpack_withSign neg hm) (unpack_withSign_zero true), addFinite, hsum,
    hsign]
  exact roundToF64_of_exact neg one_pos hm habs

/-- The twiddle one gives a widened finite element back, its imaginary part included. -/
theorem cplxMul_one_widen {y : F64} (hy : (FVal.bits y).IsFinite) : cplxMul ⟨i2f 1, plusZero⟩ (widen y) = widen y := by
  have ⟨neg, u, hu⟩ := hy
  have hzero : fmul plusZero plusZero = plusZero := fmul_of_zero unpack_plusZero unpack_plusZero (.inl rfl)
  have himag : fmul plusZero (.bits y) = .bits (withSign neg 0) := by
    rw [fmul_of_zero unpack_plusZero hu (.inl rfl), Bool.false_xor]
  rw [cplxMul, widen, fmul_one_left hy, fmul_one_left ⟨_, _, unpack_plusZero⟩, hzero, himag, fsub_plusZero hy,
    plusZero_eq, fadd_zeros, Bool.false_and]

/-- A butterfly with the twiddle one gives the sum and the difference of two widened finite elements (R130). -/
theorem butterfly_one_widen (x : F64) {y : F64} (hy : (FVal.bits y).IsFinite) :
    butterfly (widen x) (widen y) ⟨i2f 1, plusZero⟩ =
      (⟨fadd (.bits x) (.bits y), plusZero⟩, ⟨fsub (.bits x) (.bits y), plusZero⟩) := by
  have hadd : fadd plusZero plusZero = plusZero := fadd_zeros false false
  have hsub : fsub plusZero plusZero = plusZero := fsub_self ⟨_, _, unpack_plusZero⟩
  rw [butterfly, cplxMul_one_widen hy, cplxAdd, cplxSub, widen, widen, hadd, hsub]

theorem fwdTransform_zero (trig : Trig) (z : List (Cplx FVal)) : fwdTransform trig 0 z = z := rfl

/-- The transform of two elements is one butterfly, whose twiddle is one (R124, R130). -/
theorem fwdTransform_one (p : Params) (a b : Cplx FVal) : fwdTransform p.trig 1 [a, b] =
    [(butterfly a b ⟨i2f 1, plusZero⟩).1, (butterfly a b ⟨i2f 1, plusZero⟩).2] := by
  obtain ⟨-, htable⟩ := twiddlesOfEachStage p
  obtain ⟨-, -, hone, -⟩ := htable 1 0 one_pos
  have htwiddle : (fwdTable p.trig 1 0).getD 0 zeroElement = ⟨i2f 1, plusZero⟩ := by
    rw [List.getD_eq_getElem?_getD, hone, i2f_one]
    rfl
  have hbfly : stageButterfly butterfly zeroElement (fwdIndex 0) (fwdTable p.trig 1 0) [a, b] 0 =
      butterfly a b ⟨i2f 1, plusZero⟩ := congrArg (butterfly a b) htwiddle
  rw [← hbfly]
  rfl

/-- `FFT` of one element stores it as it is, with `+0.0` in the imaginary plane. -/
theorem fftWith_one {p : Params} {s : State} {x : F64} (hlen : s.naRe = 1) (hheld : Cells.Holds s.xaRe [x]) :
    fftWith p s = finishTransform p [widen x] s := by
  rw [fftWith_of_holds (m := 0) hlen (one_le_nMax p) rfl hheld, List.map_cons, List.map_nil, fwdTransform_zero]

/-- `FFT` of two finite elements stores their sum and difference, with `+0.0` in the imaginary plane. -/
theorem fftWith_two {p : Params} {s : State} {x y : F64} (hcap : 2 ≤ p.nMax) (hlen : s.naRe = 2)
    (hheld : Cells.Holds s.xaRe [x, y]) (hy : (FVal.bits y).IsFinite) :
    fftWith p s = finishTransform p
      [⟨fadd (.bits x) (.bits y), plusZero⟩, ⟨fsub (.bits x) (.bits y), plusZero⟩] s := by
  rw [fftWith_of_holds (m := 1) hlen hcap rfl hheld, List.map_cons, List.map_cons, List.map_nil, fwdTransform_one,
    butterfly_one_widen x hy]

/-- Settles O27: no stage for one element, one butterfly with the twiddle one for two. -/
theorem fftOfLengthsOneAndTwo : Obligations.FftOfLengthsOneAndTwo := by
  refine ⟨fun s x hlen hx => ?_, fun p s x y hcap hlen hx hy _ hyfin => ?_, fun _ => rfl⟩
  · obtain ⟨t, ht, hre, him, hny, -⟩ := finishTransform_effect block [widen x] s
    obtain ⟨_, hre0, rfl⟩ := hre 0 one_pos
    obtain ⟨_, him0, rfl⟩ := him 0 one_pos
    exact ⟨t, (fftWith_one hlen (Cells.holds_singleton hx)).trans ht, hny, hre0, him0⟩
  · obtain ⟨t, ht, hre, him, hny, -⟩ := finishTransform_effect p
      [⟨fadd (.bits x) (.bits y), plusZero⟩, ⟨fsub (.bits x) (.bits y), plusZero⟩] s
    obtain ⟨_, him0, rfl⟩ := him 0 two_pos
    obtain ⟨_, him1, rfl⟩ := him 1 one_lt_two
    exact ⟨t, (fftWith_two hcap hlen (Cells.holds_pair hx hy) hyfin).trans ht, hny, hre, him0, him1⟩

end Sys2Proof.Machine
end

section
/-! PROOFS. The inverse engine over exact complex numbers: it runs the forward engine's schedule (O20), computes the sum
with the minus sign (O23) and undoes the forward engine (O24). -/

namespace Sys2Proof.Machine

/-! ### The schedule of the inverse engine -/

/-- Settles O20. -/
theorem enginesShareIndices : Obligations.EnginesShareIndices := fun s => congrFun (invIndex_two_pow s)

/-- The inverse engine is the forward schedule with the inverse tables (R142, R144). -/
theorem invEngine_eq_fwdEngine {α : Type} (bfly : α → α → α → α × α) (z : α) (table : Nat → List α) (m : Nat)
    (input : List α) :
    invEngine bfly z table m input = fwdEngine bfly z (fun s => table (2 ^ s)) m input := by
  simp only [invEngine, fwdEngine, invIndex_two_pow]

/-! ### The minus-sign sum -/

/-- The inverse tables are the forward ones with every twiddle conjugated, which inverts a root of unity (R143). -/
theorem exactInvTable_two_pow (m s : Nat) : exactInvTable m (2 ^ s) = (exactFwdTable m s).map (·⁻¹) := by
  rw [exactInvTable, exactFwdTable, map_castRange, map_castRange, List.map_map]
  exact List.map_congr_left fun q _ => Complex.exp_neg _

theorem IsRootTable.map_inv {c : ℂ} {d : Nat} {tw : List ℂ} (h : IsRootTable c d tw) :
    IsRootTable (-c) d (tw.map (·⁻¹)) := by
  intro q hq
  calc (tw.map (·⁻¹)).getD q 0
    _ = (tw.map (·⁻¹)).getD q 0⁻¹ := by rw [inv_zero]
    _ = (tw.getD q 0)⁻¹ := List.getD_map _ 0 _
    _ = Complex.exp (-c * q / 2 ^ (d + 1)) := by rw [h q hq, ← Complex.exp_neg, neg_mul, neg_div]

/-- Half of `-2πi` is a half turn too. -/
theorem exp_neg_two_pi_I_half : Complex.exp (-(2 * Real.pi * Complex.I) / 2) = -1 := by
  rw [neg_div, mul_assoc, mul_div_cancel_left₀ _ two_ne_zero, Complex.exp_neg, Complex.exp_pi_mul_I, inv_neg_one]

/-- The inverse stages, before the division by `n`, compute the sum with the minus sign. -/
theorem invEngine_eq_fourierSum {m : Nat} {z : List ℂ} (hz : z.length = 2 ^ m) :
    invEngine exactButterfly 0 (exactInvTable m) m z =
      (List.range (2 ^ m)).map (fourierSum (-(2 * Real.pi * Complex.I)) m fun k => z.getD k 0) := by
  rw [invEngine_eq_fwdEngine]
  refine fwdEngine_eq_fourierSum exp_neg_two_pi_I_half hz fun s d hm => ?_
  rw [exactInvTable_two_pow]
  exact (isRootTable_exactFwdTable hm).map_inv

/-- Settles O23: the division by `n` follows the last stage. -/
theorem inverseEngineComputesInverseDft : Obligations.InverseEngineComputesInverseDft := by
  intro m z hz
  rw [invEngine_eq_fourierSum hz, map_castRange, List.map_map]
  refine List.map_congr_left fun t _ => congrArg (· / 2 ^ m) (Finset.sum_congr rfl fun k _ => ?_)
  congr 2
  ring

/-! ### Inversion -/

/-- The powers of a root of unity other than one sum to zero. -/
theorem sum_pow_of_pow_eq_one {x : ℂ} {n : Nat} (hpow : x ^ n = 1) :
    ∑ k ∈ Finset.range n, x ^ k = if x = 1 then (n : ℂ) else 0 := by
  by_cases hone : x = 1
  · rw [if_pos hone, hone]
    simp
  · rw [if_neg hone]
    have hgeom := geom_sum_mul x n
    rw [hpow, sub_self] at hgeom
    exact (mul_eq_zero.1 hgeom).resolve_right (sub_ne_zero.2 hone)

/-- Over one period the waves of two frequencies below `2^m` are orthogonal. -/
theorem sum_exp_mul_exp_neg (m : Nat) {u t : Nat} (hu : u < 2 ^ m) (ht : t < 2 ^ m) :
    ∑ k ∈ Finset.range (2 ^ m), Complex.exp (2 * Real.pi * Complex.I * k * u / 2 ^ m) *
        Complex.exp (-(2 * Real.pi * Complex.I) * t * k / 2 ^ m) = if u = t then 2 ^ m else 0 := by
  have hroot := Complex.isPrimitiveRoot_exp (2 ^ m) (Nat.two_pow_pos m).ne'
  obtain ⟨ζ, hζ⟩ : ∃ ζ, ζ = Complex.exp (2 * Real.pi * Complex.I / (2 ^ m : ℕ)) := ⟨_, rfl⟩
  rw [← hζ] at hroot
  have hζ0 : ζ ≠ 0 := hζ ▸ Complex.exp_ne_zero _
  have hterm : ∀ k : Nat, Complex.exp (2 * Real.pi * Complex.I * k * u / 2 ^ m) *
      Complex.exp (-(2 * Real.pi * Complex.I) * t * k / 2 ^ m) = (ζ ^ u / ζ ^ t) ^ k := by
    intro k
    rw [hζ, ← Complex.exp_nat_mul, ← Complex.exp_nat_mul, ← Complex.exp_sub, ← Complex.exp_nat_mul, ← Complex.exp_add]
    congr 1
    push_cast
    ring
  have hone : ζ ^ u / ζ ^ t = 1 ↔ u = t := by
    rw [div_eq_one_iff_eq (pow_ne_zero t hζ0)]
    exact ⟨fun h => hroot.pow_inj hu ht h, congrArg _⟩
  have hperiod : (ζ ^ u / ζ ^ t) ^ 2 ^ m = 1 := by
    rw [div_pow, pow_right_comm, pow_right_comm ζ t, hroot.pow_eq_one, one_pow, one_pow, div_one]
  simp only [hterm, sum_pow_of_pow_eq_one hperiod, hone, Nat.cast_pow, Nat.cast_ofNat]

/-- The minus-sign sum of the plus-sign sum is `2^m` times the input. -/
theorem fourierSum_neg_fourierSum (m : Nat) (f : Nat → ℂ) {t : Nat} (ht : t < 2 ^ m) :
    fourierSum (-(2 * Real.pi * Complex.I)) m (fourierSum (2 * Real.pi * Complex.I) m f) t = f t * 2 ^ m := by
  calc fourierSum (-(2 * Real.pi * Complex.I)) m (fourierSum (2 * Real.pi * Complex.I) m f) t
    _ = ∑ u ∈ Finset.range (2 ^ m), f u * ∑ k ∈ Finset.range (2 ^ m),
          Complex.exp (2 * Real.pi * Complex.I * k * u / 2 ^ m) *
            Complex.exp (-(2 * Real.pi * Complex.I) * t * k / 2 ^ m) := by
      simp only [fourierSum, Finset.sum_mul, Finset.mul_sum, mul_assoc]
      exact Finset.sum_comm
    _ = ∑ u ∈ Finset.range (2 ^ m), f u * if u = t then 2 ^ m else 0 :=
      Finset.sum_congr rfl fun u hu => by rw [sum_exp_mul_exp_neg m (Finset.mem_range.1 hu) ht]
    _ = f t * 2 ^ m := by simp [ht]

theorem fourierSum_congr (c : ℂ) {d : Nat} {f g : Nat → ℂ} (h : ∀ u, u < 2 ^ d → f u = g u) (q : Nat) :
    fourierSum c d f q = fourierSum c d g q :=
  Finset.sum_congr rfl fun u hu => by rw [h u (Finset.mem_range.1 hu)]

theorem fwdEngine_exact_eq_fourierSum {m : Nat} {z : List ℂ} (hz : z.length = 2 ^ m) :
    fwdEngine exactButterfly 0 (exactFwdTable m) m z =
      (List.range (2 ^ m)).map (fourierSum (2 * Real.pi * Complex.I) m fun t => z.getD t 0) := by
  rw [forwardEngineComputesDft m z hz, map_castRange]
  rfl

/-- Settles O24: both engines compute Fourier sums, of opposite signs. -/
theorem inverseUndoesForward : Obligations.InverseUndoesForward := by
  intro m z hz
  rw [invEngine_eq_fourierSum (length_fwdEngine _ _ _ _ _ hz), List.map_map]
  refine List.ext_getElem (by simp [hz]) fun t ht hz' => ?_
  have htlt : t < 2 ^ m := by omega
  have hvalue : ∀ k, k < 2 ^ m → (fwdEngine exactButterfly 0 (exactFwdTable m) m z).getD k 0 =
      fourierSum (2 * Real.pi * Complex.I) m (fun t => z.getD t 0) k := fun k hk => by
    rw [fwdEngine_exact_eq_fourierSum hz]
    simp [List.getD_eq_getElem?_getD, hk]
  rw [List.getElem_map, List.getElem_range, Function.comp_apply, fourierSum_congr _ hvalue,
    fourierSum_neg_fourierSum m _ htlt, mul_div_cancel_right₀ _ (pow_ne_zero m two_ne_zero)]
  simp [hz']

end Sys2Proof.Machine
end

section
/-! PROOFS. `IFFT`: a bad length is rejected (O28), a good one writes the inverse transform (O29), and the lengths 1 and
2 (O30). -/

namespace Sys2Proof.Machine

/-! ### The two ends of the command -/

theorem ifftWith_of_lengths_ne (p : Params) {s : State} (h : s.naRe ≠ s.naIm) :
    ifftWith p s = raise .invalidLength s := if_pos h

theorem ifftWith_of_bad_length {p : Params} {s : State} (heq : s.naRe = s.naIm)
    (hbad : (¬ ∃ k, s.naRe = 2 ^ k) ∨ p.nMax < s.naRe) : ifftWith p s = raise .invalidLength s := by
  rw [ifftWith, if_neg (not_not_intro heq), if_pos ((lengthCheck_iff p s.naRe).2 hbad)]

/-- Settles O28: both checks come before any element is read, and raise the same status. -/
theorem ifftRejectsBadLength : Obligations.IfftRejectsBadLength := by
  intro s hbad
  change ifftWith block s = raise .invalidLength s
  by_cases heq : s.naRe = s.naIm
  · exact ifftWith_of_bad_length heq (hbad.resolve_left (not_not_intro heq))
  · exact ifftWith_of_lengths_ne block heq

theorem withPlane_of_holds_length {s : State} {p : OperandPlane} {n : Nat} {vs : List F64} (hlen : vs.length = n)
    (h : Cells.Holds (s.plane p.name) vs) (go : List F64 → Host.Outcome State Fault Refusal) :
    withPlane s p n go = go vs := hlen ▸ withPlane_of_holds h go

/-- `IFFT` of two written planes of one legal length (R140). -/
theorem ifftWith_of_holds {p : Params} {s : State} {m : Nat} {re im : List F64} (hre : s.naRe = 2 ^ m)
    (him : s.naIm = 2 ^ m) (hcap : 2 ^ m ≤ p.nMax) (hrelen : re.length = 2 ^ m) (himlen : im.length = 2 ^ m)
    (hreheld : Cells.Holds s.xaRe re) (himheld : Cells.Holds s.xaIm im) :
    ifftWith p s =
      finishTransform p (invTransform p.trig m (List.zipWith (fun a b => ⟨.bits a, .bits b⟩) re im)) s := by
  rw [ifftWith, if_neg (not_not_intro (hre.trans him.symm)), hre, if_neg (lengthCheck_passes ⟨m, rfl⟩ hcap),
    Nat.log2_two_pow]
  exact (withPlane_of_holds_length (p := .xaRe) hrelen hreheld _).trans
    (withPlane_of_holds_length (p := .xaIm) himlen himheld _)

/-- Settles O29: the checks pass, the inverse transform keeps the length, and its two planes are stored. -/
theorem ifftWritesTransform : Obligations.IfftWritesTransform := by
  intro s m re im hnre hnim hcap hrelen himlen hreheld himheld w
  have hw : w.length = 2 ^ m :=
    length_invTransform _ _ _ (by rw [List.length_zipWith, hrelen, himlen, Nat.min_self])
  obtain ⟨t, ht, hre, him, hny, hrest⟩ := finishTransform_effect block w s
  rw [hw] at hny hrest
  exact ⟨t, (ifftWith_of_holds hnre hnim hcap hrelen himlen hreheld himheld).trans ht, hw, hre, him, hny, hrest⟩

/-! ### Values that agree up to the sign of a zero -/

theorem roundToF64_zero_eqUpToZeroSign (a b : Bool) {den den' : Nat} (hden : 0 < den) (hden' : 0 < den') :
    (roundToF64 a 0 den).EqUpToZeroSign (roundToF64 b 0 den') := by
  rw [roundToF64_zero a hden, roundToF64_zero b hden']
  exact .inr ⟨a, b, unpack_withSign_zero a, unpack_withSign_zero b⟩

/-- A sum depends on the signs of its operands' zeros only in the sign of a zero. -/
theorem addFinite_eqUpToZeroSign {na nb na' nb' : Bool} {a b a' b' : Nat}
    (h : signedUnits na a + signedUnits nb b = signedUnits na' a' + signedUnits nb' b') :
    (addFinite na a nb b).EqUpToZeroSign (addFinite na' a' nb' b') := by
  unfold addFinite
  rw [h]
  by_cases hsum : signedUnits na' a' + signedUnits nb' b' = 0
  · simp only [hsum, Int.natAbs_zero]
    exact roundToF64_zero_eqUpToZeroSign _ _ one_pos one_pos
  · simp only [if_neg hsum]
    exact .inl rfl

theorem signedUnits_eq_of_value_eq {x y : FVal} {a b : Bool} {u v : Nat} (hx : unpack x = .finite a u)
    (hy : unpack y = .finite b v) (h : x.value = y.value) : signedUnits a u = signedUnits b v := by
  rw [value_of_finite hx, value_of_finite hy, signedValue_div, signedValue_div, ← cast_signedUnits,
    ← cast_signedUnits, div_left_inj' (pow_ne_zero _ two_ne_zero)] at h
  exact_mod_cast h

theorem fadd_eqUpToZeroSign {x y y' : FVal} (hx : x.IsFinite) (hy : y.IsFinite) (hy' : y'.IsFinite)
    (h : y'.value = y.value) : (fadd x y').EqUpToZeroSign (fadd x y) := by
  obtain ⟨na, a, ha⟩ := hx
  obtain ⟨nb, b, hb⟩ := hy
  obtain ⟨nb', b', hb'⟩ := hy'
  rw [fadd_of_finite ha hb, fadd_of_finite ha hb']
  exact addFinite_eqUpToZeroSign (by rw [signedUnits_eq_of_value_eq hb' hb h])

/-- A zero added, of either sign, leaves the value. -/
theorem value_fadd_zero {x z : FVal} (hx : x.IsFinite) (hz : z.IsFinite) (hz0 : z.value = 0) :
    (fadd x z).IsFinite ∧ (fadd x z).value = x.value := by
  have hround := roundsTo_fadd hx hz
  rw [hz0, add_zero] at hround
  exact Representable.exact ⟨x, hx, rfl⟩ hround

theorem value_fsub_zero {x z : FVal} (hx : x.IsFinite) (hz : z.IsFinite) (hz0 : z.value = 0) :
    (fsub x z).IsFinite ∧ (fsub x z).value = x.value :=
  value_fadd_zero hx (isFinite_fneg hz) (by rw [value_fneg hz, hz0, neg_zero])

/-! ### The division by `n` (R146) -/

theorem fdiv_one {x : FVal} (h : x.IsFinite) : fdiv x (i2f 1) = x := by
  obtain ⟨neg, m, hm, rfl⟩ := exists_withSign h
  rw [fdiv_of_finite (unpack_withSign neg hm) unpack_i2f_one unitsPerOne_pos.ne', Bool.xor_false]
  exact roundToF64_of_exact neg unitsPerOne_pos hm rfl

theorem unpack_i2f_two : ∃ u, 0 < u ∧ unpack (i2f 2) = .finite false u :=
  ⟨2 * unitsPerOne, by unfold unitsPerOne; positivity, by decide +kernel⟩

theorem eqUpToZeroSign_half {x y : FVal} (h : x.EqUpToZeroSign y) :
    (fdiv x (i2f 2)).EqUpToZeroSign (fdiv y (i2f 2)) := by
  obtain ⟨u, hu, htwo⟩ := unpack_i2f_two
  obtain rfl | ⟨a, b, ha, hb⟩ := h
  · exact .inl rfl
  · rw [fdiv_of_finite ha htwo hu.ne', fdiv_of_finite hb htwo hu.ne', Nat.zero_mul]
    exact roundToF64_zero_eqUpToZeroSign _ _ hu hu

theorem fdiv_of_inf_of_finite {x y : FVal} {a nb : Bool} {b : Nat} (hx : unpack x = .inf a)
    (hy : unpack y = .finite nb b) : fdiv x y = .bits (infBits (a ^^ nb)) := by
  unfold fdiv; rw [hx, hy]

theorem exists_bits_half {x : FVal} (h : unpack x ≠ .nan) : ∃ b, fdiv x (i2f 2) = .bits b := by
  obtain ⟨u, hu, htwo⟩ := unpack_i2f_two
  cases hx : unpack x with
  | nan => exact absurd hx h
  | inf a => exact ⟨_, fdiv_of_inf_of_finite hx htwo⟩
  | finite a v => exact ⟨_, fdiv_of_finite hx htwo hu.ne'⟩

theorem unpack_fadd_ne_nan {x y : FVal} (hx : x.IsFinite) (hy : y.IsFinite) : unpack (fadd x y) ≠ .nan := by
  obtain ⟨na, a, ha⟩ := hx
  obtain ⟨nb, b, hb⟩ := hy
  rw [fadd_of_finite ha hb, addFinite]
  obtain ⟨u, hu⟩ | ⟨-, hinf⟩ := unpack_roundToF64 _ _ _
  · rw [hu]; nofun
  · rw [hinf]; nofun

/-- Half the sum of finite values is no NaN (an infinity where the sum overflows), and the sign of a zero operand can
change only the sign of a zero in it. -/
theorem exists_bits_half_fadd {x y y' : FVal} (hx : x.IsFinite) (hy : y.IsFinite)
    (hy' : y'.IsFinite ∧ y'.value = y.value) : ∃ b : F64, fdiv (fadd x y') (i2f 2) = .bits b ∧
      (FVal.bits b).EqUpToZeroSign (fdiv (fadd x y) (i2f 2)) := by
  obtain ⟨hfin, hvalue⟩ := hy'
  obtain ⟨b, hb⟩ := exists_bits_half (unpack_fadd_ne_nan hx hfin)
  exact ⟨b, hb, hb ▸ eqUpToZeroSign_half (fadd_eqUpToZeroSign hx hy hfin hvalue)⟩

theorem exists_bits_half_fsub {x y y' : FVal} (hx : x.IsFinite) (hy : y.IsFinite)
    (hy' : y'.IsFinite ∧ y'.value = y.value) : ∃ b : F64, fdiv (fsub x y') (i2f 2) = .bits b ∧
      (FVal.bits b).EqUpToZeroSign (fdiv (fsub x y) (i2f 2)) := by
  obtain ⟨hfin, hvalue⟩ := hy'
  exact exists_bits_half_fadd hx (isFinite_fneg hy)
    ⟨isFinite_fneg hfin, by rw [value_fneg hfin, value_fneg hy, hvalue]⟩

/-! ### The twiddle of length 2 -/

/-- Entry 0 of an inverse table: one, with `-0.0` for its imaginary part (R143). -/
def conjugateOne : Cplx FVal := ⟨i2f 1, .bits (withSign true 0)⟩

theorem invTable_entry_zero (p : Params) : (invTable p.trig 1 (2 ^ 0)).getD 0 zeroElement = conjugateOne := by
  obtain ⟨-, htable⟩ := twiddlesOfEachStage p
  obtain ⟨-, -, -, hone, -⟩ := htable 1 0 one_pos
  rw [List.getD_eq_getElem?_getD, hone, conjugateOne, i2f_one]
  rfl

theorem value_fmul_minusZero {x : FVal} (hx : x.IsFinite) :
    (fmul (.bits (withSign true 0)) x).IsFinite ∧ (fmul (.bits (withSign true 0)) x).value = 0 := by
  obtain ⟨neg, u, hu⟩ := hx
  rw [fmul_of_zero (unpack_withSign_zero true) hu (.inl rfl), value_withSign _ (by decide), magnitudeValue_zero,
    signedValue_zero]
  exact ⟨isFinite_withSign _ (by decide), rfl⟩

/-- The product by `conjugateOne` changes at most the sign of a zero. -/
theorem value_cplxMul_conjugateOne {z : Cplx FVal} (hre : z.re.IsFinite) (him : z.im.IsFinite) :
    ((cplxMul conjugateOne z).re.IsFinite ∧ (cplxMul conjugateOne z).re.value = z.re.value) ∧
      (cplxMul conjugateOne z).im.IsFinite ∧ (cplxMul conjugateOne z).im.value = z.im.value := by
  obtain ⟨hfin, hzero⟩ := value_fmul_minusZero him
  obtain ⟨hfin', hzero'⟩ := value_fmul_minusZero hre
  rw [cplxMul, conjugateOne, fmul_one_left hre, fmul_one_left him]
  exact ⟨value_fsub_zero hre hfin hzero, value_fadd_zero him hfin' hzero'⟩

/-! ### Lengths 1 and 2 (R148) -/

theorem Cells.holds_of_holdsComputed {c : Plane} {vs : List F64} (h : Cells.HoldsComputed c (vs.map .bits)) :
    Cells.Holds c vs := by
  intro j hj
  obtain ⟨b, hread, hagrees⟩ := h j (by simpa using hj)
  rw [List.getElem_map] at hagrees
  exact hagrees ▸ hread

theorem invTransform_zero {trig : Trig} {z : Cplx FVal} (hre : z.re.IsFinite) (him : z.im.IsFinite) :
    invTransform trig 0 [z] = [z] := by
  have hscale : scaleDown 1 z = z := by rw [scaleDown, Nat.cast_one, fdiv_one hre, fdiv_one him]
  exact congrArg (fun w => [w]) hscale

/-- The inverse transform of two elements is one butterfly and the division by 2 (R148). -/
theorem invTransform_one (p : Params) (a b : Cplx FVal) : invTransform p.trig 1 [a, b] =
    [scaleDown 2 (butterfly a b conjugateOne).1, scaleDown 2 (butterfly a b conjugateOne).2] := by
  have hbfly : stageButterfly butterfly zeroElement (invIndex (2 ^ 0)) (invTable p.trig 1 (2 ^ 0)) [a, b] 0 =
      butterfly a b conjugateOne := congrArg (butterfly a b) (invTable_entry_zero p)
  rw [← hbfly]
  rfl

/-- `IFFT` of one finite element stores it as it is. -/
theorem ifftWith_one {p : Params} {s : State} {x y : F64} (hre : s.naRe = 1) (him : s.naIm = 1)
    (hx : Cells.Holds s.xaRe [x]) (hy : Cells.Holds s.xaIm [y]) (hxfin : (FVal.bits x).IsFinite)
    (hyfin : (FVal.bits y).IsFinite) : ifftWith p s = finishTransform p [⟨.bits x, .bits y⟩] s := by
  rw [ifftWith_of_holds (m := 0) hre him (one_le_nMax p) rfl rfl hx hy, List.zipWith_cons_cons, List.zipWith_nil_left,
    invTransform_zero hxfin hyfin]

/-- `IFFT` of two elements stores half the sum and half the difference of the first and the second one's product by the
twiddle. -/
theorem ifftWith_two {p : Params} {s : State} {x0 x1 y0 y1 : F64} (hcap : 2 ≤ p.nMax) (hre : s.naRe = 2)
    (him : s.naIm = 2) (hx : Cells.Holds s.xaRe [x0, x1]) (hy : Cells.Holds s.xaIm [y0, y1]) :
    let b := cplxMul conjugateOne ⟨.bits x1, .bits y1⟩
    ifftWith p s = finishTransform p
      [⟨fdiv (fadd (.bits x0) b.re) (i2f 2), fdiv (fadd (.bits y0) b.im) (i2f 2)⟩,
        ⟨fdiv (fsub (.bits x0) b.re) (i2f 2), fdiv (fsub (.bits y0) b.im) (i2f 2)⟩] s := by
  intro b
  rw [ifftWith_of_holds (m := 1) hre him hcap rfl rfl hx hy, List.zipWith_cons_cons, List.zipWith_cons_cons,
    List.zipWith_nil_left, invTransform_one]
  rfl

/-- Settles O30: no stage for one element; for two, one butterfly whose twiddle changes at most the sign of a zero. -/
theorem ifftOfLengthsOneAndTwo : Obligations.IfftOfLengthsOneAndTwo := by
  refine ⟨fun s x y hre him hx hy hxfin hyfin => ?_, fun p s x0 x1 y0 y1 hcap hre him hx hy hfin => ?_, fun _ => rfl⟩
  · obtain ⟨t, ht, htre, htim, hny, -⟩ := finishTransform_effect block [⟨.bits x, .bits y⟩] s
    exact ⟨t, (ifftWith_one hre him (Cells.holds_singleton hx) (Cells.holds_singleton hy) hxfin hyfin).trans ht, hny,
      Cells.holds_of_holdsComputed (vs := [x]) htre 0 one_pos, Cells.holds_of_holdsComputed (vs := [y]) htim 0 one_pos⟩
  · have hx0 := hfin x0 (by simp)
    have hx1 := hfin x1 (by simp)
    have hy0 := hfin y0 (by simp)
    have hy1 := hfin y1 (by simp)
    have hexec := ifftWith_two hcap hre him hx hy
    obtain ⟨hbre, hbim⟩ := value_cplxMul_conjugateOne (z := ⟨.bits x1, .bits y1⟩) hx1 hy1
    obtain ⟨a0, ha0, ha0'⟩ := exists_bits_half_fadd hx0 hx1 hbre
    obtain ⟨a1, ha1, ha1'⟩ := exists_bits_half_fsub hx0 hx1 hbre
    obtain ⟨b0, hb0, hb0'⟩ := exists_bits_half_fadd hy0 hy1 hbim
    obtain ⟨b1, hb1, hb1'⟩ := exists_bits_half_fsub hy0 hy1 hbim
    dsimp only at hexec
    rw [ha0, ha1, hb0, hb1] at hexec
    obtain ⟨t, ht, htre, htim, hny, -⟩ := finishTransform_effect p [⟨.bits a0, .bits b0⟩, ⟨.bits a1, .bits b1⟩] s
    exact ⟨t, a0, a1, b0, b1, hexec.trans ht, hny, Cells.holds_of_holdsComputed htre,
      Cells.holds_of_holdsComputed htim, ha0', ha1', hb0', hb1'⟩

end Sys2Proof.Machine
end

section
/-! PROOFS. `CONV`: the padded length (O33), the two failures (O31), the result (O32), a host read of the imaginary
plane afterwards (O35), and one element beside an empty sequence (O34). -/

namespace Sys2Proof.Machine

variable {p : Params} {s t : State}

/-! ### The padded length (R161) -/

theorem nextPow2_le_two_pow {m k : Nat} (h : m ≤ 2 ^ k) : nextPow2 m ≤ 2 ^ k := by
  unfold nextPow2
  split
  · exact Nat.one_le_two_pow
  · have hlog : (m - 1).log2 < k := (Nat.log2_lt (by omega)).2 (by omega)
    exact Nat.pow_le_pow_right two_pos hlog

/-! ### The ends of the command -/

theorem convWith_of_empty (p : Params) (h : s.naRe + s.nbRe = 0) : convWith p s = raise .invalidLength s := if_pos h

theorem convWith_of_too_long (hne : s.naRe + s.nbRe ≠ 0) (h : p.nMax < nextPow2 (s.naRe + s.nbRe)) :
    convWith p s = raise .invalidLength s := by
  rw [convWith, if_neg hne, if_pos h]

/-- `CONV` of two written sequences whose padded length is inside the capacity (R160). -/
theorem convWith_of_holds {u v : List F64} (hu : u.length = s.naRe) (hv : v.length = s.nbRe)
    (hne : s.naRe + s.nbRe ≠ 0) (hcap : nextPow2 (s.naRe + s.nbRe) ≤ p.nMax) (hxa : Cells.Holds s.xaRe u)
    (hxb : Cells.Holds s.xbRe v) :
    convWith p s = succeed (writeRealResult p (convolve p.trig (u.map .bits) (v.map .bits)) s) := by
  rw [convWith, if_neg hne, if_neg (Nat.not_lt.2 hcap)]
  exact (withPlane_of_holds_length (p := .xaRe) hu hxa _).trans (withPlane_of_holds_length (p := .xbRe) hv hxb _)

/-- Settles O31: both checks come before any element is read. -/
theorem convRejectsEmptyOrTooLong : Obligations.ConvRejectsEmptyOrTooLong := by
  intro s hbad
  change convWith block s = raise .invalidLength s
  rcases hbad with hempty | ⟨hne, hlong⟩
  · exact convWith_of_empty block hempty
  · exact convWith_of_too_long hne hlong

/-- Everything `CONV` can do when it answers a next state: fail on a length, or store the convolution of the two
sequences its planes hold. -/
theorem convWith_cases (h : convWith p s = .next t) :
    t = setStatus .invalidLength s ∨ ∃ u v : List F64, u.length = s.naRe ∧ v.length = s.nbRe ∧
      Cells.Holds s.xaRe u ∧ Cells.Holds s.xbRe v ∧
      t = setStatus .ok (writeRealResult p (convolve p.trig (u.map .bits) (v.map .bits)) s) := by
  by_cases hempty : s.naRe + s.nbRe = 0
  · exact .inl (Host.Outcome.next.inj ((convWith_of_empty p hempty).symm.trans h)).symm
  by_cases hlong : p.nMax < nextPow2 (s.naRe + s.nbRe)
  · exact .inl (Host.Outcome.next.inj ((convWith_of_too_long hempty hlong).symm.trans h)).symm
  by_cases hfilled : Cells.Filled s.xaRe s.naRe ∧ Cells.Filled s.xbRe s.nbRe
  · obtain ⟨u, hu⟩ := (Cells.filled_iff _ _).1 hfilled.1
    obtain ⟨v, hv⟩ := (Cells.filled_iff _ _).1 hfilled.2
    obtain ⟨hul, hxa⟩ := Cells.readFrom_holds hu
    obtain ⟨hvl, hxb⟩ := Cells.readFrom_holds hv
    have hexec := convWith_of_holds hul hvl hempty (Nat.not_lt.1 hlong) hxa hxb
    exact .inr ⟨u, v, hul, hvl, hxa, hxb, (Host.Outcome.next.inj (hexec.symm.trans h)).symm⟩
  · rcases convWith_refused hempty (Nat.not_lt.1 hlong) hfilled with hr | hr <;> cases hr.symm.trans h

/-- A `CONV` that ends with `OK` has stored a convolution of the padded length (R161). -/
theorem convWith_ok (h : convWith p s = .next t) (hok : t.status = 0#32) :
    ∃ w : List FVal, w.length = nextPow2 (s.naRe + s.nbRe) ∧ t = setStatus .ok (writeRealResult p w s) := by
  rcases convWith_cases h with rfl | ⟨u, v, hu, hv, -, -, rfl⟩
  · cases hok
  · exact ⟨_, by rw [length_convolve, List.length_map, List.length_map, hu, hv], rfl⟩

/-- Settles O33: the least power of two by its exponent, and the stored convolution has that length. -/
theorem paddedLengthIsLeastPowerOfTwo : Obligations.PaddedLengthIsLeastPowerOfTwo := by
  refine ⟨fun m _ => ⟨(isPow2_iff _).1 (isPow2_nextPow2 m), le_nextPow2 m, fun _ => nextPow2_le_two_pow⟩,
    fun s t h hok => ?_⟩
  obtain ⟨w, hw, rfl⟩ := convWith_ok (p := block) h hok
  exact hw

/-! ### The result (R160, R162 to R166) -/

/-- Padding known bits is padding the bits with `+0.0` (R162). -/
theorem padWiden_map_bits (n : Nat) (q : List F64) :
    padWiden n (q.map .bits) = (List.range n).map fun t => ⟨.bits (q.getD t 0#64), .bits 0#64⟩ :=
  List.map_congr_left fun _ _ => congrArg (Cplx.mk · plusZero) (List.getD_map q 0#64 FVal.bits)

/-- What storing a real result leaves (R160). -/
theorem succeed_writeRealResult_effect (p : Params) (w : List FVal) (s : State) :
    ∃ t, succeed (writeRealResult p w s) = .next t ∧ Cells.HoldsComputed t.yRe w ∧ t.ny = w.length ∧
      t.status = 0#32 ∧ OnlyPlaneResultChanged s t ∧
        ∀ j, w.length ≤ j → Cells.read t.yRe j = Cells.read s.yRe j :=
  ⟨_, rfl, holdsComputed_writeFrom p s.yRe _ _, rfl, rfl, rfl,
    fun _ hj => Cells.read_writeFrom_above _ _ (by simpa using hj)⟩

/-- Settles O32: the checks pass, and the convolution, which has the padded length, is stored. -/
theorem convWritesConvolution : Obligations.ConvWritesConvolution := by
  intro s u v hu hv hne hcap hxa hxb n pad product w
  have hconv : convolve block.trig (u.map .bits) (v.map .bits) = w := by
    rw [convolve, List.length_map, List.length_map, hu, hv, padWiden_map_bits, padWiden_map_bits]
  have hlen : w.length = n := by
    rw [← hconv, length_convolve, List.length_map, List.length_map, hu, hv]
  obtain ⟨t, ht, hre, hny, hstatus, honly, hrest⟩ := succeed_writeRealResult_effect block w s
  rw [hlen] at hny hrest
  have hexec : exec .conv s = succeed (writeRealResult block w s) :=
    hconv ▸ convWith_of_holds hu hv hne hcap hxa hxb
  exact ⟨t, hexec.trans ht, hlen, hre, hny, hstatus, honly, hrest⟩

/-! ### The imaginary plane (R166) -/

/-- An element of a result container that holds no value reads as its free value (R29, R30). -/
theorem elementRead_of_unlisted {w nMax length j : Nat} {c : Cells w} {f : Nat → BitVec w} (hj : j < nMax)
    (h : Cells.read c j = none) : elementRead nMax c (some f) length j = .value (f j) := by
  unfold elementRead
  rw [if_neg (Nat.not_le.2 hj), h]

/-- Settles O35: the `CONV` begins an epoch and leaves no element of `Y_IM` with a value. -/
theorem convLeavesImaginaryUnspecified : Obligations.ConvLeavesImaginaryUnspecified := by
  intro s t h hok
  obtain ⟨w, -, rfl⟩ := convWith_ok (p := block) h hok
  exact ⟨rfl, fun j hj => hostMove_readPlane_iff.2 (elementRead_of_unlisted hj (Cells.read_nil j))⟩

/-! ### One element beside an empty sequence (R169) -/

/-- The convolution does not depend on the order of its operands. -/
theorem convolve_comm (trig : Trig) (u v : List FVal) : convolve trig u v = convolve trig v u := by
  have hprod (a b : List (Cplx FVal)) : List.zipWith cplxMul a b = List.zipWith cplxMul b a :=
    List.zipWith_comm_of_comm cplxMul_comm
  unfold convolve
  rw [Nat.add_comm]
  exact congrArg (fun w => (invTransform trig _ w).map Cplx.re) (hprod _ _)

theorem fmul_plusZero_of_finite {x : FVal} {neg : Bool} {u : Nat} (hx : unpack x = .finite neg u) :
    fmul plusZero x = .bits (withSign neg 0) := by
  rw [fmul_of_zero unpack_plusZero hx (.inl rfl), Bool.false_xor]

theorem fmul_plusZero_of_not_finite {x : FVal} (hx : ¬ x.IsFinite) : fmul plusZero x = .nanResult := by
  cases h : unpack x with
  | nan => exact fmul_of_nan_right plusZero h
  | inf neg => exact fmul_of_zero_of_inf unpack_plusZero h
  | finite neg u => exact absurd ⟨neg, u, h⟩ hx

/-- A zero of either sign, or a NaN, is kept by the rest of a one-element convolution: `+0.0 · +0.0` taken away and the
division by 1. -/
theorem fdiv_fsub_zero_mul (x : FVal) :
    fdiv (fsub (fmul plusZero x) (fmul plusZero plusZero)) (i2f 1) = fmul plusZero x := by
  by_cases hx : x.IsFinite
  · obtain ⟨neg, u, hu⟩ := hx
    have hzero : (FVal.bits (withSign neg 0)).IsFinite := ⟨_, _, unpack_withSign_zero neg⟩
    rw [fmul_plusZero_of_finite hu, fmul_plusZero_of_finite unpack_plusZero, ← plusZero_eq, fsub_plusZero hzero,
      fdiv_one hzero]
  · rw [fmul_plusZero_of_not_finite hx, fsub, fadd_of_nan_left _ unpack_nanResult,
      fdiv_of_nan_left _ unpack_nanResult]

/-- For length 1 no transform has a stage, and the product with the padding's zero is left (R169). -/
theorem convolve_nil_singleton (trig : Trig) (x : FVal) : convolve trig [] [x] = [fmul plusZero x] :=
  calc convolve trig [] [x]
    _ = (invTransform trig 0 [cplxMul zeroElement ⟨x, plusZero⟩]).map Cplx.re := rfl
    _ = [(scaleDown 1 (cplxMul zeroElement ⟨x, plusZero⟩)).re] := rfl
    _ = [fmul plusZero x] := by
      rw [scaleDown, Nat.cast_one, cplxMul, zeroElement, fdiv_fsub_zero_mul]

/-- A zero times a finite element is stored as a zero, times an infinity or a NaN as a NaN (R106). -/
theorem value_of_agrees_zero_mul {x r : F64} (h : (fmul plusZero (.bits x)).Agrees r) :
    ((FVal.bits x).IsFinite → (FVal.bits r).IsFinite ∧ (FVal.bits r).value = 0) ∧
      (¬ (FVal.bits x).IsFinite → (FVal.bits r).IsNaN) := by
  refine ⟨fun hx => ?_, fun hx => ?_⟩
  · obtain ⟨neg, u, hu⟩ := hx
    rw [fmul_plusZero_of_finite hu] at h
    obtain rfl : r = withSign neg 0 := h
    rw [value_withSign _ (by decide), magnitudeValue_zero, signedValue_zero]
    exact ⟨isFinite_withSign _ (by decide), rfl⟩
  · rw [fmul_plusZero_of_not_finite hx] at h
    exact (isNaNBits_iff r).1 h

theorem Cells.holds_nil {w : Nat} (c : Cells w) : Cells.Holds c [] := fun _ h => absurd h (Nat.not_lt_zero _)

/-- `CONV` of an empty sequence and one written element, on either side, stores the product of
`+0.0` and the element. -/
theorem convWith_one_element {x : F64} (h : (s.naRe = 0 ∧ s.nbRe = 1 ∧ Cells.read s.xbRe 0 = some x) ∨
    (s.naRe = 1 ∧ s.nbRe = 0 ∧ Cells.read s.xaRe 0 = some x)) :
    convWith p s = succeed (writeRealResult p [fmul plusZero (.bits x)] s) := by
  have hcap : nextPow2 1 ≤ p.nMax := one_le_nMax p
  rw [← convolve_nil_singleton p.trig]
  rcases h with ⟨ha, hb, hx⟩ | ⟨ha, hb, hx⟩
  · exact convWith_of_holds (u := []) (v := [x]) ha.symm hb.symm (by omega) (by rwa [ha, hb])
      (Cells.holds_nil _) (Cells.holds_singleton hx)
  · rw [convolve_comm]
    exact convWith_of_holds (u := [x]) (v := []) ha.symm hb.symm (by omega) (by rwa [ha, hb])
      (Cells.holds_singleton hx) (Cells.holds_nil _)

/-- Settles O34: the one value stored is `+0.0 · x`, whichever side the element is on. -/
theorem convOfEmptyAndOneElement : Obligations.ConvOfEmptyAndOneElement := by
  intro s x hone
  obtain ⟨t, ht, hre, hny, -⟩ := succeed_writeRealResult_effect block [fmul plusZero (.bits x)] s
  obtain ⟨r, hread, hr⟩ := hre 0 one_pos
  exact ⟨t, r, (convWith_one_element hone).trans ht, hny, hread, value_of_agrees_zero_mul hr⟩

end Sys2Proof.Machine
end

section
/-! PROOFS. Carry propagation: each output byte (O43) and the value of them all (O44). -/

namespace Sys2Proof.Machine

open Polynomial

/-! ### One digit -/

/-- A remainder modulo 256 fits a byte (R188). -/
theorem toNat_ofInt_emod (v : Int) : ((BitVec.ofInt 8 (v % 256)).toNat : Int) = v % 256 := by
  rw [BitVec.toNat_ofInt]
  omega

/-- With `v i` the value of coefficient `i` once the carry from below is in it, digit `i` is its remainder (R188). -/
theorem carryDigits_map_range (n : Nat) {r v : Nat → Int} {carry : Int} (hzero : v 0 = r 0 + carry)
    (hsucc : ∀ i, v (i + 1) = r (i + 1) + v i / 256) :
    carryDigits carry ((List.range n).map r) = (List.range n).map fun i => BitVec.ofInt 8 (v i % 256) := by
  induction n generalizing r v carry with
  | zero => rfl
  | succ n ih =>
    rw [List.range_succ_eq_map, List.map_cons, List.map_cons, List.map_map, List.map_map, carryDigits, ← hzero]
    exact congrArg _ (ih (hsucc 0) fun i => hsucc (i + 1))

@[simp] theorem length_propagateCarries (r : List Int) : (propagateCarries r).length = r.length := by
  rw [propagateCarries, List.length_reverse, length_carryDigits]

/-- Settles O43: the digits from the lowest coefficient upward, then reversed. -/
theorem carriesRunUpward : Obligations.CarriesRunUpward := by
  intro r v n hzero hsucc
  have hfloor (i : Nat) : Int.floor ((v i : ℚ) / 256) = v i / 256 := Rat.floor_intCast_div_natCast (v i) 256
  have hdigits := carryDigits_map_range (carry := 0) n (by rw [hzero, add_zero]) fun i => hfloor i ▸ hsucc i
  refine ⟨by simp, fun i hi => ⟨BitVec.ofInt 8 (v i % 256), ?_, ?_⟩⟩
  · rw [propagateCarries, hdigits, List.getElem?_reverse (by simp; omega), List.length_map, List.length_range,
      Nat.sub_sub_self (by omega), List.getElem?_map, List.getElem?_range hi, Option.map_some]
  · rw [toNat_ofInt_emod, hfloor, Int.emod_def]

/-! ### The value of a coefficient list -/

/-- The polynomial of a list of coefficients, least significant first. -/
noncomputable def coefPolynomial : List Int → Polynomial Int
  | [] => 0
  | r :: rs => C r + X * coefPolynomial rs

theorem eval_coefPolynomial_cons (x r : Int) (rs : List Int) :
    (coefPolynomial (r :: rs)).eval x = r + x * (coefPolynomial rs).eval x := by
  rw [coefPolynomial, eval_add, eval_C, eval_mul, eval_X]

theorem eval_coefPolynomial (x : Int) (r : List Int) :
    (coefPolynomial r).eval x = ∑ k ∈ Finset.range r.length, r.getD k 0 * x ^ k := by
  induction r with
  | nil => simp [coefPolynomial]
  | cons r rs ih =>
    rw [eval_coefPolynomial_cons, ih, List.length_cons, Finset.sum_range_succ', Finset.mul_sum, add_comm]
    refine congrArg₂ _ (Finset.sum_congr rfl fun k _ => ?_) (by simp)
    rw [List.getD_cons_succ, pow_succ]
    ring

theorem uVal_append_singleton (bs : List Byte) (b : Byte) : uVal (bs ++ [b]) = uVal bs * 256 + b.toNat := by
  induction bs with
  | nil => simp [uVal]
  | cons c cs ih =>
    rw [List.cons_append, uVal, uVal, ih, List.length_append, List.length_singleton, pow_succ]
    ring

/-- A digit under a residue modulo `M` is a residue modulo `256 · M`. -/
theorem emod_mul_add_digit {M d : Int} (x : Int) (hM : 0 < M) (hnonneg : 0 ≤ d) (hlt : d < 256) :
    x % M * 256 + d = (256 * x + d) % (256 * M) := by
  have hres := Int.emod_lt_of_pos x hM
  have hres' := Int.emod_nonneg x hM.ne'
  have hsplit : 256 * x + d = x % M * 256 + d + 256 * M * (x / M) := by
    linear_combination 256 * (Int.mul_ediv_add_emod x M).symm
  rw [hsplit, Int.add_mul_emod_self_left]
  exact (Int.emod_eq_of_lt (by omega) (by omega)).symm

/-- The digits are the value of the carry and the coefficients, up to the carry that is discarded at the top (R189). -/
theorem uVal_reverse_carryDigits (carry : Int) (r : List Int) :
    (uVal (carryDigits carry r).reverse : Int) = (carry + (coefPolynomial r).eval 256) % 256 ^ r.length := by
  induction r generalizing carry with
  | nil => simp [carryDigits, uVal]
  | cons r rs ih =>
    rw [carryDigits, List.reverse_cons, uVal_append_singleton, Nat.cast_add, Nat.cast_mul, ih, toNat_ofInt_emod,
      Nat.cast_ofNat, emod_mul_add_digit _ (by positivity) (Int.emod_nonneg _ (by decide))
        (Int.emod_lt_of_pos _ (by decide)), List.length_cons, pow_succ', eval_coefPolynomial_cons]
    congr 1
    linear_combination Int.mul_ediv_add_emod (r + carry) 256

theorem uVal_propagateCarries (r : List Int) :
    (uVal (propagateCarries r) : Int) = (coefPolynomial r).eval 256 % 256 ^ r.length := by
  rw [propagateCarries, uVal_reverse_carryDigits, zero_add]

/-- Settles O44. -/
theorem carriesKeepValueModuloLength : Obligations.CarriesKeepValueModuloLength := fun r => by
  rw [uVal_propagateCarries, eval_coefPolynomial]

end Sys2Proof.Machine
end

section
/-! PROOFS. Operand bytes as coefficients (O47), and the integers that byte sequences stand for: the exact convolution
carries the product of the signed readings, and the two's-complement reading finds it again. -/

namespace Sys2Proof.Machine

open Polynomial

/-! ### Coefficients -/

theorem coef_eq_ite (signed : Bool) (b : Byte) :
    coef signed b = if signed = true ∧ 0x80 ≤ b.toNat then (b.toNat : Int) - 256 else b.toNat := by
  simp [coef]

/-- A byte below `0x80` is its own coefficient in both modes. -/
theorem coef_of_lt (signed : Bool) {b : Byte} (h : b.toNat < 0x80) : coef signed b = b.toNat := by
  rw [coef_eq_ite, if_neg fun hsigned => Nat.not_le.2 h hsigned.2]

theorem abs_coef_le (signed : Bool) (b : Byte) : |coef signed b| ≤ 255 := by
  have hb := b.isLt
  rw [coef_eq_ite, abs_le]
  split <;> omega

/-- Settles O47: the reversal puts the byte there, and a coefficient is small enough to be an exact `f64`. -/
theorem coefficientsReverseBytes : Obligations.CoefficientsReverseBytes := by
  refine ⟨rfl, fun signed bytes t b ht hb => ?_⟩
  obtain ⟨hfin, hvalue⟩ := value_i2f ((abs_coef_le signed b).trans (by norm_num))
  refine ⟨i2f (coef signed b), ?_, hfin, ?_⟩
  · rw [coefficients, List.getElem?_map, List.getElem?_reverse ht, hb, Option.map_some]
  · rw [hvalue, coef_eq_ite]
    split <;> simp

/-! ### The exact convolution -/

theorem coeff_coefPolynomial (r : List Int) (k : Nat) : (coefPolynomial r).coeff k = r.getD k 0 := by
  induction r generalizing k with
  | nil => simp [coefPolynomial]
  | cons r rs ih =>
    cases k with
    | zero => simp [coefPolynomial]
    | succ k => rw [coefPolynomial, coeff_add, coeff_C_succ, zero_add, coeff_X_mul, ih, List.getD_cons_succ]

theorem natDegree_coefPolynomial_le (r : List Int) : (coefPolynomial r).natDegree ≤ r.length - 1 :=
  natDegree_le_iff_coeff_eq_zero.2 fun k hk => by
    rw [coeff_coefPolynomial, List.getD_eq_default _ _ (by omega)]

theorem convolutionEntry_eq_coeff (u v : List Int) (k : Nat) :
    convolutionEntry u v k = (coefPolynomial u * coefPolynomial v).coeff k := by
  simp only [coeff_mul, Finset.Nat.sum_antidiagonal_eq_sum_range_succ_mk, coeff_coefPolynomial]
  rfl

theorem eval_coefPolynomial_map_range (x : Int) (f : Nat → Int) (n : Nat) :
    (coefPolynomial ((List.range n).map f)).eval x = ∑ k ∈ Finset.range n, f k * x ^ k := by
  rw [eval_coefPolynomial, List.length_map, List.length_range]
  refine Finset.sum_congr rfl fun k hk => ?_
  rw [List.getD_eq_getElem?_getD, List.getElem?_map, List.getElem?_range (Finset.mem_range.1 hk)]
  rfl

/-- The exact convolution, as long as both vectors together, has the product of their values. -/
theorem eval_convolution {u v : List Int} {n : Nat} (hu : u ≠ []) (hn : u.length + v.length ≤ n) (x : Int) :
    (coefPolynomial ((List.range n).map (convolutionEntry u v))).eval x =
      (coefPolynomial u).eval x * (coefPolynomial v).eval x := by
  have hpos := List.length_pos_iff.2 hu
  have hdegree : (coefPolynomial u * coefPolynomial v).natDegree < n :=
    calc (coefPolynomial u * coefPolynomial v).natDegree
      _ ≤ (coefPolynomial u).natDegree + (coefPolynomial v).natDegree := natDegree_mul_le
      _ ≤ (u.length - 1) + (v.length - 1) :=
        add_le_add (natDegree_coefPolynomial_le u) (natDegree_coefPolynomial_le v)
      _ < n := by omega
  rw [eval_coefPolynomial_map_range, ← eval_mul, eval_eq_sum_range' hdegree]
  exact Finset.sum_congr rfl fun k _ => by rw [convolutionEntry_eq_coeff]

theorem eval_coefPolynomial_append_singleton (x : Int) (rs : List Int) (r : Int) :
    (coefPolynomial (rs ++ [r])).eval x = (coefPolynomial rs).eval x + r * x ^ rs.length := by
  induction rs with
  | nil => simp [coefPolynomial]
  | cons q qs ih =>
    rw [List.cons_append, eval_coefPolynomial_cons, ih, eval_coefPolynomial_cons, List.length_cons, pow_succ]
    ring

/-- The coefficients of a byte sequence have its signed reading for their value (R192). -/
theorem eval_intCoefficients (signed : Bool) (bytes : List Byte) :
    (coefPolynomial (intCoefficients signed bytes)).eval 256 = sVal signed bytes := by
  induction bytes with
  | nil => simp [intCoefficients, coefPolynomial, sVal]
  | cons b bs ih =>
    rw [intCoefficients] at ih ⊢
    rw [List.reverse_cons, List.map_append, List.map_singleton, eval_coefPolynomial_append_singleton, ih,
      List.length_map, List.length_reverse, sVal, add_comm]

/-! ### The size of a signed reading -/

theorem abs_sVal_lt (signed : Bool) (bs : List Byte) : |sVal signed bs| < 256 ^ bs.length := by
  induction bs with
  | nil => simp [sVal]
  | cons b bs ih =>
    calc |coef signed b * 256 ^ bs.length + sVal signed bs|
      _ ≤ |coef signed b * 256 ^ bs.length| + |sVal signed bs| := abs_add_le _ _
      _ = |coef signed b| * 256 ^ bs.length + |sVal signed bs| := by rw [abs_mul, abs_pow, Nat.abs_ofNat]
      _ < 255 * 256 ^ bs.length + 256 ^ bs.length :=
        add_lt_add_of_le_of_lt (mul_le_mul_of_nonneg_right (abs_coef_le signed b) (by positivity)) ih
      _ = 256 ^ (bs.length + 1) := by ring

/-- A first byte below `0x80` leaves half the range. -/
theorem two_mul_abs_sVal_lt (signed : Bool) {b : Byte} (hb : b.toNat < 0x80) (bs : List Byte) :
    2 * |sVal signed (b :: bs)| < 256 ^ (b :: bs).length := by
  have hrest := abs_lt.1 (abs_sVal_lt signed bs)
  have hdigit : (b.toNat : Int) * 256 ^ bs.length ≤ 127 * 256 ^ bs.length :=
    mul_le_mul_of_nonneg_right (by omega) (by positivity)
  have hdigit' : 0 ≤ (b.toNat : Int) * 256 ^ bs.length := by positivity
  rw [sVal, coef_of_lt signed hb, List.length_cons, pow_succ']
  generalize (256 : Int) ^ bs.length = M at hrest hdigit hdigit' ⊢
  generalize (b.toNat : Int) * M = d at hdigit hdigit' ⊢
  have hsum : |d + sVal signed bs| < 128 * M := abs_lt.2 (by omega)
  omega

/-- The product of two such readings fits the two's-complement range of their bytes together (R192). -/
theorem two_mul_abs_sVal_mul_lt (signed : Bool) {a b : Byte} (ha : a.toNat < 0x80) (hb : b.toNat < 0x80)
    (as bs : List Byte) {n : Nat} (hn : (a :: as).length + (b :: bs).length ≤ n) :
    2 * |sVal signed (a :: as) * sVal signed (b :: bs)| < 256 ^ n := by
  have hx := two_mul_abs_sVal_lt signed ha as
  have hy := two_mul_abs_sVal_lt signed hb bs
  have hpow : (256 : Int) ^ ((a :: as).length + (b :: bs).length) ≤ 256 ^ n := pow_le_pow_right₀ (by norm_num) hn
  have hmul := mul_lt_mul'' hx hy (by positivity) (by positivity)
  have hnonneg : 0 ≤ |sVal signed (a :: as)| * |sVal signed (b :: bs)| := by positivity
  rw [← pow_add] at hmul
  rw [abs_mul]
  linarith

/-! ### The two's-complement reading (R79) -/

theorem uVal_lt (bs : List Byte) : uVal bs < 256 ^ bs.length := by
  induction bs with
  | nil => simp [uVal]
  | cons b bs ih =>
    have hb : b.toNat ≤ 255 := Nat.le_of_lt_succ b.isLt
    calc b.toNat * 256 ^ bs.length + uVal bs
      _ < 255 * 256 ^ bs.length + 256 ^ bs.length := add_lt_add_of_le_of_lt (Nat.mul_le_mul_right _ hb) ih
      _ = 256 ^ (bs.length + 1) := by ring

/-- The two's-complement reading is the balanced residue of the unsigned one. -/
theorem tVal_eq_bmod (bs : List Byte) : tVal bs = (uVal bs : Int).bmod (256 ^ bs.length) := by
  cases bs with
  | nil => rfl
  | cons b bs =>
    have hlt : (uVal (b :: bs) : Int) < 256 ^ bs.length * 256 := by exact_mod_cast uVal_lt (b :: bs)
    have hsign : 0x80 ≤ b.toNat ↔ 128 * (256 : Int) ^ bs.length ≤ uVal (b :: bs) := by
      have hrest := uVal_lt bs
      norm_cast
      rw [uVal]
      constructor <;> intro h <;> nlinarith
    rw [tVal, Int.bmod_def, List.length_cons, pow_succ, pow_succ]
    push_cast
    rw [Int.emod_eq_of_lt (by positivity) hlt]
    split <;> split <;> omega

/-- A residue that fits the range is read back exactly. -/
theorem tVal_of_uVal_emod {bs : List Byte} {z : Int} (h : (uVal bs : Int) = z % 256 ^ bs.length)
    (hz : 2 * |z| < 256 ^ bs.length) : tVal bs = z := by
  have hcast : (256 : Int) ^ bs.length = (256 ^ bs.length : Nat) := by push_cast; rfl
  have hlow := neg_abs_le z
  have hhigh := le_abs_self z
  rw [hcast] at h hz
  rw [tVal_eq_bmod, h, Int.emod_bmod]
  exact Int.bmod_eq_of_le (by omega) (by omega)

theorem sVal_of_coef {signed : Bool} {bs : List Byte} (h : ∀ b ∈ bs, coef signed b = b.toNat) :
    sVal signed bs = uVal bs := by
  induction bs with
  | nil => rfl
  | cons b bs ih =>
    rw [sVal, uVal, h b List.mem_cons_self, ih fun c hc => h c (List.mem_cons_of_mem b hc)]
    push_cast
    rfl

theorem tVal_of_lt {b : Byte} (hb : b.toNat < 0x80) (bs : List Byte) : tVal (b :: bs) = uVal (b :: bs) :=
  if_neg (Nat.not_le.2 hb)

/-- Where coefficients are unsigned, or every byte is below `0x80`, the signed reading of a non-negative sequence is the
integer it stands for (R193). -/
theorem sVal_eq_tVal {signed : Bool} {b : Byte} {bs : List Byte} (hb : b.toNat < 0x80)
    (h : signed = true → ∀ x ∈ b :: bs, x.toNat ≤ 0x7F) : sVal signed (b :: bs) = tVal (b :: bs) := by
  rw [tVal_of_lt hb]
  refine sVal_of_coef fun x hx => ?_
  rw [coef_eq_ite, if_neg]
  rintro ⟨hsigned, hx'⟩
  have := h hsigned x hx
  omega

/-- Under `ExactRound` the bytes read back as the product of the signed readings (R192). -/
theorem tVal_propagateCarries_convolution (signed : Bool) {a b : Byte} (ha : a.toNat < 0x80) (hb : b.toNat < 0x80)
    (as bs : List Byte) {n : Nat} (hn : (a :: as).length + (b :: bs).length ≤ n) :
    tVal (propagateCarries ((List.range n).map
      (convolutionEntry (intCoefficients signed (a :: as)) (intCoefficients signed (b :: bs))))) =
        sVal signed (a :: as) * sVal signed (b :: bs) := by
  have hvalue := eval_convolution (u := intCoefficients signed (a :: as)) (v := intCoefficients signed (b :: bs))
    (by simp [intCoefficients]) (by simpa [intCoefficients] using hn) 256
  rw [eval_intCoefficients, eval_intCoefficients] at hvalue
  refine tVal_of_uVal_emod ?_ ?_
  · rw [uVal_propagateCarries, hvalue, length_propagateCarries]
  · rw [length_propagateCarries, List.length_map, List.length_range]
    exact two_mul_abs_sVal_mul_lt signed ha hb as bs hn

end Sys2Proof.Machine
end

section
/-! PROOFS. `BMUL`: its failures (O36 to O38, O40), the product it writes (O39), that the order of the operands does not
matter (O42), and the integer the result stands for (O45, O46). -/

namespace Sys2Proof.Machine

variable {p : Params} {s t : State} {a b : Byte} {as bs : List Byte}

/-! ### The ends of the command, in the order of R227 -/

/-- What storing a byte result leaves (R190). -/
theorem succeed_writeByteResult_effect (out : List Byte) (s : State) :
    ∃ t, succeed (writeByteResult out s) = .next t ∧ Cells.Holds t.byBuf out ∧ t.nby = out.length ∧ t.status = 0#32 ∧
      OnlyByteResultChanged s t ∧ ∀ j, out.length ≤ j → Cells.read t.byBuf j = Cells.read s.byBuf j :=
  ⟨_, rfl, Cells.holds_writeFrom s.byBuf out, rfl, rfl, rfl,
    fun _ hj => Cells.read_writeFrom_above _ _ (by rwa [Nat.zero_add])⟩

theorem bmulWith_of_empty (p : Params) (h : s.nba = 0 ∨ s.nbb = 0) :
    bmulWith p s = succeed (writeByteResult [0x00#8] s) := if_pos h

/-- Settles O36: the empty operand is met before anything is read. -/
theorem bmulOfEmptyOperandIsZero : Obligations.BmulOfEmptyOperandIsZero := by
  intro s hempty
  obtain ⟨t, ht, hheld, hnby, hstatus, honly, hrest⟩ := succeed_writeByteResult_effect [0x00#8] s
  exact ⟨t, (bmulWith_of_empty block hempty).trans ht, hheld 0 one_pos, hnby, hstatus, honly, hrest⟩

/-- Both operands are non-empty and their first bytes are written. -/
structure FirstBytes (s : State) (a b : Byte) : Prop where
  nba_ne_zero : s.nba ≠ 0
  nbb_ne_zero : s.nbb ≠ 0
  readA : Cells.read s.ba 0 = some a
  readB : Cells.read s.bb 0 = some b

/-- Past the empty case and the two reads of the sign test, `BMUL` goes on with the two first bytes. -/
theorem FirstBytes.go_eq (h : FirstBytes s a b) (empty : Host.Outcome State Fault Refusal)
    (go : Byte → Byte → Host.Outcome State Fault Refusal) :
    (if s.nba = 0 ∨ s.nbb = 0 then empty
      else withFirstByte s .ba fun a0 => withFirstByte s .bb fun b0 => go a0 b0) = go a b := by
  rw [if_neg (by simp [h.nba_ne_zero, h.nbb_ne_zero]), withFirstByte_of_read (b := .ba) h.readA,
    withFirstByte_of_read (b := .bb) h.readB]

theorem negativeByte_or_iff (a b : Byte) :
    (negativeByte a || negativeByte b) = true ↔ 0x80 ≤ a.toNat ∨ 0x80 ≤ b.toNat := by simp [negativeByte]

theorem bmulWith_of_negative (p : Params) (h : FirstBytes s a b) (hneg : 0x80 ≤ a.toNat ∨ 0x80 ≤ b.toNat) :
    bmulWith p s = raise .invalidInput s :=
  (h.go_eq _ _).trans (if_pos ((negativeByte_or_iff a b).2 hneg))

/-- Settles O37. -/
theorem bmulRejectsNegativeOperand : Obligations.BmulRejectsNegativeOperand :=
  fun _ _ _ hnba hnbb ha hb hneg => bmulWith_of_negative block ⟨hnba, hnbb, ha, hb⟩ hneg

/-- A failed length limit of R183: the first one that fails gives the code. -/
theorem bmulWith_of_too_long (h : FirstBytes s a b) (ha : a.toNat < 0x80) (hb : b.toNat < 0x80)
    (hlong : p.maxTotalBytes < s.nba + s.nbb ∨ p.nMax < nextPow2 (s.nba + s.nbb)) :
    bmulWith p s = raise (if p.maxTotalBytes < s.nba + s.nbb then .precisionExceeded else .invalidLength) s := by
  refine (h.go_eq _ _).trans ((if_neg (by simp [negativeByte_eq_false, ha, hb])).trans ?_)
  by_cases htotal : p.maxTotalBytes < s.nba + s.nbb
  · rw [if_pos htotal, if_pos htotal]
  · rw [if_neg htotal, if_pos (hlong.resolve_left htotal), if_neg htotal]

/-- Settles O38: both limits are checked before any byte but the first ones is read. -/
theorem bmulLengthLimits : Obligations.BmulLengthLimits := by
  refine ⟨fun p s a b hnba hnbb hreadA hreadB ha hb hlong => ?_, fun _ => rfl⟩
  rw [bmulWith_of_too_long ⟨hnba, hnbb, hreadA, hreadB⟩ ha hb hlong]
  split <;> rfl

/-- The operands pass every check of R182 and R183 and all their bytes are written. -/
structure AcceptedOperands (p : Params) (s : State) (a b : Byte) (as bs : List Byte) : Prop where
  lengthA : (a :: as).length = s.nba
  lengthB : (b :: bs).length = s.nbb
  heldA : Cells.Holds s.ba (a :: as)
  heldB : Cells.Holds s.bb (b :: bs)
  nonnegA : a.toNat < 0x80
  nonnegB : b.toNat < 0x80
  total : s.nba + s.nbb ≤ p.maxTotalBytes
  capacity : nextPow2 (s.nba + s.nbb) ≤ p.nMax

theorem AcceptedOperands.firstBytes (h : AcceptedOperands p s a b as bs) : FirstBytes s a b where
  nba_ne_zero := h.lengthA ▸ Nat.succ_ne_zero _
  nbb_ne_zero := h.lengthB ▸ Nat.succ_ne_zero _
  readA := h.heldA 0 (Nat.succ_pos _)
  readB := h.heldB 0 (Nat.succ_pos _)

theorem withBytes_of_holds_length {b : OperandBuffer} {n : Nat} {vs : List Byte} (hlen : vs.length = n)
    (h : Cells.Holds (s.buffer b.name) vs) (go : List Byte → Host.Outcome State Fault Refusal) :
    withBytes s b n go = go vs := hlen ▸ withBytes_of_holds h go

/-- `BMUL` of accepted operands: the product's bytes, or `PrecisionExceeded` where there is none (R180, R187). -/
theorem bmulWith_of_accepted (h : AcceptedOperands p s a b as bs) :
    bmulWith p s = (bigProduct p.trig p.coefSigned (a :: as) (b :: bs)).elim (raise .precisionExceeded s)
      fun out => succeed (writeByteResult out s) := by
  refine (h.firstBytes.go_eq _ _).trans ((if_neg (by simp [negativeByte_eq_false, h.nonnegA, h.nonnegB])).trans ?_)
  rw [if_neg (Nat.not_lt.2 h.total), if_neg (Nat.not_lt.2 h.capacity),
    withBytes_of_holds_length (b := .ba) h.lengthA h.heldA, withBytes_of_holds_length (b := .bb) h.lengthB h.heldB]
  cases bigProduct p.trig p.coefSigned (a :: as) (b :: bs) <;> rfl

/-! ### The product (R180, R190) -/

theorem bigProduct_of_roundAll {trig : Trig} {signed : Bool} {a b : List Byte} {r : List Int}
    (h : roundAll (convolve trig (coefficients signed a) (coefficients signed b)) = some r) :
    bigProduct trig signed a b = some (propagateCarries r) := by
  rw [bigProduct, h, Option.map_some]

theorem bmulWith_of_roundAll (h : AcceptedOperands p s a b as bs) {r : List Int}
    (hr : roundAll (convolve p.trig (coefficients p.coefSigned (a :: as)) (coefficients p.coefSigned (b :: bs))) =
      some r) : bmulWith p s = succeed (writeByteResult (propagateCarries r) s) := by
  rw [bmulWith_of_accepted h, bigProduct_of_roundAll hr, Option.elim_some]

/-- Settles O39: the checks pass, and the bytes, as many as the convolution has coefficients, are stored. -/
theorem bmulWritesProductBytes : Obligations.BmulWritesProductBytes := by
  refine ⟨?_, fun _ => rfl⟩
  intro p s a b as bs r hla hlb hA hB ha hb htotal hcap hr out
  have hlen : out.length = nextPow2 (s.nba + s.nbb) := by
    rw [← hla, ← hlb]
    exact length_of_bigProduct (bigProduct_of_roundAll hr)
  obtain ⟨t, ht, hheld, hnby, hstatus, honly, hrest⟩ := succeed_writeByteResult_effect out s
  rw [hlen] at hnby hrest
  exact ⟨t, (bmulWith_of_roundAll ⟨hla, hlb, hA, hB, ha, hb, htotal, hcap⟩ hr).trans ht, hlen, hheld, hnby, hstatus,
    honly, hrest⟩

/-- One coefficient that cannot be rounded spoils them all (R187). -/
theorem roundAll_eq_none {xs : List FVal} (h : ∃ x ∈ xs, ¬ x.IsFinite) : roundAll xs = none := by
  obtain ⟨y, hy, hfin⟩ := h
  induction xs with
  | nil => cases hy
  | cons x xs ih =>
    rw [roundAll]
    rcases List.mem_cons.1 hy with rfl | hy
    · rw [roundInt_of_not_finite hfin]
    · rw [ih hy]
      cases roundInt x <;> rfl

/-- Settles O40. -/
theorem bmulRejectsNonFiniteCoefficient : Obligations.BmulRejectsNonFiniteCoefficient := by
  intro p s a b as bs hla hlb hA hB ha hb htotal hcap hfin
  rw [bmulWith_of_accepted ⟨hla, hlb, hA, hB, ha, hb, htotal, hcap⟩, bigProduct, roundAll_eq_none hfin]
  rfl

/-! ### The order of the operands (R198) -/

/-- The state with the two byte operands exchanged. -/
def State.swapOperands (s : State) : State := { s with ba := s.bb, nba := s.nbb, bb := s.ba, nbb := s.nba }

theorem FirstBytes.swap (h : FirstBytes s a b) : FirstBytes s.swapOperands b a :=
  ⟨h.nbb_ne_zero, h.nba_ne_zero, h.readB, h.readA⟩

theorem AcceptedOperands.swap (h : AcceptedOperands p s a b as bs) : AcceptedOperands p s.swapOperands b a bs as where
  lengthA := h.lengthB
  lengthB := h.lengthA
  heldA := h.heldB
  heldB := h.heldA
  nonnegA := h.nonnegB
  nonnegB := h.nonnegA
  total := Nat.add_comm s.nba s.nbb ▸ h.total
  capacity := Nat.add_comm s.nba s.nbb ▸ h.capacity

theorem bigProduct_comm (trig : Trig) (signed : Bool) (a b : List Byte) :
    bigProduct trig signed a b = bigProduct trig signed b a := by
  rw [bigProduct, convolve_comm, bigProduct]

/-- A non-empty container of which every byte is written holds a list that begins with its first byte. -/
theorem exists_cons_of_filled {c : Buffer} {n : Nat} (hfilled : Cells.Filled c n) (hn : n ≠ 0)
    (ha : Cells.read c 0 = some a) : ∃ as, (a :: as).length = n ∧ Cells.Holds c (a :: as) := by
  obtain ⟨vs, hvs⟩ := (Cells.filled_iff c n).1 hfilled
  obtain ⟨hlen, hheld⟩ := Cells.readFrom_holds hvs
  cases vs with
  | nil => exact absurd hlen.symm hn
  | cons v vs =>
    obtain rfl := Option.some.inj ((hheld 0 (Nat.succ_pos _)).symm.trans ha)
    exact ⟨vs, hlen, hheld⟩

/-- A `BMUL` that answers a next state has read the first bytes of non-empty operands. -/
theorem exists_firstBytes (h : bmulWith p s = .next t) (hempty : ¬ (s.nba = 0 ∨ s.nbb = 0)) :
    ∃ a b, FirstBytes s a b := by
  rw [bmulWith, if_neg hempty] at h
  rw [not_or] at hempty
  rcases withFirstByte_cases s .ba _ with ⟨a, ha, hw⟩ | ⟨-, hw⟩ <;> rw [hw] at h
  · rcases withFirstByte_cases s .bb _ with ⟨b, hb, hw⟩ | ⟨-, hw⟩ <;> rw [hw] at h
    · exact ⟨a, b, hempty.1, hempty.2, ha, hb⟩
    · cases h
  · cases h

/-- Everything that lets `BMUL` answer a next state: an empty operand, a negative one, a length over a limit, or
accepted operands. -/
theorem bmulWith_cases (h : bmulWith p s = .next t) :
    (s.nba = 0 ∨ s.nbb = 0) ∨ ∃ a b, FirstBytes s a b ∧
      ((0x80 ≤ a.toNat ∨ 0x80 ≤ b.toNat) ∨
        (a.toNat < 0x80 ∧ b.toNat < 0x80 ∧
          (p.maxTotalBytes < s.nba + s.nbb ∨ p.nMax < nextPow2 (s.nba + s.nbb))) ∨
        ∃ as bs, AcceptedOperands p s a b as bs) := by
  by_cases hempty : s.nba = 0 ∨ s.nbb = 0
  · exact .inl hempty
  obtain ⟨a, b, hfirst⟩ := exists_firstBytes h hempty
  refine .inr ⟨a, b, hfirst, ?_⟩
  by_cases hneg : 0x80 ≤ a.toNat ∨ 0x80 ≤ b.toNat
  · exact .inl hneg
  obtain ⟨ha, hb⟩ : a.toNat < 0x80 ∧ b.toNat < 0x80 := by omega
  by_cases hlong : p.maxTotalBytes < s.nba + s.nbb ∨ p.nMax < nextPow2 (s.nba + s.nbb)
  · exact .inr (.inl ⟨ha, hb, hlong⟩)
  obtain ⟨htotal, hcap⟩ : s.nba + s.nbb ≤ p.maxTotalBytes ∧ nextPow2 (s.nba + s.nbb) ≤ p.nMax := by omega
  obtain ⟨hnba, hnbb, hreadA, hreadB⟩ := hfirst
  by_cases hfilled : Cells.Filled s.ba s.nba ∧ Cells.Filled s.bb s.nbb
  · obtain ⟨as, hla, hA⟩ := exists_cons_of_filled hfilled.1 hnba hreadA
    obtain ⟨bs, hlb, hB⟩ := exists_cons_of_filled hfilled.2 hnbb hreadB
    exact .inr (.inr ⟨as, bs, hla, hlb, hA, hB, ha, hb, htotal, hcap⟩)
  · have hposA : ∀ x, Cells.read s.ba 0 = some x → x.toNat < 0x80 := by rw [hreadA]; rintro _ ⟨⟩; exact ha
    have hposB : ∀ x, Cells.read s.bb 0 = some x → x.toNat < 0x80 := by rw [hreadB]; rintro _ ⟨⟩; exact hb
    rcases bmulWith_refused hnba hnbb htotal hcap hposA hposB hfilled with hr | hr <;> cases hr.symm.trans h

/-- With its operands exchanged `BMUL` answers the same state with its operands exchanged. -/
theorem bmulWith_swapOperands (h : bmulWith p s = .next t) : bmulWith p s.swapOperands = .next t.swapOperands := by
  rcases bmulWith_cases h with hempty | ⟨a, b, hfirst, hneg | ⟨ha, hb, hlong⟩ | ⟨as, bs, hacc⟩⟩
  · obtain rfl := Host.Outcome.next.inj ((bmulWith_of_empty p hempty).symm.trans h)
    exact bmulWith_of_empty p hempty.symm
  · obtain rfl := Host.Outcome.next.inj ((bmulWith_of_negative p hfirst hneg).symm.trans h)
    exact bmulWith_of_negative p hfirst.swap hneg.symm
  · obtain rfl := Host.Outcome.next.inj ((bmulWith_of_too_long hfirst ha hb hlong).symm.trans h)
    have hsum : s.swapOperands.nba + s.swapOperands.nbb = s.nba + s.nbb := Nat.add_comm _ _
    have hswap := bmulWith_of_too_long (p := p) hfirst.swap hb ha (by rwa [hsum])
    rw [hsum] at hswap
    exact hswap
  · have hswap := bmulWith_of_accepted hacc.swap
    rw [bigProduct_comm] at hswap
    rw [bmulWith_of_accepted hacc] at h
    rw [hswap]
    generalize bigProduct p.trig p.coefSigned (a :: as) (b :: bs) = product at h ⊢
    cases product with
    | none => obtain rfl := Host.Outcome.next.inj h; rfl
    | some out => obtain rfl := Host.Outcome.next.inj h; rfl

/-- Settles O42: the exchanged run answers the same result. -/
theorem bmulCommutes : Obligations.BmulCommutes := by
  intro s t u ht hu
  obtain rfl := Host.Outcome.next.inj ((bmulWith_swapOperands (p := block) ht).symm.trans hu)
  exact ⟨rfl, rfl, fun _ _ => rfl⟩

/-! ### The integer the result stands for (R192, R193) -/

/-- Under `ExactRound` the bytes `BMUL` writes are the product of the two signed readings. -/
theorem bmulWith_of_exactRound (h : AcceptedOperands p s a b as bs)
    (hexact : ExactRound p.trig p.coefSigned (a :: as) (b :: bs)) :
    ∃ t out, bmulWith p s = .next t ∧ t.status = 0#32 ∧ out.length = t.nby ∧ Cells.Holds t.byBuf out ∧
      tVal out = sVal p.coefSigned (a :: as) * sVal p.coefSigned (b :: bs) := by
  obtain ⟨t, ht, hheld, hnby, hstatus, -⟩ := succeed_writeByteResult_effect (propagateCarries _) s
  exact ⟨t, _, (bmulWith_of_roundAll h hexact).trans ht, hstatus, hnby.symm, hheld,
    tVal_propagateCarries_convolution p.coefSigned h.nonnegA h.nonnegB as bs (le_nextPow2 _)⟩

/-- Settles O45. -/
theorem bmulIsProductOfSignedReadings : Obligations.BmulIsProductOfSignedReadings :=
  ⟨fun _ _ _ _ _ _ hla hlb hA hB ha hb htotal hcap => bmulWith_of_exactRound ⟨hla, hlb, hA, hB, ha, hb, htotal, hcap⟩,
    fun _ => rfl⟩

/-- Settles O46: for such operands the signed readings are the integers they stand for. -/
theorem bmulIsTrueProductOfLowBytes : Obligations.BmulIsTrueProductOfLowBytes := by
  refine ⟨fun p s a b as bs hla hlb hA hB ha hb hlow htotal hcap hexact => ?_, rfl, fun _ => rfl⟩
  rw [← sVal_eq_tVal ha fun hsigned => (hlow hsigned).1, ← sVal_eq_tVal hb fun hsigned => (hlow hsigned).2]
  exact bmulWith_of_exactRound ⟨hla, hlb, hA, hB, ha, hb, htotal, hcap⟩ hexact

end Sys2Proof.Machine
end

section
/-! PROOFS. `BMUL` of one-byte operands (O41): every operation of the two transforms and the product is exact. -/

namespace Sys2Proof.Machine

variable {x y : FVal} {m n : Int}

/-! ### Exact integer arithmetic -/

/-- The value is finite and exactly the integer. -/
def IsExactly (x : FVal) (n : Int) : Prop := x.IsFinite ∧ x.value = n

theorem isExactly_i2f (h : |n| ≤ 2 ^ 53) : IsExactly (i2f n) n := value_i2f h

theorem isExactly_plusZero : IsExactly plusZero 0 := i2f_zero ▸ isExactly_i2f (by norm_num)

theorem IsExactly.fadd (hx : IsExactly x m) (hy : IsExactly y n) (h : |m + n| ≤ 2 ^ 53) :
    IsExactly (fadd x y) (m + n) := by
  have ⟨hfin, hvalue⟩ := (integerArithmeticIsExact.1 x y m n hx.1 hy.1 hx.2 hy.2).1 h
  exact ⟨hfin, by rw [hvalue, Int.cast_add]⟩

theorem IsExactly.fsub (hx : IsExactly x m) (hy : IsExactly y n) (h : |m - n| ≤ 2 ^ 53) :
    IsExactly (fsub x y) (m - n) := by
  have ⟨hfin, hvalue⟩ := (integerArithmeticIsExact.1 x y m n hx.1 hy.1 hx.2 hy.2).2.1 h
  exact ⟨hfin, by rw [hvalue, Int.cast_sub]⟩

theorem IsExactly.fmul (hx : IsExactly x m) (hy : IsExactly y n) (h : |m * n| ≤ 2 ^ 53) :
    IsExactly (fmul x y) (m * n) := by
  have ⟨hfin, hvalue⟩ := (integerArithmeticIsExact.1 x y m n hx.1 hy.1 hx.2 hy.2).2.2 h
  exact ⟨hfin, by rw [hvalue, Int.cast_mul]⟩

/-- Half of an even integer. -/
theorem IsExactly.half (hx : IsExactly x (2 * n)) : IsExactly (fdiv x (i2f 2)) n := by
  obtain ⟨hfin, hvalue⟩ := hx
  rw [Int.cast_mul, Int.cast_ofNat] at hvalue
  have hhalf : x.value / 2 ^ 1 = n := by rw [hvalue, pow_one, mul_div_cancel_left₀ _ two_ne_zero]
  have hnormal : x.value = 0 ∨ 1 / 2 ^ 1022 ≤ |x.value| / 2 ^ 1 := by
    by_cases hn : n = 0
    · exact .inl (by rw [hvalue, hn, Int.cast_zero, mul_zero])
    · have habs : |x.value| / 2 ^ 1 = |(n : ℚ)| := by rw [← hhalf, abs_div, pow_one, Nat.abs_ofNat]
      have hone : (1 : ℚ) ≤ |(n : ℚ)| := by exact_mod_cast Int.one_le_abs hn
      exact .inr (habs ▸ ((div_le_one (by positivity)).2 (one_le_pow₀ one_le_two)).trans hone)
  have hdiv := fdiv_two_pow hfin (by decide) hnormal
  rwa [hhalf, pow_one] at hdiv

theorem IsExactly.roundInt_eq (hx : IsExactly x n) : roundInt x = some n := by
  rw [roundInt_of_finite hx.1, hx.2, Int.floor_intCast_add]
  norm_num

/-! ### The length-2 convolution of two integers (R196) -/

/-- The spectrum of an integer beside a zero is the integer, twice. -/
theorem fwdTransform_padWiden_singleton (p : Params) (hx : IsExactly x n) (hn : |n| ≤ 2 ^ 53) :
    ∃ c d, IsExactly c n ∧ IsExactly d n ∧
      fwdTransform p.trig 1 (padWiden 2 [x]) = [⟨c, plusZero⟩, ⟨d, plusZero⟩] := by
  obtain ⟨bits, rfl⟩ := exists_bits_of_isFinite hx.1
  have hc := hx.fadd isExactly_plusZero (by rwa [add_zero])
  have hd := hx.fsub isExactly_plusZero (by rwa [sub_zero])
  rw [add_zero] at hc
  rw [sub_zero] at hd
  have hpad : padWiden 2 [.bits bits] = [widen bits, widen 0#64] := rfl
  refine ⟨_, _, hc, hd, ?_⟩
  rw [hpad, fwdTransform_one, butterfly_one_widen bits isExactly_plusZero.1]
  rfl

/-- A product of two real elements of a spectrum. -/
theorem isExactly_cplxMul_real (hx : IsExactly x m) (hy : IsExactly y n) (h : |m * n| ≤ 2 ^ 53) :
    IsExactly (cplxMul ⟨x, plusZero⟩ ⟨y, plusZero⟩).re (m * n) ∧
      IsExactly (cplxMul ⟨x, plusZero⟩ ⟨y, plusZero⟩).im 0 := by
  have hzero := isExactly_plusZero
  have hxy := hx.fmul hy h
  have hre := hxy.fsub (hzero.fmul hzero (by norm_num)) (by simpa using h)
  have him := (hx.fmul hzero (by norm_num)).fadd (hzero.fmul hy (by norm_num)) (by norm_num)
  simp only [mul_zero, zero_mul, sub_zero, add_zero] at hre him
  exact ⟨hre, him⟩

/-- The inverse transform of one integer twice is the integer beside a zero. -/
theorem invTransform_pair_re (p : Params) {z w : Cplx FVal} (hz : IsExactly z.re n) (hw : IsExactly w.re n)
    (hwim : w.im.IsFinite) (hn : |2 * n| ≤ 2 ^ 53) :
    ∃ c d, IsExactly c n ∧ IsExactly d 0 ∧ (invTransform p.trig 1 [z, w]).map Cplx.re = [c, d] := by
  obtain ⟨⟨hfin, hvalue⟩, -⟩ := value_cplxMul_conjugateOne hw.1 hwim
  have hprod : IsExactly (cplxMul conjugateOne w).re n := ⟨hfin, hvalue.trans hw.2⟩
  have hsum := hz.fadd hprod (by rwa [← two_mul])
  have hdiff := hz.fsub hprod (by norm_num)
  rw [← two_mul] at hsum
  rw [sub_self, ← mul_zero 2] at hdiff
  refine ⟨_, _, hsum.half, hdiff.half, ?_⟩
  rw [invTransform_one]
  rfl

/-- The convolution of two integers rounds to their product and a zero. -/
theorem roundAll_convolve_singleton (p : Params) (hx : IsExactly x m) (hy : IsExactly y n) (hm : |m| ≤ 2 ^ 53)
    (hn : |n| ≤ 2 ^ 53) (hmn : |2 * (m * n)| ≤ 2 ^ 53) :
    roundAll (convolve p.trig [x] [y]) = some [m * n, 0] := by
  obtain ⟨c, d, hc, hd, hsx⟩ := fwdTransform_padWiden_singleton p hx hm
  obtain ⟨c', d', hc', hd', hsy⟩ := fwdTransform_padWiden_singleton p hy hn
  have hprod : |m * n| ≤ 2 ^ 53 := by rw [abs_le] at hmn ⊢; omega
  obtain ⟨hzre, -⟩ := isExactly_cplxMul_real hc hc' hprod
  obtain ⟨hwre, hwim⟩ := isExactly_cplxMul_real hd hd' hprod
  obtain ⟨e, f, he, hf, hinv⟩ := invTransform_pair_re p hzre hwre hwim.1 hmn
  have hlength : nextPow2 ([x].length + [y].length) = 2 := rfl
  have hlog : Nat.log2 2 = 1 := rfl
  have hconv : convolve p.trig [x] [y] = [e, f] := by
    rw [convolve, hlength, hlog, hsx, hsy]
    exact hinv
  rw [hconv, roundAll, roundAll, roundAll, he.roundInt_eq, hf.roundInt_eq]

/-! ### The two bytes -/

/-- One coefficient below `2^16` and a zero give the two bytes of the coefficient, high byte first. -/
theorem propagateCarries_pair {k : Nat} (hk : k < 65536) :
    propagateCarries [(k : Int), 0] = [BitVec.ofNat 8 (k / 256), BitVec.ofNat 8 (k % 256)] := by
  have hdigits : propagateCarries [(k : Int), 0] =
      [BitVec.ofInt 8 ((0 + ((k : Int) + 0) / 256) % 256), BitVec.ofInt 8 (((k : Int) + 0) % 256)] := rfl
  have hhigh : (0 + ((k : Int) + 0) / 256) % 256 = (k / 256 : Nat) := by omega
  have hlow : ((k : Int) + 0) % 256 = (k % 256 : Nat) := by omega
  rw [hdigits, hhigh, hlow, BitVec.ofInt_natCast, BitVec.ofInt_natCast]

theorem acceptedOperands_of_firstBytes {p : Params} {s : State} {a b : Byte} (htotal : 2 ≤ p.maxTotalBytes)
    (hcap : 2 ≤ p.nMax) (hnba : s.nba = 1) (hnbb : s.nbb = 1) (hreadA : Cells.read s.ba 0 = some a)
    (hreadB : Cells.read s.bb 0 = some b) (ha : a.toNat < 0x80) (hb : b.toNat < 0x80) :
    AcceptedOperands p s a b [] [] where
  lengthA := hnba.symm
  lengthB := hnbb.symm
  heldA := Cells.holds_singleton hreadA
  heldB := Cells.holds_singleton hreadB
  nonnegA := ha
  nonnegB := hb
  total := by rwa [hnba, hnbb]
  capacity := by rwa [hnba, hnbb]

/-- Settles O41: the product is exact, and its carries are the high byte. -/
theorem bmulOfOneByteOperands : Obligations.BmulOfOneByteOperands := by
  refine ⟨fun p s a b htotal hcap hnba hnbb hreadA hreadB ha hb => ?_, fun _ => rfl⟩
  have hacc := acceptedOperands_of_firstBytes htotal hcap hnba hnbb hreadA hreadB ha hb
  have hlt : a.toNat * b.toNat < 0x80 * 0x80 := Nat.mul_lt_mul'' ha hb
  have hexact {c : Byte} (hc : c.toNat < 0x80) : IsExactly (i2f (coef p.coefSigned c)) c.toNat :=
    coef_of_lt p.coefSigned hc ▸ isExactly_i2f ((abs_coef_le _ _).trans (by norm_num))
  have hround : roundAll (convolve p.trig (coefficients p.coefSigned [a]) (coefficients p.coefSigned [b])) =
      some [((a.toNat * b.toNat : Nat) : Int), 0] := by
    rw [Nat.cast_mul]
    exact roundAll_convolve_singleton p (hexact ha) (hexact hb) (abs_le.2 (by omega)) (abs_le.2 (by omega))
      (abs_le.2 (by omega))
  obtain ⟨t, ht, hheld, hnby, hstatus, -⟩ :=
    succeed_writeByteResult_effect (propagateCarries [((a.toNat * b.toNat : Nat) : Int), 0]) s
  rw [propagateCarries_pair (by omega)] at hheld
  exact ⟨t, (bmulWith_of_roundAll hacc hround).trans ht, hstatus, hnby, hheld 0 two_pos, hheld 1 one_lt_two⟩

end Sys2Proof.Machine
end

section
/-! PROOFS. What each command leaves unchanged when it answers a next state (O52). -/

namespace Sys2Proof.Machine

variable {p : Params} {s t : State}

/-! ### How a command answers a next state -/

theorem withPlane_next {q : OperandPlane} {n : Nat} {go : List F64 → Host.Outcome State Fault Refusal}
    (h : withPlane s q n go = .next t) : ∃ vs, go vs = .next t := by
  rcases withPlane_cases s q n go with ⟨vs, -, -, hw⟩ | ⟨-, hw⟩
  · exact ⟨vs, hw.symm.trans h⟩
  · cases hw.symm.trans h

theorem eq_setStatus_of_raise {c : StatusCode} (h : raise c s = .next t) : t = setStatus c s :=
  (Host.Outcome.next.inj h).symm

/-- `FFT` fails on the length, or stores a transform (R120, R121). -/
theorem fftWith_next (h : fftWith p s = .next t) :
    t = setStatus .invalidLength s ∨ ∃ w, finishTransform p w s = .next t := by
  unfold fftWith at h
  split at h
  · exact .inl (eq_setStatus_of_raise h)
  · obtain ⟨x, hx⟩ := withPlane_next h
    exact .inr ⟨_, hx⟩

/-- `IFFT` fails on a length, or stores a transform (R140, R141). -/
theorem ifftWith_next (h : ifftWith p s = .next t) :
    t = setStatus .invalidLength s ∨ ∃ w, finishTransform p w s = .next t := by
  unfold ifftWith at h
  split at h
  · exact .inl (eq_setStatus_of_raise h)
  split at h
  · exact .inl (eq_setStatus_of_raise h)
  · obtain ⟨re, hre⟩ := withPlane_next h
    obtain ⟨im, him⟩ := withPlane_next hre
    exact .inr ⟨_, him⟩

/-- `BMUL` fails with some code, or stores bytes (R180, R227). -/
theorem bmulWith_next (h : bmulWith p s = .next t) :
    (∃ c, t = setStatus c s) ∨ ∃ out, succeed (writeByteResult out s) = .next t := by
  rcases bmulWith_cases h with hempty | ⟨a, b, hfirst, hneg | ⟨ha, hb, hlong⟩ | ⟨as, bs, hacc⟩⟩
  · exact .inr ⟨_, (bmulWith_of_empty p hempty).symm.trans h⟩
  · exact .inl ⟨_, eq_setStatus_of_raise ((bmulWith_of_negative p hfirst hneg).symm.trans h)⟩
  · exact .inl ⟨_, eq_setStatus_of_raise ((bmulWith_of_too_long hfirst ha hb hlong).symm.trans h)⟩
  · rw [bmulWith_of_accepted hacc] at h
    cases hproduct : bigProduct p.trig p.coefSigned (a :: as) (b :: bs) with
    | none => rw [hproduct] at h; exact .inl ⟨_, eq_setStatus_of_raise h⟩
    | some out => rw [hproduct] at h; exact .inr ⟨out, h⟩

/-! ### The frame of each kind of result -/

/-- What a command whose result is two planes leaves alone. -/
def TransformFrame (s t : State) : Prop :=
  OnlyPlaneResultChanged s t ∧
    ∀ j, t.ny ≤ j → Cells.read t.yRe j = Cells.read s.yRe j ∧ Cells.read t.yIm j = Cells.read s.yIm j

theorem onlyScalarResultChanged_of_finishScalar {z : Cplx FVal} (h : finishScalar p z s = .next t) :
    OnlyScalarResultChanged s t := by
  obtain ⟨t', ht', -, -, honly⟩ := finishScalar_effect p z s
  obtain rfl := Host.Outcome.next.inj (ht'.symm.trans h)
  exact honly

/-- Elements at the length of the transform and above are not reached by its writes. -/
theorem transformFrame_of_finishTransform {w : List (Cplx FVal)} (h : finishTransform p w s = .next t) :
    TransformFrame s t := by
  obtain ⟨t', ht', -, -, hny, -, honly, habove⟩ := finishTransform_effect p w s
  obtain rfl := Host.Outcome.next.inj (ht'.symm.trans h)
  exact ⟨honly, hny ▸ habove⟩

theorem transformFrame_setStatus (c : StatusCode) (s : State) : TransformFrame s (setStatus c s) :=
  ⟨rfl, fun _ _ => ⟨rfl, rfl⟩⟩

theorem fftWith_frame (h : fftWith p s = .next t) : TransformFrame s t := by
  rcases fftWith_next h with rfl | ⟨w, hw⟩
  · exact transformFrame_setStatus _ s
  · exact transformFrame_of_finishTransform hw

theorem ifftWith_frame (h : ifftWith p s = .next t) : TransformFrame s t := by
  rcases ifftWith_next h with rfl | ⟨w, hw⟩
  · exact transformFrame_setStatus _ s
  · exact transformFrame_of_finishTransform hw

/-- A `CONV` that succeeds leaves no element of `Y_IM` with a value (R166), so the frame speaks of `Y_RE` alone. -/
theorem convWith_frame (h : convWith p s = .next t) :
    OnlyPlaneResultChanged s t ∧ ∀ j, t.ny ≤ j → Cells.read t.yRe j = Cells.read s.yRe j := by
  rcases convWith_cases h with rfl | ⟨u, v, -, -, -, -, rfl⟩
  · exact ⟨rfl, fun _ _ => rfl⟩
  · obtain ⟨t', ht', -, hny, -, honly, habove⟩ :=
      succeed_writeRealResult_effect p (convolve p.trig (u.map .bits) (v.map .bits)) s
    obtain rfl := Host.Outcome.next.inj ht'
    exact ⟨honly, hny ▸ habove⟩

theorem bmulWith_frame (h : bmulWith p s = .next t) :
    OnlyByteResultChanged s t ∧ ∀ j, t.nby ≤ j → Cells.read t.byBuf j = Cells.read s.byBuf j := by
  rcases bmulWith_next h with ⟨c, rfl⟩ | ⟨out, hout⟩
  · exact ⟨rfl, fun _ _ => rfl⟩
  · obtain ⟨t', ht', -, hnby, -, honly, habove⟩ := succeed_writeByteResult_effect out s
    obtain rfl := Host.Outcome.next.inj (ht'.symm.trans hout)
    exact ⟨honly, hnby ▸ habove⟩

/-- Settles O52, command by command: each has one kind of result, and a failure writes `STATUS` alone. -/
theorem commandFrames : Obligations.CommandFrames := by
  intro i s t h
  cases i with
  | cadd => exact onlyScalarResultChanged_of_finishScalar h
  | csub => exact onlyScalarResultChanged_of_finishScalar h
  | cmul => exact onlyScalarResultChanged_of_finishScalar h
  | crnd => exact onlyScalarResultChanged_of_finishScalar h
  | fft => exact fftWith_frame h
  | ifft => exact ifftWith_frame h
  | conv => exact convWith_frame h
  | bmul => exact bmulWith_frame h

end Sys2Proof.Machine
end

section
/-! PROOFS. How a pending word ends: a failure changes nothing but `STATUS` (O50), and which codes each word can end
with (O51). -/

namespace Sys2Proof.Machine

variable {p : Params} {s t : State}

/-- A step with a word pending runs its command, or raises `IllegalCommand` where it is none (R25, R73). -/
theorem step_of_pending {w : Word} (hcmd : s.cmd = some w) (hstep : step s = .next t) :
    (∃ i, decode w = some i ∧ exec i (takeCommand s) = .next t) ∨
      (decode w = none ∧ t = setStatus .illegalCommand (takeCommand s)) := by
  cases hdecode : decode w with
  | some i => exact .inl ⟨i, rfl, (stepRunsDecodedCommand s w i hcmd hdecode).symm.trans hstep⟩
  | none => exact .inr ⟨rfl, Host.Outcome.next.inj (hstep.symm.trans (step_of_illegal hcmd hdecode))⟩

/-! ### What a failure changes -/

theorem onlyStatusChanged_setStatus (c : StatusCode) (s : State) : OnlyStatusChanged s (setStatus c s) := rfl

/-- The four kinds of result all come with `OK`, so a command that ends with another code has raised it. -/
theorem CommandEffect.onlyStatusChanged (h : CommandEffect p s t) (hfail : t.status ≠ 0#32) :
    OnlyStatusChanged s t := by
  cases h with
  | failed c ht => exact ht ▸ onlyStatusChanged_setStatus c s
  | scalar z ht => exact absurd (congrArg State.status ht) hfail
  | transform w len cap ht => exact absurd (congrArg State.status ht) hfail
  | real w len cap ht => exact absurd (congrArg State.status ht) hfail
  | bytes out len cap ht => exact absurd (congrArg State.status ht) hfail

/-- Settles O50, for a command by the effects it can have. -/
theorem failureChangesOnlyStatus : Obligations.FailureChangesOnlyStatus := by
  intro s t w hcmd hstep hfail
  rcases step_of_pending hcmd hstep with ⟨i, -, hexec⟩ | ⟨-, rfl⟩
  · exact (exec_effect hexec).onlyStatusChanged hfail
  · exact onlyStatusChanged_setStatus .illegalCommand (takeCommand s)

/-! ### The codes of each command -/

theorem status_of_succeed (h : succeed s = .next t) : t.status = 0#32 :=
  (congrArg State.status (Host.Outcome.next.inj h)).symm

theorem status_of_raise {c : StatusCode} (h : raise c s = .next t) : t.status = c.word :=
  congrArg State.status (eq_setStatus_of_raise h)

theorem fftWith_status (h : fftWith p s = .next t) : t.status = 0#32 ∨ t.status = 1#32 := by
  rcases fftWith_next h with rfl | ⟨w, hw⟩
  · exact .inr rfl
  · exact .inl (status_of_succeed hw)

theorem ifftWith_status (h : ifftWith p s = .next t) : t.status = 0#32 ∨ t.status = 1#32 := by
  rcases ifftWith_next h with rfl | ⟨w, hw⟩
  · exact .inr rfl
  · exact .inl (status_of_succeed hw)

theorem convWith_status (h : convWith p s = .next t) : t.status = 0#32 ∨ t.status = 1#32 := by
  rcases convWith_cases h with rfl | ⟨u, v, -, -, -, -, rfl⟩
  · exact .inr rfl
  · exact .inl rfl

/-- `BMUL` ends with `InvalidInput` on a negative operand (R182), with `PrecisionExceeded` or `InvalidLength` over a
limit (R183), and with `PrecisionExceeded` on a coefficient that is not finite (R187). -/
theorem bmulWith_status (h : bmulWith p s = .next t) :
    t.status = 0#32 ∨ t.status = 1#32 ∨ t.status = 2#32 ∨ t.status = 3#32 := by
  rcases bmulWith_cases h with hempty | ⟨a, b, hfirst, hneg | ⟨ha, hb, hlong⟩ | ⟨as, bs, hacc⟩⟩
  · exact .inl (status_of_succeed ((bmulWith_of_empty p hempty).symm.trans h))
  · exact .inr (.inr (.inr (status_of_raise ((bmulWith_of_negative p hfirst hneg).symm.trans h))))
  · have hcode := status_of_raise ((bmulWith_of_too_long hfirst ha hb hlong).symm.trans h)
    split at hcode
    · exact .inr (.inr (.inl hcode))
    · exact .inr (.inl hcode)
  · rw [bmulWith_of_accepted hacc] at h
    cases hproduct : bigProduct p.trig p.coefSigned (a :: as) (b :: bs) with
    | none => rw [hproduct] at h; exact .inr (.inr (.inl (status_of_raise h)))
    | some out => rw [hproduct] at h; exact .inl (status_of_succeed h)

/-- Settles O51, command by command. -/
theorem codesOfEachCommand : Obligations.CodesOfEachCommand := by
  intro s t w hcmd hstep
  rcases step_of_pending hcmd hstep with ⟨i, hdecode, hexec⟩ | ⟨hdecode, rfl⟩ <;> rw [hdecode]
  · cases i with
    | cadd => exact status_of_succeed hexec
    | csub => exact status_of_succeed hexec
    | cmul => exact status_of_succeed hexec
    | crnd => exact status_of_succeed hexec
    | fft => exact fftWith_status hexec
    | ifft => exact ifftWith_status hexec
    | conv => exact convWith_status hexec
    | bmul => exact bmulWith_status hexec
  · rfl

end Sys2Proof.Machine
end

section
/-! PROOFS. The first command after reset (O55). -/

namespace Sys2Proof.Machine

/-- The command issued first runs on the reset state itself: `CMD` was empty there and is empty again once the word is
taken (R25, R39). -/
theorem step_first_command (i : Instr) :
    step (State.reset.withFetchWord 32 (encode i).toNat) = exec i State.reset := by
  have hcmd : (State.reset.withFetchWord 32 (encode i).toNat).cmd = some (encode i) := by
    rw [State.withFetchWord, withPendingWord_cmd, BitVec.ofNat_toNat, BitVec.setWidth_eq]
  exact stepRunsDecodedCommand _ (encode i) i hcmd (decode_encode i)

/-- The length 0 that reset leaves is no power of two (R10). -/
theorem reset_naRe_ne_two_pow : ¬ ∃ k, State.reset.naRe = 2 ^ k := fun ⟨k, hk⟩ => (Nat.two_pow_pos k).ne hk

/-- `BMUL` of the empty operands reset leaves stores the one byte 0 (R181). -/
theorem exec_bmul_reset :
    exec .bmul State.reset = .next { State.reset with byBuf := [(0, 0x00#8)], nby := 1, byEpoch := 1 } := by
  calc exec .bmul State.reset = bmulWith block State.reset := rfl
    _ = succeed (writeByteResult [0x00#8] State.reset) := bmulWith_of_empty block (.inl rfl)
    _ = .next { State.reset with byBuf := [(0, 0x00#8)], nby := 1, byEpoch := 1 } := rfl

/-- Settles O55: every length is 0 after reset, a length the transforms and `CONV` reject and `BMUL` takes for an
empty operand. -/
theorem firstCommandAfterReset : Obligations.FirstCommandAfterReset := by
  refine ⟨fun i hi => ?_, _, (step_first_command .bmul).trans exec_bmul_reset, rfl⟩
  rw [step_first_command]
  simp only [List.mem_cons, List.not_mem_nil, or_false] at hi
  rcases hi with rfl | rfl | rfl
  · exact fftRejectsBadLength State.reset (.inl reset_naRe_ne_two_pow)
  · exact ifftRejectsBadLength State.reset (.inr (.inl reset_naRe_ne_two_pow))
  · exact convRejectsEmptyOrTooLong State.reset (.inl rfl)

end Sys2Proof.Machine
end
